-- ==== Sys2Proof/Word.lean ====
section
/-! DEFINITION. Word types of TS-CE: a byte of the sensor's register space (R60), a command word (R80)
and a binary64 bit pattern (R16, R97: sign in bit 63). -/

namespace Sys2Proof

/-- One register byte or one byte of a bus frame (R14: a byte is 8 bits). -/
abbrev Byte := BitVec 8

/-- A command word `CW` (R80). -/
abbrev Word := BitVec 32

/-- An IEEE 754 binary64 value, held as its bit pattern (R16, R97). -/
abbrev F64 := BitVec 64

end Sys2Proof
end

