-- ==== Sys2Proof/Config.lean ====
section
/-! DEFINITION. What an implementation fixes (the parameters of R11), the types its oracle and
its free values need, and the free values themselves: opaque constants with no body, of which no proof
can know a value. -/

namespace Sys2Proof

/-- The framing of the bus, `P_BUS` (R11, R25). -/
inductive BusKind where
  | i2c
  | spi
deriving DecidableEq, Repr, Inhabited

/-- How many kinds of bus error there are beside the base one. A free value: R11 leaves `BusErr` open. -/
opaque Config.busErrKinds : Nat

/-- How many symbols the detail of a bus error is written with. A free value: with none there is no detail, and
with any there are infinitely many. -/
opaque Config.busErrSymbols : Nat

/-- An underlying bus error, type `BusErr` of R11 (OPEN: the oracle chooses the value). The two free sizes
leave the type open: it can be of any finite size but empty, or countably infinite (log 7). -/
structure BusErr where
  kind   : Option (Fin Config.busErrKinds)
  detail : List (Fin Config.busErrSymbols)
deriving DecidableEq, Repr, Inhabited

/-- The one bus error that every choice of the type has. -/
def BusErr.base : BusErr := ⟨none, []⟩

/-- A transaction as the bus port emits it (R10, R89 to R91): the bytes sent and how many are to come back. -/
structure BusFrame where
  kind  : BusKind
  out   : List Byte
  inLen : Nat
deriving DecidableEq, Repr, Inhabited

/-- What the environment oracle answers to one transaction (R66): the in-frame, or a bus error. -/
inductive BusAnswer where
  | ok  (data : List Byte)
  | err (e : BusErr)
deriving DecidableEq, Repr, Inhabited

/-- One transaction of the history the oracle sees (R66). -/
structure BusEvent where
  frame  : BusFrame
  answer : BusAnswer
deriving DecidableEq, Repr, Inhabited

/-- The scheduler's choice of the next agent to step (R9, R73). -/
inductive Event where
  /-- The host requester's command: acceptance, or the next atomic step of the command in progress. -/
  | host
  /-- The sampler agent. `abandon` is the choice between steps P1 and P2 where both are enabled (R226). -/
  | sampler (abandon : Bool)
  /-- The consumer: a word of the consumer port, or the next try of a TAKE that waits. -/
  | consumer
  /-- The timer ends the inter-poll delay: step T4 (R190). -/
  | pollTimer
  /-- The timer ends the sampler's interval: step W2 (R223, R311). -/
  | intervalTimer
  /-- A transaction offered to the transport on its own (R110, R111). -/
  | busPort
deriving DecidableEq, Repr, Inhabited

/-- Who takes a step (R9): the host, the sampler, the consumer, the timer for each of its two delays (R311), and
the transport with a transaction of its own. -/
inductive Agent where
  | host
  | sampler
  | consumer
  | pollTimer
  | intervalTimer
  | busPort
deriving DecidableEq, Repr, Inhabited

/-- `P_NEWDATA_POL` (R41). -/
inductive Polarity where
  | high
  | low
deriving DecidableEq, Repr, Inhabited

/-- `P_POLL_EXIT` (R194). -/
inductive PollExit where
  | newdataAndNotMeasuring
  | newdataOnly
  | notMeasuring
deriving DecidableEq, Repr, Inhabited

/-- `P_PFORM` and `P_HFORM` (R160, R165): the default formula, or another one by number. -/
inductive FormulaSel where
  | boschF64
  | other (k : Nat)
deriving DecidableEq, Repr, Inhabited

/-- `CAL` (R26): the 23 coefficients, each in the width its row of R26 gives. The signed ones are read
with `toInt`, the unsigned ones with `toNat`. -/
structure Cal where
  t1  : BitVec 16
  t2  : BitVec 16
  t3  : BitVec 8
  p1  : BitVec 16
  p2  : BitVec 16
  p3  : BitVec 8
  p4  : BitVec 16
  p5  : BitVec 16
  p6  : BitVec 8
  p7  : BitVec 8
  p8  : BitVec 16
  p9  : BitVec 16
  p10 : BitVec 8
  h1  : BitVec 12
  h2  : BitVec 12
  h3  : BitVec 8
  h4  : BitVec 8
  h5  : BitVec 8
  h6  : BitVec 8
  h7  : BitVec 8
  gh1 : BitVec 8
  gh2 : BitVec 16
  gh3 : BitVec 8
deriving DecidableEq, Repr, Inhabited

/-- The parameters of R11. `P_BUS` is register `BUS` of State (R25), and the type `BusErr` stands above. -/
structure Params where
  deviceName   : String
  regChipId    : Byte
  regVariant   : Byte
  regCal1      : Byte
  lenCal1      : Nat
  regCal2      : Byte
  lenCal2      : Nat
  regStatus    : Byte
  regCtrlHum   : Byte
  regCtrlMeas  : Byte
  regConfig    : Byte
  regData      : Byte
  lenData      : Nat
  chipId       : Byte
  variants     : List Byte
  newdataBit   : Nat
  measuringBit : Nat
  newdataPol   : Polarity
  pollExit     : PollExit
  pollDelayMs  : Nat
  sleepFirst   : Bool
  spiFill      : Byte
  pform        : FormulaSel
  hform        : FormulaSel
  pdiv         : Nat
  pguard       : Bool
deriving DecidableEq, Repr, Inhabited

namespace Config

/-- `P_BUS`, OPEN (R11, decision D2): a free value. -/
opaque pBus : BusKind

/-- `P_DEVICE_NAME`, OPEN (R11): a free value. -/
opaque deviceName : String

/-- The values R11 assigns to the parameters. -/
def params : Params where
  deviceName   := deviceName
  regChipId    := 0xD0
  regVariant   := 0xF0
  regCal1      := 0x8A
  lenCal1      := 23
  regCal2      := 0xE1
  lenCal2      := 14
  regStatus    := 0x1D
  regCtrlHum   := 0x72
  regCtrlMeas  := 0x74
  regConfig    := 0x75
  regData      := 0x1F
  lenData      := 8
  chipId       := 0x61
  variants     := [0x00, 0x01]
  newdataBit   := 7
  measuringBit := 5
  newdataPol   := .high
  pollExit     := .newdataAndNotMeasuring
  pollDelayMs  := 10
  sleepFirst   := true
  spiFill      := 0x00
  pform        := .boschF64
  hform        := .boschF64
  pdiv         := 1
  pguard       := true

/-- The environment oracle (R66): its answer to a transaction, given the history of transactions so far
(newest first). A free value: the model places no law on it. -/
opaque oracle : List BusEvent → BusFrame → BusAnswer

/-- The bytes of an in-frame that an answer leaves out (R66: any values): a free value. -/
opaque oracleByte : List BusEvent → BusFrame → Nat → Byte

/-- Byte i of a window or data block that has no byte i: reached only with a `P_LEN_*` shorter than the layout
(R12, R133). A free value. -/
opaque absentByte : List Byte → Nat → Byte

/-- The scheduler's choice at each step of the machine (R73, I20): a free value. -/
opaque schedule : Nat → Event

/-- How many free choices the scheduler makes after each turn of an agent (R311, I20): a free value. -/
opaque patience : Nat → Nat

/-- The sampler's choice between P1 and P2 at its own turn (R226): a free value. -/
opaque abandon : Nat → Bool

/-- Response fields that a command's outcome does not list (R95, I13): free values, one set for each
response number. The second argument tells the 64-bit fields T, P, H and TFINE apart. -/
opaque freeField : Nat → Nat → F64

/-- The field HV of a response that does not list it (R95, I13): a free value. -/
opaque freeHV : Nat → Bool

/-- The field stat of a response that does not list it (R95, I13): a free value. -/
opaque freeStat : Nat → Word

/-- The field buserr of a response that does not list it (R95, I13): a free value. -/
opaque freeBusErr : Nat → BusErr

/-- The field dev of a response that does not list it (R95, I13): a free value. -/
opaque freeDev : Nat → String

/-- The sign and the payload of a NaN result (R161, I29): a free value. -/
opaque freeNaN : Nat → Nat → Bool × BitVec 52

/-- Another pressure function (`P_PFORM`, R160): of the raw pressure, temp_fine and CAL. A free value. -/
opaque otherPress : Nat → BitVec 20 → F64 → Cal → F64

/-- Another humidity function before the clamp (`P_HFORM`, R165). A free value. -/
opaque otherHum : Nat → BitVec 16 → F64 → Cal → F64

end Config

end Sys2Proof
end

