-- ==== Sys2Proof/Syntax.lean ====
section
/-! DEFINITION. The instructions of TS-CE (R3): the commands of the command port (R81), the request of
the consumer port (R88) and the bus transactions the transport emits (R89 to R91). One constructor for
each row of spec/opcode_table.json. -/

namespace Sys2Proof

/-- One constructor per row of the opcode table. -/
inductive Instr where
  /-- INIT (R180): oversampling codes of temperature, pressure and humidity, and the filter code (R83). -/
  | init (osrsT osrsP osrsH filter : BitVec 3)
  /-- SENSE (R186). -/
  | sense
  /-- START (R230): the interval in ms (R85). -/
  | start (interval : BitVec 24)
  /-- STOP (R233). -/
  | stop
  /-- STATUS (R236). -/
  | status
  /-- COMP_T (R155): raw temperature (R86). -/
  | compT (raw : BitVec 20)
  /-- COMP_P (R163): raw pressure (R86). -/
  | compP (raw : BitVec 20)
  /-- COMP_H (R168): raw humidity (R86). -/
  | compH (raw : BitVec 16)
  /-- TAKE (R238). -/
  | take
  /-- BUS_RD_I2C (R113): register address and byte count. -/
  | busRdI2c (addr : Byte) (n : Nat)
  /-- BUS_RD_SPI (R114): the seven address bits the frame carries, and the byte count. -/
  | busRdSpi (addr : BitVec 7) (n : Nat)
  /-- BUS_WR_I2C (R117): the pairs in order. -/
  | busWrI2c (pairs : List (Byte × Byte))
  /-- BUS_WR_SPI (R118): the pairs in order, each with the seven address bits the frame carries. -/
  | busWrSpi (pairs : List (BitVec 7 × Byte))
deriving DecidableEq, Repr

/-- An instruction as its port carries it: a command word (R80), a consumer word (R88) or a bus
frame (R89 to R91). -/
inductive Packet where
  | cmd  (w : Word)
  | cons (b : Byte)
  | bus  (f : BusFrame)
deriving DecidableEq, Repr

end Sys2Proof
end

