-- ==== Sys2Proof/WellFormed.lean ====
section
/-! DEFINITION. Which terms of Instr the encodings of 30_encoding.md can carry. -/

namespace Sys2Proof

/-- An oversampling code that is not reserved (R84: codes 0 to 5). -/
def osrsOk (c : BitVec 3) : Bool := decide (c.toNat ≤ 5)

/-- A read the transport may emit (R61, R112): at least one byte, and no byte beyond address 0xFF. -/
def readInRange (a n : Nat) : Bool := decide (1 ≤ n) && decide (a + n ≤ 256)

/-- Well-formed instructions: INIT without a reserved oversampling code (R82), a read within R61's bound,
a write of at least one pair (R116). Every other operand fits its field by its type. -/
def Instr.wf : Instr → Bool
  | .init t p h _  => osrsOk t && osrsOk p && osrsOk h
  | .sense         => true
  | .start _       => true
  | .stop          => true
  | .status        => true
  | .compT _       => true
  | .compP _       => true
  | .compH _       => true
  | .take          => true
  | .busRdI2c a n  => readInRange a.toNat n
  | .busRdSpi a n  => readInRange a.toNat n
  | .busWrI2c ps   => !ps.isEmpty
  | .busWrSpi ps   => !ps.isEmpty

end Sys2Proof
end

