-- ==== Sys2Proof/Decode.lean ====
section
/-! DEFINITION. The decoder of command words (R80 to R87), consumer words (R88) and bus frames (R89 to
R91), total and rejecting by name, and the encoder written from the same tables. -/

namespace Sys2Proof

/-- Why a packet is no instruction. -/
inductive DecodeError where
  /-- The opcode is not in the table of R81. -/
  | unknownOpcode
  /-- A must-be-zero bit of the command word is 1 (R82). -/
  | mustBeZero
  /-- An INIT holds an oversampling code 6 or 7 (R82, R84). -/
  | reservedOversampling
  /-- A consumer word that is not 0x01 (R88). -/
  | unknownConsumerWord
  /-- Bytes that are no frame of R89 to R91, or a read beyond R61's bound. -/
  | malformedFrame
deriving DecidableEq, Repr

/-- INIT's row of R81 with its operand fields (R83) and its refused codes (R82). -/
def decodeInit (w : Word) : Except DecodeError Instr :=
  if w.extractLsb 31 20 ≠ 0 then .error .mustBeZero
  else if osrsOk (w.extractLsb 10 8) && osrsOk (w.extractLsb 13 11) && osrsOk (w.extractLsb 16 14) then
    .ok (.init (w.extractLsb 10 8) (w.extractLsb 13 11) (w.extractLsb 16 14) (w.extractLsb 19 17))
  else .error .reservedOversampling

/-- A row of R81 without operand: `[31:8]` must be zero. -/
def decodePlain (w : Word) (i : Instr) : Except DecodeError Instr :=
  if w.extractLsb 31 8 ≠ 0 then .error .mustBeZero else .ok i

/-- A command word (R80, R81): opcode in `[7:0]`, operand in `[31:8]`. -/
def decodeCmd (w : Word) : Except DecodeError Instr :=
  match (w.extractLsb 7 0).toNat with
  | 0x01 => decodeInit w
  | 0x02 => decodePlain w .sense
  | 0x03 => .ok (.start (w.extractLsb 31 8))
  | 0x04 => decodePlain w .stop
  | 0x05 => decodePlain w .status
  | 0x10 => if w.extractLsb 31 28 ≠ 0 then .error .mustBeZero else .ok (.compT (w.extractLsb 27 8))
  | 0x11 => if w.extractLsb 31 28 ≠ 0 then .error .mustBeZero else .ok (.compP (w.extractLsb 27 8))
  | 0x12 => if w.extractLsb 31 24 ≠ 0 then .error .mustBeZero else .ok (.compH (w.extractLsb 23 8))
  | _    => .error .unknownOpcode

/-- A consumer word (R88). -/
def decodeCons (b : Byte) : Except DecodeError Instr :=
  if b = 0x01#8 then .ok .take else .error .unknownConsumerWord

/-- The bytes `a0 v0 a1 v1 …` of a write frame as pairs (R91). -/
def pairUp : List Byte → Option (List (Byte × Byte))
  | []          => some []
  | [_]         => none
  | a :: v :: r => (pairUp r).map ((a, v) :: ·)

/-- The pairs of a SPI write: bit 7 of every address byte is 0 (R91, R118). -/
def spiPairs : List (Byte × Byte) → Option (List (BitVec 7 × Byte))
  | []          => some []
  | (a, v) :: r => if a.msb then none else (spiPairs r).map ((a.setWidth 7, v) :: ·)

/-- An I2C frame (R89, R91): one byte out and bytes in is a read; pairs out and nothing in is a write. -/
def decodeI2c (out : List Byte) (inLen : Nat) : Except DecodeError Instr :=
  if inLen = 0 then
    match pairUp out with
    | some (p :: ps) => .ok (.busWrI2c (p :: ps))
    | _              => .error .malformedFrame
  else
    match out with
    | [a] => if readInRange a.toNat inLen then .ok (.busRdI2c a inLen) else .error .malformedFrame
    | _   => .error .malformedFrame

/-- A SPI frame (R90, R91): bit 7 of the first byte selects read or write. `fill` is `P_SPI_FILL`. -/
def decodeSpi (fill : Byte) (out : List Byte) (inLen : Nat) : Except DecodeError Instr :=
  match out with
  | []     => .error .malformedFrame
  | b :: r =>
    if b.msb then
      if r = List.replicate r.length fill ∧ inLen = r.length + 1 ∧
          readInRange (b.setWidth 7).toNat r.length = true then
        .ok (.busRdSpi (b.setWidth 7) r.length)
      else .error .malformedFrame
    else if inLen = 0 then
      match (pairUp (b :: r)).bind spiPairs with
      | some (p :: ps) => .ok (.busWrSpi (p :: ps))
      | _              => .error .malformedFrame
    else .error .malformedFrame

/-- A bus frame under its framing. -/
def decodeFrame (fill : Byte) (f : BusFrame) : Except DecodeError Instr :=
  match f.kind with
  | .i2c => decodeI2c f.out f.inLen
  | .spi => decodeSpi fill f.out f.inLen

/-- The decoder: total on every packet (R87). -/
def decode (fill : Byte) : Packet → Except DecodeError Instr
  | .cmd w  => decodeCmd w
  | .cons b => decodeCons b
  | .bus f  => decodeFrame fill f

/-- The out-frame of an I2C read (R89). -/
def i2cReadOut (a : Byte) : List Byte := [a]

/-- The out-frame of a SPI read: `[0x80 | a[6:0]]`, then n filler bytes (R90). -/
def spiReadOut (fill : Byte) (a : BitVec 7) (n : Nat) : List Byte :=
  (1#1 ++ a : BitVec 8) :: List.replicate n fill

/-- The out-frame of an I2C write: `[a0, v0, …, ak, vk]` (R91). -/
def i2cWriteOut (ps : List (Byte × Byte)) : List Byte := ps.flatMap fun p => [p.1, p.2]

/-- The out-frame of a SPI write: `[a0 & 0x7F, v0, …, ak & 0x7F, vk]` (R91). -/
def spiWriteOut (ps : List (BitVec 7 × Byte)) : List Byte :=
  ps.flatMap fun p => [(0#1 ++ p.1 : BitVec 8), p.2]

/-- The word of INIT: `osrs_t | osrs_p << 3 | osrs_h << 6 | filter << 9`, then the opcode (R100). -/
def encodeInit (t p h f : BitVec 3) : Word :=
  (0#12 ++ f ++ h ++ p ++ t ++ 0x01#8 : BitVec 32)

/-- The encoder: the packet that carries a well-formed instruction (R100, R88, R89 to R91). -/
def encode (fill : Byte) : Instr → Packet
  | .init t p h f  => .cmd (encodeInit t p h f)
  | .sense         => .cmd 0x00000002
  | .start ms      => .cmd (ms ++ 0x03#8 : BitVec 32)
  | .stop          => .cmd 0x00000004
  | .status        => .cmd 0x00000005
  | .compT raw     => .cmd (0#4 ++ raw ++ 0x10#8 : BitVec 32)
  | .compP raw     => .cmd (0#4 ++ raw ++ 0x11#8 : BitVec 32)
  | .compH raw     => .cmd (0#8 ++ raw ++ 0x12#8 : BitVec 32)
  | .take          => .cons 0x01
  | .busRdI2c a n  => .bus ⟨.i2c, i2cReadOut a, n⟩
  | .busRdSpi a n  => .bus ⟨.spi, spiReadOut fill a n, n + 1⟩
  | .busWrI2c ps   => .bus ⟨.i2c, i2cWriteOut ps, 0⟩
  | .busWrSpi ps   => .bus ⟨.spi, spiWriteOut ps, 0⟩

/-- The packet that a word of the opcode table stands for: `nbits` table bits, bit 0 the least
significant bit of the first byte, every further bit 0 (assumption log 3). A 32-bit row is a command word.
An 8-bit row is the consumer word 0x01 or else the first byte of a SPI frame, whose bit 7 tells read from
write. The I2C rows fix no bit at all: no bit given is a read of address 0, and two bytes are one written pair. -/
def tablePacket (nbits w : Nat) : Option Packet :=
  match nbits with
  | 32 => some (.cmd (BitVec.ofNat 32 w))
  | 8  =>
    let b : Byte := BitVec.ofNat 8 w
    if b = 0x01#8 then some (.cons b)
    else some (.bus ⟨.spi, [b, 0x00], if b.msb then 2 else 0⟩)
  | 0  => some (.bus ⟨.i2c, [0x00], 1⟩)
  | 16 => some (.bus ⟨.i2c, [BitVec.ofNat 8 w, BitVec.ofNat 8 (w / 256)], 0⟩)
  | _  => none

/-- The instruction the decoder reads from a word of the opcode table. -/
def decodeTableWord (nbits w : Nat) : Option Instr :=
  match tablePacket nbits w with
  | some p => (decode Config.params.spiFill p).toOption
  | none   => none

end Sys2Proof
end

