-- ==== Sys2Proof/Machine/State.lean ====
section
/-! DEFINITION. The state of TS-CE as plain data (10_state.md), its reset (R44, R290), and the reasons a
step can stop. The registers of the spec stand first, then what the model needs of its own: the
parameters, the place of a command in its pseudocode, and the inputs of the ports. -/

namespace Sys2Proof.Machine

/-- Why the machine stops with a fault. All are model faults of R264: no sequence of inputs of the block
reaches them, and stopping there is safe. -/
inductive Fault where
  /-- A read with n = 0 or a + n > 256 (R61, R112, R264). Raised by INIT, by a cycle and by BUS_RD_*; safe. -/
  | readOutOfRange
  /-- A bus transaction of an agent that LOCK does not name (R72, R264). Raised by a cycle and by BUS_*; safe. -/
  | busWithoutLock
  /-- The release of a lock the agent does not hold (R221, R264). Raised at the end of a cycle; safe. -/
  | releaseUnheld
  /-- A frame of the framing that BUS does not name (R112, R116, R264). Raised by BUS_*; safe. -/
  | wrongFraming
deriving DecidableEq, Repr

/-- Why the machine refuses. -/
inductive Refusal where
  /-- An instruction with no meaning yet. Raised by no arm of this model; safe. -/
  | notModelled (mnemonic : String)
  /-- Bytes offered to the transport that are no frame of R89 to R91. Raised by the step, never by an
  instruction; safe. -/
  | malformedFrame (why : DecodeError)
deriving DecidableEq, Repr

/-- `LIFE` (R23). -/
inductive Life where
  | uninit
  | ready
  | failed
deriving DecidableEq, Repr

/-- `SEQ` (R22). -/
inductive Seq where
  | sleep
  | triggered
  | polling
  | dataReady
deriving DecidableEq, Repr

/-- `DEVMODE` (R28). -/
inductive DevMode where
  | sleep
  | forced
deriving DecidableEq, Repr

/-- `LOCK` (R29). -/
inductive Owner where
  | free
  | host
  | sampler
deriving DecidableEq, Repr

/-- `S_PHASE` (R34). -/
inductive Phase where
  | idle
  | measuring
  | publishing
  | waiting
deriving DecidableEq, Repr

/-- The response codes of R260; a reserved code is no value of this type. -/
inductive Code where
  | ok
  | transportError
  | unsupportedDevice
  | alreadySampling
  | cancelled
  | illegalCommand
  | notInitialized
  | invalidConfig
  | alreadyInitialized
  | tfineUnset
deriving DecidableEq, Repr

/-- `CFG` (R24). -/
structure AcqCfg where
  osrsT  : BitVec 3
  osrsP  : BitVec 3
  osrsH  : BitVec 3
  filter : BitVec 3
deriving DecidableEq, Repr

/-- A Measurement (R40). -/
structure Measurement where
  t : F64
  p : F64
  h : Option F64
deriving DecidableEq, Repr

/-- The cycle registers (R30). `none` is the spec's own state "unwritten"; `ch` holds `some none` for a
cycle without humidity. -/
structure CycleRegs where
  status : Option Byte
  rawP   : Option (BitVec 20)
  rawT   : Option (BitVec 20)
  rawH   : Option (BitVec 16)
  tfine  : Option F64
  ct     : Option F64
  cp     : Option F64
  ch     : Option (Option F64)
deriving DecidableEq, Repr

/-- Every cycle register unwritten (R30, R268). -/
def CycleRegs.unwritten : CycleRegs := ⟨none, none, none, none, none, none, none, none⟩

/-- The error `S_ERR` holds (R37, R224): code, transaction id and bus error. -/
structure SErr where
  code : Code
  txn  : Byte
  e    : BusErr
deriving DecidableEq, Repr

/-- The response record of R95. -/
structure Resp where
  code   : Code
  detail : Byte
  aux    : Byte
  t      : F64
  p      : F64
  h      : F64
  hv     : Bool
  tfine  : F64
  stat   : Word
  buserr : BusErr
  dev    : String
deriving DecidableEq, Repr

/-- What a transport operation returns to its caller (R112, R116). -/
inductive XferResult where
  | ok  (data : List Byte)
  | err (e : BusErr)
deriving DecidableEq, Repr

/-- Where the command in progress stands in its pseudocode: the model's own field. `entry` is the start.
INIT's places carry its local variables `var` and `w1` (R180). -/
inductive HostPhase where
  | entry
  | initChip
  | initVariant
  | initCal1 (var : Byte)
  | initCal2 (var : Byte) (w1 : List Byte)
  | senseCycle
  | startWait
  | stopWait
deriving DecidableEq, Repr

/-- The model's own fields around the ports: the scheduler, the inputs that wait and the bus history. -/
structure Env where
  /-- Choices of the scheduler still to come; with none left free choices and the agents' turns alternate. -/
  sched   : List Event
  /-- How many steps the machine has taken. -/
  tick    : Nat
  /-- How many turns the scheduler has given to the agents in their order. -/
  turn    : Nat
  /-- How many free choices come before the next turn. -/
  patience : Nat
  /-- Command words the host requester has yet to present. -/
  cmdIn   : List Word
  /-- Consumer words the consumer has yet to present. -/
  consIn  : List Byte
  /-- Transactions offered to the transport on their own. -/
  frameIn : List BusFrame
  /-- Answers of the environment oracle still to come; with none left `Config.oracle` answers. -/
  busIn   : List BusAnswer
  /-- Every transaction so far, newest first (R66). -/
  hist    : List BusEvent
  /-- The number of the next response, which the free values of a response are read at. -/
  fresh   : Nat
deriving DecidableEq, Repr

/-- The state of the block. -/
structure State where
  /-- `LIFE` (R23). -/
  life      : Life
  /-- `SEQ` (R22). -/
  seq       : Seq
  /-- `PWAIT` (R22). -/
  pwait     : Bool
  /-- `CFG` (R24). -/
  cfg       : AcqCfg
  /-- `BUS` (R25). -/
  bus       : BusKind
  /-- `CAL` (R26). -/
  cal       : Cal
  /-- `VARIANT` (R27). -/
  variant   : Byte
  /-- `DEVMODE` (R28). -/
  devmode   : DevMode
  /-- `LOCK` (R29). -/
  lock      : Owner
  /-- `C_STATUS` to `C_H` (R30). -/
  cyc       : CycleRegs
  /-- `TFINE` (R31). -/
  tfine     : F64
  /-- `TFINE_V` (R31). -/
  tfineV    : Bool
  /-- `S_ACTIVE` (R32). -/
  sActive   : Bool
  /-- `S_CANCEL` (R33). -/
  sCancel   : Bool
  /-- `S_PHASE` (R34). -/
  sPhase    : Phase
  /-- `S_INTERVAL` (R35). -/
  sInterval : BitVec 24
  /-- `S_PENDING` (R36). -/
  sPending  : Option Measurement
  /-- `S_ERR` (R37). -/
  sErr      : Option SErr
  /-- `MBOX` (R38). -/
  mbox      : Option Measurement
  /-- `CMD_BUSY` (R39). -/
  cmdBusy   : Bool
  /-- `RESP` (R39, R95). -/
  resp      : Resp
  /-- `BUSERR` (R45). -/
  buserr    : BusErr
  /-- The response of the consumer port (R88, R97, R238). -/
  cresp     : Resp
  /-- The delay in ms the timer port has been asked for and has not ended (R10, R17). -/
  timer     : Option Nat
  /-- The parameters (R11): fixed, the model's own field. -/
  par       : Params
  /-- The accepted command word (R80): the model's own field, read while `cmdBusy`. -/
  cmd       : Word
  /-- Where the accepted command stands: the model's own field. -/
  hphase    : HostPhase
  /-- The consumer word in progress, a TAKE that waits (R238 case b): the model's own field. -/
  consReq   : Option Byte
  /-- What the last transaction that stood on its own returned (R112): the model's own field. -/
  xfer      : XferResult
  /-- Scheduler, inputs and history: the model's own fields. -/
  env       : Env
deriving DecidableEq, Repr

/-- What a step or an instruction answers. -/
abbrev Out := Host.Outcome State Fault Refusal

/-- A response record with every field zero: the reset value the model names for RESP (log 1). -/
def Resp.zero : Resp := ⟨.ok, 0, 0, 0, 0, 0, false, 0, 0, .base, ""⟩

/-- CAL with every coefficient zero: the reset value the model names (log 1). -/
def calZero : Cal :=
  ⟨0, 0, 0, 0, 0, 0, 0, 0, 0, 0, 0, 0, 0, 0, 0, 0, 0, 0, 0, 0, 0, 0, 0⟩

/-- The ports right after reset: no input, no history. -/
def Env.reset : Env := ⟨[], 0, 0, 0, [], [], [], [], [], 0⟩

/-- The state after power-on reset: R44's table; where it says "unspecified", the zero of log 1. -/
def State.reset : State where
  life      := .uninit
  seq       := .sleep
  pwait     := false
  cfg       := ⟨0, 0, 0, 0⟩
  bus       := Config.pBus
  cal       := calZero
  variant   := 0x00
  devmode   := .sleep
  lock      := .free
  cyc       := .unwritten
  tfine     := 0
  tfineV    := false
  sActive   := false
  sCancel   := false
  sPhase    := .idle
  sInterval := 0
  sPending  := none
  sErr      := none
  mbox      := none
  cmdBusy   := false
  resp      := .zero
  buserr    := .base
  cresp     := .zero
  timer     := none
  par       := Config.params
  cmd       := 0
  hphase    := .entry
  consReq   := none
  xfer      := .ok []
  env       := .reset

end Sys2Proof.Machine
end

