-- ==== Sys2Proof/Machine/Operands.lean ====
section
/-! DEFINITION. The operand forms: bytes of a window, little-endian pairs and nibbles (R131, R134), the
register bytes the block writes (R92, R93), the trigger pairs (R191), and the numbers a response carries. -/

namespace Sys2Proof.Machine

/-- Byte i of a window or a data block. The transport returns exactly the bytes asked for (R66); a byte beyond
them, which only a shorter `P_LEN_*` leaves out, is a free value. -/
def byteAt (d : List Byte) (i : Nat) : Byte := d.getD i (Config.absentByte d i)

/-- `le16(lo, hi) = lo | (hi << 8)` (R131). -/
def le16 (lo hi : Byte) : BitVec 16 := hi ++ lo

/-- A 12-bit coefficient from its high byte and a nibble (R134). -/
def nibble12 (hi : Byte) (lo : BitVec 4) : BitVec 12 := hi ++ lo

/-- A 20-bit raw value, `(MSB << 12) | (LSB << 4) | (XLSB >> 4)` (R140, R141). -/
def raw20 (msb lsb xlsb : Byte) : BitVec 20 := msb ++ lsb ++ (xlsb.extractLsb 7 4 : BitVec 4)

/-- A 16-bit big-endian raw value (R142). -/
def be16 (msb lsb : Byte) : BitVec 16 := msb ++ lsb

/-- INIT's operand as a configuration (R83). -/
def cfgOf (t p h f : BitVec 3) : AcqCfg := ⟨t, p, h, f⟩

/-- R181: temperature oversampling off with pressure or humidity oversampling on. -/
def cfgInvalid (c : AcqCfg) : Bool := c.osrsT == 0 && (c.osrsP != 0 || c.osrsH != 0)

/-- The byte for `ctrl_meas` with a mode (R92): mode 0b00 is sleep, 0b01 forced. -/
def ctrlMeasByte (c : AcqCfg) (mode : BitVec 2) : Byte := c.osrsT ++ c.osrsP ++ mode

/-- The byte for `ctrl_hum` (R93). -/
def ctrlHumByte (c : AcqCfg) : Byte := 0#5 ++ c.osrsH

/-- The byte for `config` (R93). -/
def configByte (c : AcqCfg) : Byte := 0#3 ++ c.filter ++ 0#2

/-- `TRIGGER_PAIRS(cfg)` (R191). -/
def triggerPairs (par : Params) (c : AcqCfg) : List (Byte × Byte) :=
  (if par.sleepFirst then [(par.regCtrlMeas, ctrlMeasByte c 0b00)] else []) ++
    [(par.regCtrlHum, ctrlHumByte c), (par.regConfig, configByte c),
     (par.regCtrlMeas, ctrlMeasByte c 0b01)]

/-- The numeric response codes of R260. -/
def codeByte : Code → Byte
  | .ok                 => 0x00
  | .transportError     => 0x01
  | .unsupportedDevice  => 0x02
  | .alreadySampling    => 0x03
  | .cancelled          => 0x04
  | .illegalCommand     => 0x05
  | .notInitialized     => 0x06
  | .invalidConfig      => 0x07
  | .alreadyInitialized => 0x08
  | .tfineUnset         => 0x09

/-- The transaction ids of R261. -/
def txnChipId : Byte := 0x01
/-- Variant-ID read (R261). -/
def txnVariant : Byte := 0x02
/-- Calibration window 1 (R261). -/
def txnCal1 : Byte := 0x03
/-- Calibration window 2 (R261). -/
def txnCal2 : Byte := 0x04
/-- Trigger write (R261). -/
def txnTrigger : Byte := 0x10
/-- Status read (R261). -/
def txnStatus : Byte := 0x11
/-- Data block read (R261). -/
def txnData : Byte := 0x12

/-- `stat[1:0]` (R96). -/
def lifeBits : Life → BitVec 2
  | .uninit => 0
  | .ready  => 1
  | .failed => 2

/-- `stat[3:2]` (R96). -/
def seqBits : Seq → BitVec 2
  | .sleep     => 0
  | .triggered => 1
  | .polling   => 2
  | .dataReady => 3

/-- `stat[5:4]` (R96). -/
def phaseBits : Phase → BitVec 2
  | .idle       => 0
  | .measuring  => 1
  | .publishing => 2
  | .waiting    => 3

/-- `stat[8]` (R96). -/
def devModeBit : DevMode → BitVec 1
  | .sleep  => 0
  | .forced => 1

end Sys2Proof.Machine
end

