-- ==== Sys2Proof/Machine/Calibration.lean ====
section
/-! DEFINITION. `DECODE_CAL` (R130 to R139) and `ASSEMBLE_RAW` (R140 to R142). -/

namespace Sys2Proof.Machine

/-- `DECODE_CAL(W1, W2)` (R132). -/
def decodeCal (w1 w2 : List Byte) : Cal where
  t2  := le16 (byteAt w1 0) (byteAt w1 1)
  t3  := byteAt w1 2
  p1  := le16 (byteAt w1 4) (byteAt w1 5)
  p2  := le16 (byteAt w1 6) (byteAt w1 7)
  p3  := byteAt w1 8
  p4  := le16 (byteAt w1 10) (byteAt w1 11)
  p5  := le16 (byteAt w1 12) (byteAt w1 13)
  p7  := byteAt w1 14
  p6  := byteAt w1 15
  p8  := le16 (byteAt w1 18) (byteAt w1 19)
  p9  := le16 (byteAt w1 20) (byteAt w1 21)
  p10 := byteAt w1 22
  h2  := nibble12 (byteAt w2 0) ((byteAt w2 1).extractLsb 7 4)
  h1  := nibble12 (byteAt w2 2) ((byteAt w2 1).extractLsb 3 0)
  h3  := byteAt w2 3
  h4  := byteAt w2 4
  h5  := byteAt w2 5
  h6  := byteAt w2 6
  h7  := byteAt w2 7
  t1  := le16 (byteAt w2 8) (byteAt w2 9)
  gh2 := le16 (byteAt w2 10) (byteAt w2 11)
  gh1 := byteAt w2 12
  gh3 := byteAt w2 13

/-- `rawP` of `ASSEMBLE_RAW` (R140). -/
def rawPOf (d : List Byte) : BitVec 20 := raw20 (byteAt d 0) (byteAt d 1) (byteAt d 2)

/-- `rawT` of `ASSEMBLE_RAW` (R141). -/
def rawTOf (d : List Byte) : BitVec 20 := raw20 (byteAt d 3) (byteAt d 4) (byteAt d 5)

/-- `rawH` of `ASSEMBLE_RAW` (R142). -/
def rawHOf (d : List Byte) : BitVec 16 := be16 (byteAt d 6) (byteAt d 7)

end Sys2Proof.Machine
end

