-- ==== Sys2Proof/Machine/Float64.lean ====
section
/-! DEFINITION. IEEE 754 binary64 on bit patterns (R16, R151): addition, subtraction, multiplication
and division computed exactly on integers and rounded once, to nearest with ties to even. A finite value is
`(-1)^sign · fMant · 2^(fUlp - 1075)`. -/

namespace Sys2Proof.Machine

/-- The sign bit, bit 63. -/
def fSign (x : F64) : Bool := x.msb

/-- The biased exponent, bits 62:52. -/
def fExp (x : F64) : Nat := x.toNat / 2 ^ 52 % 2048

/-- The fraction field, bits 51:0. -/
def fFrac (x : F64) : Nat := x.toNat % 2 ^ 52

/-- A NaN. -/
def isNaN (x : F64) : Bool := fExp x == 2047 && fFrac x != 0

/-- An infinity. -/
def isInf (x : F64) : Bool := fExp x == 2047 && fFrac x == 0

/-- A zero of either sign. -/
def isZero (x : F64) : Bool := fExp x == 0 && fFrac x == 0

/-- A finite value. -/
def isFinite (x : F64) : Bool := fExp x != 2047

/-- The integer significand, with the hidden bit of a normal number. -/
def fMant (x : F64) : Nat := if fExp x = 0 then fFrac x else fFrac x + 2 ^ 52

/-- The biased exponent of one unit in the last place. -/
def fUlp (x : F64) : Nat := max (fExp x) 1

/-- The weight of a sign bit. -/
def signWeight (s : Bool) : Nat := if s then 2 ^ 63 else 0

/-- A zero with a sign. -/
def fZero (s : Bool) : F64 := BitVec.ofNat 64 (signWeight s)

/-- An infinity with a sign. -/
def fInf (s : Bool) : F64 := BitVec.ofNat 64 (signWeight s + 2047 * 2 ^ 52)

/-- A NaN with a sign and a payload; a zero payload would be an infinity and gives payload 1. -/
def fNaN (s : Bool) (payload : BitVec 52) : F64 :=
  BitVec.ofNat 64 (signWeight s + 2047 * 2 ^ 52 + max payload.toNat 1)

/-- The NaN that stands for every NaN inside a formula: its pattern is replaced by a free one where a
result leaves the engine (`settleNaN`). -/
def qNaN : F64 := fNaN false (BitVec.ofNat 52 (2 ^ 51))

/-- The integer nearest to `m / 2^k`, ties to even. -/
def roundShift (m k : Nat) : Nat :=
  if 2 * (m % 2 ^ k) > 2 ^ k ∨ (2 * (m % 2 ^ k) = 2 ^ k ∧ m / 2 ^ k % 2 = 1) then m / 2 ^ k + 1
  else m / 2 ^ k

/-- The exponent of the last place of the binary64 next to `m · 2^e`. -/
def lastPlace (m : Nat) (e : Int) : Int := max (e + (Nat.log2 m : Int) - 52) (-1074)

/-- The significand that `m · 2^e` rounds to at its last place. -/
def roundMant (m : Nat) (e : Int) : Nat :=
  if e ≥ lastPlace m e then m * 2 ^ (e - lastPlace m e).toNat
  else roundShift m (lastPlace m e - e).toNat

/-- The binary64 nearest to `(-1)^s · m · 2^e`, ties to even (R16): a significand that rounds up to the next
power of two carries into the exponent, and one beyond the largest finite value gives an infinity. -/
def packRound (s : Bool) (m : Nat) (e : Int) : F64 :=
  if m = 0 then fZero s
  else if (lastPlace m e + 1074).toNat * 2 ^ 52 + roundMant m e ≥ 2047 * 2 ^ 52 then fInf s
  else BitVec.ofNat 64 (signWeight s + ((lastPlace m e + 1074).toNat * 2 ^ 52 + roundMant m e))

/-- `f64(n)` (R16). -/
def fOfInt (n : Int) : F64 := packRound (decide (n < 0)) n.natAbs 0

/-- The significand with its sign, at the last place `2^(u - 1075)`. -/
def fAligned (x : F64) (u : Nat) : Int :=
  if fSign x then -((fMant x * 2 ^ (fUlp x - u) : Nat) : Int) else ((fMant x * 2 ^ (fUlp x - u) : Nat) : Int)

/-- The sign flipped. -/
def fNeg (x : F64) : F64 := x ^^^ BitVec.ofNat 64 (2 ^ 63)

/-- `a +. b` (R16). An exact sum of zero is −0 when both operands are negative, else +0. -/
def fAdd (x y : F64) : F64 :=
  if isNaN x || isNaN y then qNaN
  else if isInf x then if isInf y && fSign x != fSign y then qNaN else x
  else if isInf y then y
  else
    let u := min (fUlp x) (fUlp y)
    let r := fAligned x u + fAligned y u
    if r = 0 then fZero (fSign x && fSign y)
    else packRound (decide (r < 0)) r.natAbs ((u : Int) - 1075)

/-- `a -. b` (R16). -/
def fSub (x y : F64) : F64 := fAdd x (fNeg y)

/-- `a *. b` (R16). -/
def fMul (x y : F64) : F64 :=
  if isNaN x || isNaN y then qNaN
  else if isInf x then if isZero y then qNaN else fInf (fSign x != fSign y)
  else if isInf y then if isZero x then qNaN else fInf (fSign x != fSign y)
  else packRound (fSign x != fSign y) (fMant x * fMant y) ((fUlp x : Int) + fUlp y - 2150)

/-- How far a dividend is shifted: far enough for every quotient to keep more bits than rounding needs. -/
def divShift : Nat := 120

/-- The quotient of two significands, shifted, with its last bit set when the division leaves a rest. -/
def divMant (m d : Nat) : Nat :=
  2 * (m * 2 ^ divShift / d) + (if m * 2 ^ divShift % d = 0 then 0 else 1)

/-- `a /. b` (R16). -/
def fDiv (x y : F64) : F64 :=
  if isNaN x || isNaN y then qNaN
  else if isInf x then if isInf y then qNaN else fInf (fSign x != fSign y)
  else if isInf y then fZero (fSign x != fSign y)
  else if isZero y then if isZero x then qNaN else fInf (fSign x != fSign y)
  else packRound (fSign x != fSign y) (divMant (fMant x) (fMant y))
    ((fUlp x : Int) - fUlp y - (divShift : Int) - 1)

/-- An integer that orders the values that are no NaN; both zeros give 0. -/
def fKey (x : F64) : Int :=
  if fSign x then -((x.toNat - 2 ^ 63 : Nat) : Int) else (x.toNat : Int)

/-- `x < y`, the IEEE comparison (R16): false when an operand is a NaN. -/
def fLt (x y : F64) : Bool := !isNaN x && !isNaN y && decide (fKey x < fKey y)

/-- `trunc(x) = 0` (R16, R161): |x| < 1. -/
def truncIsZero (x : F64) : Bool := decide (fExp x < 1023)

/-- A result as it leaves the engine: a NaN takes a free pattern (R161, I29). `k` and `j` are the places
the free value is read at. -/
def settleNaN (k j : Nat) (x : F64) : F64 :=
  if isNaN x then fNaN (Config.freeNaN k j).1 (Config.freeNaN k j).2 else x

end Sys2Proof.Machine
end

