-- ==== Sys2Proof/Machine/Compensation.lean ====
section
/-! DEFINITION. The compensation engine (R150 to R174): `TEMP`, `PRESS`, `HUM`, `COMPENSATE`, each operation
in the order the spec writes it. -/

namespace Sys2Proof.Machine

/-- A whole number as a binary64 literal (R16). -/
def lit (n : Nat) : F64 := fOfInt (n : Int)

/-- `f64` of an unsigned coefficient or raw value (R16, R26). -/
def fU {w : Nat} (v : BitVec w) : F64 := fOfInt (v.toNat : Int)

/-- `f64` of a signed coefficient (R16, R26). -/
def fS {w : Nat} (v : BitVec w) : F64 := fOfInt v.toInt

/-- `a` of `TEMP` (R152). -/
def tempA (rawT : BitVec 20) (c : Cal) : F64 :=
  fMul (fSub (fDiv (fU rawT) (lit 16384)) (fDiv (fU c.t1) (lit 1024))) (fS c.t2)

/-- `q` of `TEMP` (R152). -/
def tempQ (rawT : BitVec 20) (c : Cal) : F64 :=
  fSub (fDiv (fU rawT) (lit 131072)) (fDiv (fU c.t1) (lit 8192))

/-- `b` of `TEMP` (R152). -/
def tempB (rawT : BitVec 20) (c : Cal) : F64 :=
  fMul (fMul (fMul (tempQ rawT c) (tempQ rawT c)) (fS c.t3)) (lit 16)

/-- `tf` of `TEMP` (R152): temp_fine. -/
def tempFine (rawT : BitVec 20) (c : Cal) : F64 := fAdd (tempA rawT c) (tempB rawT c)

/-- `tc` from temp_fine (R152): degrees Celsius (R154). -/
def celsius (tf : F64) : F64 := fDiv tf (lit 5120)

/-- `TEMP(rawT, CAL)` (R152): the pair (tf, tc). -/
def temp (rawT : BitVec 20) (c : Cal) : F64 × F64 := (tempFine rawT c, celsius (tempFine rawT c))

/-- v1 of the pressure formula before it is reused (R160, first line). -/
def pressV (tf : F64) : F64 := fSub (fDiv tf (lit 2)) (lit 64000)

/-- v2 of the pressure formula (R160, lines 2 to 4). -/
def pressOffset (tf : F64) (c : Cal) : F64 :=
  let v1 := pressV tf
  let v2 := fMul (fMul v1 v1) (fDiv (fS c.p6) (lit 131072))
  let v2 := fAdd v2 (fMul (fMul v1 (fS c.p5)) (lit 2))
  fAdd (fDiv v2 (lit 4)) (fMul (fS c.p4) (lit 65536))

/-- The denominator v1 of the pressure formula (R160, lines 5 and 6; R161). -/
def pressDenom (tf : F64) (c : Cal) : F64 :=
  let v1 := pressV tf
  let v1 := fDiv (fAdd (fDiv (fMul (fMul (fS c.p3) v1) v1) (lit 16384)) (fMul (fS c.p2) v1)) (lit 524288)
  fMul (fAdd (lit 1) (fDiv v1 (lit 32768))) (fU c.p1)

/-- The pressure formula after the guard (R160). -/
def pressTail (rawP : BitVec 20) (v1 v2 : F64) (c : Cal) : F64 :=
  let pc := fSub (lit 1048576) (fU rawP)
  let pc := fDiv (fMul (fSub pc (fDiv v2 (lit 4096))) (lit 6250)) v1
  let w1 := fDiv (fMul (fMul (fS c.p9) pc) pc) (lit 2147483648)
  let w2 := fMul pc (fDiv (fS c.p8) (lit 32768))
  let w3 := fMul (fMul (fMul (fDiv pc (lit 256)) (fDiv pc (lit 256))) (fDiv pc (lit 256)))
    (fDiv (fU c.p10) (lit 131072))
  fAdd pc (fDiv (fAdd (fAdd (fAdd w1 w2) w3) (fMul (fS c.p7) (lit 128))) (lit 16))

/-- `BOSCH_F64_P` (R160) with its guard (R161). -/
def boschPress (guard : Bool) (rawP : BitVec 20) (tf : F64) (c : Cal) : F64 :=
  if guard && truncIsZero (pressDenom tf c) then fZero false
  else pressTail rawP (pressDenom tf c) (pressOffset tf c) c

/-- `P_PFORM(rawP, tf, CAL)` (R160). -/
def pressForm (par : Params) (rawP : BitVec 20) (tf : F64) (c : Cal) : F64 :=
  match par.pform with
  | .boschF64 => boschPress par.pguard rawP tf c
  | .other k  => Config.otherPress k rawP tf c

/-- `PRESS(rawP, tf, CAL)` (R160, R162), before a NaN takes its free pattern. -/
def press (par : Params) (rawP : BitVec 20) (tf : F64) (c : Cal) : F64 :=
  if par.pdiv = 1 then pressForm par rawP tf c
  else fDiv (pressForm par rawP tf c) (lit par.pdiv)

/-- v1 of the humidity formula (R165). -/
def humV1 (rawH : BitVec 16) (tc : F64) (c : Cal) : F64 :=
  fSub (fU rawH) (fAdd (fMul (fU c.h1) (lit 16)) (fMul (fDiv (fS c.h3) (lit 2)) tc))

/-- v2 of the humidity formula (R165). -/
def humV2 (v1 tc : F64) (c : Cal) : F64 :=
  fMul v1 (fMul (fDiv (fU c.h2) (lit 262144))
    (fAdd (fAdd (lit 1) (fMul (fDiv (fS c.h4) (lit 16384)) tc))
      (fMul (fMul (fDiv (fS c.h5) (lit 1048576)) tc) tc)))

/-- `BOSCH_F64_H` (R165). -/
def boschHum (rawH : BitVec 16) (tf : F64) (c : Cal) : F64 :=
  let tc := celsius tf
  let v2 := humV2 (humV1 rawH tc c) tc c
  let v3 := fDiv (fU c.h6) (lit 16384)
  let v4 := fDiv (fS c.h7) (lit 2097152)
  fAdd v2 (fMul (fMul (fAdd v3 (fMul v4 tc)) v2) v2)

/-- `P_HFORM(rawH, tf, CAL)` (R165). -/
def humForm (par : Params) (rawH : BitVec 16) (tf : F64) (c : Cal) : F64 :=
  match par.hform with
  | .boschF64 => boschHum rawH tf c
  | .other k  => Config.otherHum k rawH tf c

/-- `CLAMP_H(x)` (R166). -/
def clampH (x : F64) : F64 :=
  if fLt (lit 100) x then lit 100
  else if fLt x (fZero false) then fZero false
  else x

/-- `HUM(rawH, tf, CAL)` (R165), before a NaN takes its free pattern. -/
def hum (par : Params) (rawH : BitVec 16) (tf : F64) (c : Cal) : F64 := clampH (humForm par rawH tf c)

/-- The pressure as it leaves the engine (R161). `k` is where its free NaN is read. -/
def pressOut (k : Nat) (par : Params) (rawP : BitVec 20) (tf : F64) (c : Cal) : F64 :=
  settleNaN k 0 (press par rawP tf c)

/-- The humidity as it leaves the engine (R167). -/
def humOut (k : Nat) (par : Params) (rawH : BitVec 16) (tf : F64) (c : Cal) : F64 :=
  settleNaN k 1 (hum par rawH tf c)

/-- `COMPENSATE(rawP, rawT, rawH, CFG, CAL)` (R170): one tf for all three (R171). -/
def compensate (k : Nat) (par : Params) (rawP rawT : BitVec 20) (rawH : BitVec 16) (cfg : AcqCfg) (c : Cal) :
    F64 × Measurement :=
  (tempFine rawT c,
    { t := celsius (tempFine rawT c)
      p := pressOut k par rawP (tempFine rawT c) c
      h := if cfg.osrsH ≠ 0 then some (humOut k par rawH (tempFine rawT c) c) else none })

end Sys2Proof.Machine
end

