-- ==== Sys2Proof/Machine/Flags.lean ====
section
/-! DEFINITION. The flags of the sensor's status byte (R41, R94), the poll predicate (R194), and the STATUS
word (R96). The block has no condition codes (R41). -/

namespace Sys2Proof.Machine

/-- `measuring(s) = s[P_MEASURING_BIT]` (R41). -/
def measuring (par : Params) (st : Byte) : Bool := st.getLsbD par.measuringBit

/-- `newdata(s)` under the polarity `P_NEWDATA_POL` (R41). -/
def newdata (par : Params) (st : Byte) : Bool :=
  match par.newdataPol with
  | .high => st.getLsbD par.newdataBit
  | .low  => !st.getLsbD par.newdataBit

/-- `POLL_DONE(s)` (R194). -/
def pollDone (par : Params) (st : Byte) : Bool :=
  match par.pollExit with
  | .newdataAndNotMeasuring => newdata par st && !measuring par st
  | .newdataOnly            => newdata par st
  | .notMeasuring           => !measuring par st

/-- The code field of the STATUS word: `stat[23:16]` (R96). -/
def sErrCode : Option SErr → Byte
  | none   => 0
  | some x => codeByte x.code

/-- The detail a STATUS response reports (R95, R236). -/
def sErrTxn : Option SErr → Byte
  | none   => 0
  | some x => x.txn

/-- The STATUS word (R96). -/
def statWord (s : State) : Word :=
  0#8 ++ sErrCode s.sErr ++ 0#6 ++ BitVec.ofBool s.sErr.isSome ++ devModeBit s.devmode ++
    BitVec.ofBool s.mbox.isSome ++ BitVec.ofBool s.sActive ++ phaseBits s.sPhase ++
    seqBits s.seq ++ lifeBits s.life

end Sys2Proof.Machine
end

