-- ==== Sys2Proof/Machine/Ops.lean ====
section
/-! DEFINITION. The shared operations: responses (R95), the lock (R220, R221), the bus transaction and the
register transport (R110 to R120), and the abort, which is the block's trap entry (R266 to R268). The block
has no return from it (R270). -/

namespace Sys2Proof.Machine

/-- Response number k before an outcome fills in its fields: code, detail and aux are always given (R95);
every other field is a free value (I13). -/
def Resp.blank (k : Nat) (code : Code) : Resp where
  code   := code
  detail := 0
  aux    := 0
  t      := Config.freeField k 0
  p      := Config.freeField k 1
  h      := Config.freeField k 2
  hv     := Config.freeHV k
  tfine  := Config.freeField k 3
  stat   := Config.freeStat k
  buserr := Config.freeBusErr k
  dev    := Config.freeDev k

/-- The response that carries a Measurement (R97): `h` stays free when there is no humidity. -/
def Resp.measured (k : Nat) (m : Measurement) : Resp :=
  { Resp.blank k .ok with t := m.t, p := m.p, h := m.h.getD (Config.freeField k 2), hv := m.h.isSome }

/-- The response of a transport error (R95, R260): transaction id, bus error and device name. -/
def Resp.transport (k : Nat) (par : Params) (txn : Byte) (e : BusErr) : Resp :=
  { Resp.blank k .transportError with detail := txn, buserr := e, dev := par.deviceName }

/-- The response of UNSUPPORTED_DEVICE (R95, R182). -/
def Resp.unsupported (k : Nat) (read which : Byte) : Resp :=
  { Resp.blank k .unsupportedDevice with detail := read, aux := which }

/-- `respond(code, payload)` on the command port (R17): the response is placed and the command ends (R39). -/
def respond (f : Nat → Resp) (s : State) : State :=
  { s with
    resp    := f s.env.fresh
    cmdBusy := false
    hphase  := .entry
    env     := { s.env with fresh := s.env.fresh + 1 } }

/-- A response with a code and nothing else. -/
def respondCode (c : Code) (s : State) : State := respond (fun k => .blank k c) s

/-- `respond(code, payload)` on the consumer port (R88, R238). -/
def respondCons (f : Nat → Resp) (s : State) : State :=
  { s with
    cresp   := f s.env.fresh
    consReq := none
    env     := { s.env with fresh := s.env.fresh + 1 } }

/-- The answer to an illegal consumer word (R88): it changes no other state, so a TAKE that waits goes on
waiting. `rest` is what the consumer has yet to present. -/
def refuseCons (rest : List Byte) (s : State) : State :=
  { s with
    cresp := .blank s.env.fresh .illegalCommand
    env   := { s.env with consIn := rest, fresh := s.env.fresh + 1 } }

/-- `acquire(owner)` with the lock free (R220). A cycle starts with every cycle register unwritten (R30). -/
def acquire (o : Owner) (s : State) : State := { s with lock := o, cyc := .unwritten }

/-- `release(owner)` (R221): only the agent named in LOCK performs it, anything else is a fault. -/
def release (o : Owner) (s : State) (k : State → Out) : Out :=
  if s.lock = o then k { s with lock := .free } else .fault .releaseUnheld

/-- A place inside INIT. -/
def HostPhase.inInit : HostPhase → Bool
  | .initChip     => true
  | .initVariant  => true
  | .initCal1 _   => true
  | .initCal2 _ _ => true
  | _             => false

/-- Some agent may emit a transaction (R72): LOCK names one, or INIT is in progress, which needs no lock. -/
def mayEmit (s : State) : Bool := s.lock != .free || s.hphase.inInit

/-- An in-frame of exactly n bytes: the bytes the answer gives, and any values for those it leaves out. -/
def fitFrame (free : Nat → Byte) : Nat → List Byte → List Byte
  | 0, _          => []
  | n + 1, []     => free n :: fitFrame free n []
  | n + 1, b :: d => b :: fitFrame free n d

/-- The answer as the environment gives it: the next one waiting, or the oracle's (R66). -/
def rawAnswer (f : BusFrame) (s : State) : BusAnswer :=
  match s.env.busIn with
  | a :: _ => a
  | []     => Config.oracle s.env.hist f

/-- The answer to a transaction: all its bytes, or a bus error (R66, R115). -/
def answerOf (f : BusFrame) (s : State) : BusAnswer :=
  match rawAnswer f s with
  | .ok d  => .ok (fitFrame (Config.oracleByte s.env.hist f) f.inLen d)
  | .err e => .err e

/-- `raise TransportError(e)` (R266): the shared trap entry writes BUSERR and nothing else; its caller gets
the transaction id and e, and ends the command or the cycle. -/
def abortTransport (e : BusErr) (s : State) : State := { s with buserr := e }

/-- The history with a transaction and its answer; an answer that waited is used up (R66). -/
def recordTxn (f : BusFrame) (s : State) : State :=
  { s with env := { s.env with busIn := s.env.busIn.tail, hist := ⟨f, answerOf f s⟩ :: s.env.hist } }

/-- One transaction on the bus port (R10, R68, R111): emitted, answered and recorded in one step. `keep` is
what the framing keeps of the in-frame. An error raises R266. -/
def transact (f : BusFrame) (keep : List Byte → List Byte) (s : State) : XferResult × State :=
  match answerOf f s with
  | .ok d  => (.ok (keep d), recordTxn f s)
  | .err e => (.err e, abortTransport e (recordTxn f s))

/-- The frame of an I2C read (R113). -/
def i2cReadFrame (a : Byte) (n : Nat) : BusFrame := ⟨.i2c, i2cReadOut a, n⟩

/-- The frame of a SPI read (R114). -/
def spiReadFrame (fill : Byte) (a : BitVec 7) (n : Nat) : BusFrame := ⟨.spi, spiReadOut fill a n, n + 1⟩

/-- The frame of an I2C write (R117). -/
def i2cWriteFrame (ps : List (Byte × Byte)) : BusFrame := ⟨.i2c, i2cWriteOut ps, 0⟩

/-- The frame of a SPI write (R118). -/
def spiWriteFrame (ps : List (BitVec 7 × Byte)) : BusFrame := ⟨.spi, spiWriteOut ps, 0⟩

/-- I2C READ (R113): the n bytes in order. -/
def readI2c (a : Byte) (n : Nat) (s : State) : XferResult × State := transact (i2cReadFrame a n) id s

/-- SPI READ (R114): the dummy byte is discarded. -/
def readSpi (a : BitVec 7) (n : Nat) (s : State) : XferResult × State :=
  transact (spiReadFrame s.par.spiFill a n) (List.drop 1) s

/-- I2C WRITE (R117). -/
def writeI2c (ps : List (Byte × Byte)) (s : State) : XferResult × State := transact (i2cWriteFrame ps) id s

/-- SPI WRITE (R118). -/
def writeSpi (ps : List (BitVec 7 × Byte)) (s : State) : XferResult × State :=
  transact (spiWriteFrame ps) id s

/-- The frame of `MemRead(a, n)`: the framing is BUS (R112). -/
def memReadFrame (a : Byte) (n : Nat) (s : State) : BusFrame :=
  match s.bus with
  | .i2c => i2cReadFrame a n
  | .spi => spiReadFrame s.par.spiFill (a.setWidth 7) n

/-- The frame of `MemWrite(pairs)`: the framing is BUS (R116); SPI clears bit 7 of every address (R118). -/
def memWriteFrame (ps : List (Byte × Byte)) (s : State) : BusFrame :=
  match s.bus with
  | .i2c => i2cWriteFrame ps
  | .spi => spiWriteFrame (ps.map fun p => (p.1.setWidth 7, p.2))

/-- `MemRead(a, n)` (R112) for a read in range. -/
def memRead (a : Byte) (n : Nat) (s : State) : XferResult × State :=
  match s.bus with
  | .i2c => readI2c a n s
  | .spi => readSpi (a.setWidth 7) n s

/-- `MemWrite(pairs)` (R116). -/
def memWrite (ps : List (Byte × Byte)) (s : State) : XferResult × State :=
  match s.bus with
  | .i2c => writeI2c ps s
  | .spi => writeSpi (ps.map fun p => (p.1.setWidth 7, p.2)) s

/-- The abort inside INIT (R267): LIFE fails and the response names the failing read. -/
def abortInit (txn : Byte) (e : BusErr) (s : State) : State :=
  respond (fun k => .transport k s.par txn e) { s with life := .failed }

/-- The abort inside CYCLE (R268): back to S_SLEEP, the cycle registers discarded, DEVMODE kept. -/
def abortCycle (s : State) : State :=
  { s with seq := .sleep, pwait := false, cyc := .unwritten }

end Sys2Proof.Machine
end

