-- ==== Sys2Proof/Machine/BusFrames.lean ====
section
/-! DEFINITION. The bus transactions as instructions of their own (R110 to R120): the agent that LOCK names
(or INIT) emits one frame, and what the transport returns to it lands in `xfer`. Inside INIT and CYCLE the same
operations of Machine/Ops.lean run under those rules. -/

namespace Sys2Proof.Machine

/-- A transport operation on its own (R111): of the framing BUS names (R112, R116), by the agent that LOCK
names or by INIT (R72). -/
def busOp (kind : BusKind) (op : State → XferResult × State) (s : State) : Out :=
  if s.bus ≠ kind then .fault .wrongFraming
  else if mayEmit s = false then .fault .busWithoutLock
  else .next { (op s).2 with xfer := (op s).1 }

/-- BUS_RD_I2C (R113). -/
def execBusRdI2c (a : Byte) (n : Nat) (s : State) : Out :=
  if readInRange a.toNat n then busOp .i2c (readI2c a n) s else .fault .readOutOfRange

/-- BUS_RD_SPI (R114). -/
def execBusRdSpi (a : BitVec 7) (n : Nat) (s : State) : Out :=
  if readInRange a.toNat n then busOp .spi (readSpi a n) s else .fault .readOutOfRange

/-- BUS_WR_I2C (R117). -/
def execBusWrI2c (ps : List (Byte × Byte)) (s : State) : Out := busOp .i2c (writeI2c ps) s

/-- BUS_WR_SPI (R118). -/
def execBusWrSpi (ps : List (BitVec 7 × Byte)) (s : State) : Out := busOp .spi (writeSpi ps) s

end Sys2Proof.Machine
end

