-- ==== Sys2Proof/Machine/Comp.lean ====
section
/-! DEFINITION. COMP_T (R155), COMP_P (R163) and COMP_H (R168). -/

namespace Sys2Proof.Machine

/-- The response of COMP_T (R155). -/
def compTResp (tf : F64) (k : Nat) : Resp := { Resp.blank k .ok with t := celsius tf, tfine := tf }

/-- The response of COMP_P (R163). -/
def compPResp (p : F64) (k : Nat) : Resp := { Resp.blank k .ok with p := p }

/-- The response of COMP_H (R168): HV is 1 whatever CFG.osrs_h is. -/
def compHResp (h : F64) (k : Nat) : Resp := { Resp.blank k .ok with h := h, hv := true }

/-- COMP_T (R155). -/
def execCompT (raw : BitVec 20) (s : State) : Out :=
  if s.life ≠ .ready then .next (respondCode .notInitialized s)
  else .next (respond (compTResp (tempFine raw s.cal))
    { s with tfine := tempFine raw s.cal, tfineV := true })

/-- The checks COMP_P and COMP_H share, in R262's order (R163, R168). -/
def withTfine (s : State) (k : State → State) : Out :=
  if s.life ≠ .ready then .next (respondCode .notInitialized s)
  else if s.tfineV = false then .next (respondCode .tfineUnset s)
  else .next (k s)

/-- COMP_P (R163). -/
def execCompP (raw : BitVec 20) (s : State) : Out :=
  withTfine s fun s => respond (compPResp (pressOut s.env.fresh s.par raw s.tfine s.cal)) s

/-- COMP_H (R168). -/
def execCompH (raw : BitVec 16) (s : State) : Out :=
  withTfine s fun s => respond (compHResp (humOut s.env.fresh s.par raw s.tfine s.cal)) s

end Sys2Proof.Machine
end

