-- ==== Sys2Proof/Machine/Init.lean ====
section
/-! DEFINITION. INIT (R180 to R185). Each of its reads is one atomic step (R111). -/

namespace Sys2Proof.Machine

/-- A read of INIT (R180): its answer goes on to `k`, a bus error aborts INIT (R267). INIT needs no lock
(R72). -/
def initRead (txn a : Byte) (n : Nat) (s : State) (k : List Byte → State → State) : Out :=
  if readInRange a.toNat n then
    match memRead a n s with
    | (.ok d, s1)  => .next (k d s1)
    | (.err e, s1) => .next (abortInit txn e s1)
  else .fault .readOutOfRange

/-- INIT ends with LIFE = FAILED and a response (R181, R182). -/
def initFail (f : Nat → Resp) (s : State) : State := respond f { s with life := .failed }

/-- The chip-ID has been read (R182). -/
def initGotChip (d : List Byte) (s : State) : State :=
  if byteAt d 0 = s.par.chipId then { s with hphase := .initVariant }
  else initFail (fun k => .unsupported k (byteAt d 0) 0x01) s

/-- The variant-ID has been read (R182). -/
def initGotVariant (d : List Byte) (s : State) : State :=
  if byteAt d 0 ∈ s.par.variants then { s with hphase := .initCal1 (byteAt d 0) }
  else initFail (fun k => .unsupported k (byteAt d 0) 0x02) s

/-- Both windows have been read: the commit (R183). -/
def initCommit (cfg : AcqCfg) (var : Byte) (w1 w2 : List Byte) (s : State) : State :=
  respondCode .ok { s with cal := decodeCal w1 w2, cfg := cfg, variant := var, life := .ready }

/-- INIT's first step (R181, R185): the checks that need no transaction. -/
def initEntry (cfg : AcqCfg) (s : State) : State :=
  if s.life = .ready then respondCode .alreadyInitialized s
  else if cfgInvalid cfg then initFail (fun k => .blank k .invalidConfig) s
  else { s with hphase := .initChip }

/-- INIT (R180): one atomic step of its pseudocode, at the place `hphase` names. -/
def execInit (t p h f : BitVec 3) (s : State) : Out :=
  match s.hphase with
  | .initChip        => initRead txnChipId s.par.regChipId 1 s initGotChip
  | .initVariant     => initRead txnVariant s.par.regVariant 1 s initGotVariant
  | .initCal1 var    =>
    initRead txnCal1 s.par.regCal1 s.par.lenCal1 s fun w1 s1 => { s1 with hphase := .initCal2 var w1 }
  | .initCal2 var w1 =>
    initRead txnCal2 s.par.regCal2 s.par.lenCal2 s fun w2 s1 => initCommit (cfgOf t p h f) var w1 w2 s1
  | _                => .next (initEntry (cfgOf t p h f) s)

end Sys2Proof.Machine
end

