-- ==== Sys2Proof/Machine/Sequencer.lean ====
section
/-! DEFINITION. The measurement state machine (R189 to R199): one atomic step of `CYCLE(owner)` (R190). -/

namespace Sys2Proof.Machine

/-- What a step of a cycle comes to. -/
inductive CycleOut where
  /-- The cycle goes on. -/
  | run (s : State)
  /-- The cycle returns `Ok(m)` (R197). -/
  | done (m : Measurement) (s : State)
  /-- The cycle returns `Err(txn, e)` (R268). -/
  | abort (txn : Byte) (e : BusErr) (s : State)
  /-- A model fault (R264). -/
  | stop (f : Fault)
deriving DecidableEq, Repr

/-- Step T1: the trigger write (R191). -/
def cycleTrigger (s : State) : CycleOut :=
  match memWrite (triggerPairs s.par s.cfg) s with
  | (.ok _, s1)  => .run { s1 with devmode := .forced, seq := .triggered }
  | (.err e, s1) => .abort txnTrigger e (abortCycle s1)

/-- Step T2 (R192). -/
def cycleBeginPoll (s : State) : CycleOut := .run { s with seq := .polling, pwait := false }

/-- The state after a status byte is latched (R193 to R195). -/
def polled (st : Byte) (s : State) : State :=
  if pollDone s.par st then
    { s with cyc := { s.cyc with status := some st }, seq := .dataReady }
  else
    { s with cyc := { s.cyc with status := some st }, pwait := true, timer := some s.par.pollDelayMs }

/-- Step T3: one poll (R193 to R195). -/
def cyclePoll (s : State) : CycleOut :=
  if readInRange s.par.regStatus.toNat 1 then
    match memRead s.par.regStatus 1 s with
    | (.ok d, s1)  => .run (polled (byteAt d 0) s1)
    | (.err e, s1) => .abort txnStatus e (abortCycle s1)
  else .stop .readOutOfRange

/-- Step T4: the timer ends the inter-poll delay (R190, R194). -/
def endPollDelay (s : State) : State := { s with pwait := false, timer := none }

/-- `COMPENSATE` on a data block, with the configuration and the coefficients of the block (R196). -/
def measure (d : List Byte) (s : State) : F64 × Measurement :=
  compensate s.env.fresh s.par (rawPOf d) (rawTOf d) (rawHOf d) s.cfg s.cal

/-- The cycle registers that step T5 writes (R190, R196); C_STATUS stays. -/
def measuredRegs (d : List Byte) (s : State) : CycleRegs where
  status := s.cyc.status
  rawP   := some (rawPOf d)
  rawT   := some (rawTOf d)
  rawH   := some (rawHOf d)
  tfine  := some (measure d s).1
  ct     := some (measure d s).2.t
  cp     := some (measure d s).2.p
  ch     := some (measure d s).2.h

/-- The state after the data block is read (R195 to R197). -/
def measured (d : List Byte) (s : State) : State :=
  { s with
    devmode := .sleep
    cyc     := measuredRegs d s
    seq     := .sleep
    env     := { s.env with fresh := s.env.fresh + 1 } }

/-- Step T5: the data block read and the compensation (R195 to R197). -/
def cycleData (s : State) : CycleOut :=
  if readInRange s.par.regData.toNat s.par.lenData then
    match memRead s.par.regData s.par.lenData s with
    | (.ok d, s1)  => .done (measure d s1).2 (measured d s1)
    | (.err e, s1) => .abort txnData e (abortCycle s1)
  else .stop .readOutOfRange

/-- One step of `CYCLE(owner)` (R190). The agent must hold LOCK (R72); during the inter-poll delay it has no
step of its own (R194). -/
def cycleStep (o : Owner) (s : State) : CycleOut :=
  if s.lock ≠ o then .stop .busWithoutLock
  else match s.seq with
    | .sleep     => cycleTrigger s
    | .triggered => cycleBeginPoll s
    | .polling   => if s.pwait then .run s else cyclePoll s
    | .dataReady => cycleData s

end Sys2Proof.Machine
end

