-- ==== Sys2Proof/Machine/Sampler.lean ====
section
/-! DEFINITION. The sampler agent (R222 to R229): its steps M0 to W2, and the launch of a run (R230). -/

namespace Sys2Proof.Machine

/-- `TERMINATE(err)` (R228). -/
def terminate (err : Option SErr) (s : State) : State :=
  { s with
    sActive  := false
    sPhase   := .idle
    sCancel  := false
    sPending := none
    sErr     := if err.isSome then err else s.sErr }

/-- The end of a run in WAITING (R229, W1): the interval delay is no longer awaited. -/
def terminateWaiting (s : State) : State := { terminate none s with timer := none }

/-- The launch of a run (R230): S_ERR to S_ACTIVE in one step. -/
def launch (interval : BitVec 24) (s : State) : State :=
  { s with
    sErr      := none
    sInterval := interval
    sCancel   := false
    sPending  := none
    sPhase    := .measuring
    sActive   := true }

/-- Step M2 on `Ok(m)` (R224). -/
def handOver (m : Measurement) (s : State) : State :=
  { s with sPending := some m, sPhase := .publishing }

/-- Step P1 (R225): the interval delay starts here. -/
def publish (s : State) : State :=
  { s with mbox := s.sPending, sPending := none, sPhase := .waiting, timer := some s.sInterval.toNat }

/-- Step W2 (R229): the interval has ended. -/
def nextCycle (s : State) : State := { s with sPhase := .measuring, timer := none }

/-- The sampler's part of a cycle, with M2 in the cycle's last step (R224, R268). -/
def samplerCycle (s : State) : Out :=
  match cycleStep .sampler s with
  | .run s1       => .next s1
  | .done m s1    => release .sampler s1 fun s2 => .next (handOver m s2)
  | .abort t e s1 => release .sampler s1 fun s2 => .next (terminate (some ⟨.transportError, t, e⟩) s2)
  | .stop f       => .fault f

/-- MEASURING (R224): the cycle in progress, else M0 before M1 (R273 b). -/
def samplerMeasuring (s : State) : Out :=
  if s.lock = .sampler then samplerCycle s
  else if s.sCancel then .next (terminate none s)
  else if s.lock = .free then .next (acquire .sampler s)
  else .next s

/-- PUBLISHING (R225, R226): `abandon` chooses where P1 and P2 are both enabled. -/
def samplerPublishing (abandon : Bool) (s : State) : State :=
  if s.mbox.isNone && !(s.sCancel && abandon) then publish s
  else if s.sCancel then terminate none s
  else s

/-- One step of the sampler (R223). In IDLE, and in WAITING without a stop request, it has none. -/
def samplerStep (abandon : Bool) (s : State) : Out :=
  match s.sPhase with
  | .idle       => .next s
  | .measuring  => samplerMeasuring s
  | .publishing => .next (samplerPublishing abandon s)
  | .waiting    => if s.sCancel then .next (terminateWaiting s) else .next s

/-- The timer ends the inter-poll delay: step T4 where it is enabled (R190). -/
def pollTimerStep (s : State) : State :=
  if s.seq = .polling ∧ s.pwait = true then endPollDelay s else s

/-- The timer ends the interval: step W2 where it is enabled (R229: a stop request disables it). -/
def intervalTimerStep (s : State) : State :=
  if s.sPhase = .waiting ∧ s.sCancel = false then nextCycle s else s

end Sys2Proof.Machine
end

