-- ==== Sys2Proof/Machine/Sampling.lean ====
section
/-! DEFINITION. START, STOP, STATUS (R230 to R237) and TAKE (R238). -/

namespace Sys2Proof.Machine

/-- START launches its run (R230). That the response falls in the launch's step is log 25's reading: R230's pseudocode
marks the lines of the launch as one step, and its text answers as soon as the run is launched. -/
def startLaunch (interval : BitVec 24) (s : State) : State := respondCode .ok (launch interval s)

/-- START's first step (R230, R231). DESIGN CHOICE (log 25): the tests of LIFE and S_ACTIVE and the write
S_CANCEL <- 1 are one atomic step, as the launch is where no run is active; R230's pseudocode marks only the
lines of the launch as one step, and here no run can end between the test and the write. -/
def startEntry (interval : BitVec 24) (s : State) : State :=
  if s.life ≠ .ready then respondCode .notInitialized s
  else if s.sActive then { s with sCancel := true, hphase := .startWait }
  else startLaunch interval s

/-- START (R230): one atomic step; while the old run has not terminated it waits (R231). -/
def execStart (interval : BitVec 24) (s : State) : Out :=
  match s.hphase with
  | .startWait => .next (if s.sActive then s else startLaunch interval s)
  | _          => .next (startEntry interval s)

/-- STOP's first step (R233, R234). DESIGN CHOICE (log 25): the test of S_ACTIVE and the write S_CANCEL <- 1 are
one atomic step; R233's pseudocode does not say so, and here no run can end between them. -/
def stopEntry (s : State) : State :=
  if s.sActive then { s with sCancel := true, hphase := .stopWait } else respondCode .ok s

/-- STOP (R233): one atomic step; it responds once the run has terminated. -/
def execStop (s : State) : Out :=
  match s.hphase with
  | .stopWait => .next (if s.sActive then s else respondCode .ok s)
  | _         => .next (stopEntry s)

/-- The response of STATUS (R236, R95). -/
def statusResp (s : State) (k : Nat) : Resp :=
  { Resp.blank k .ok with stat := statWord s, detail := sErrTxn s.sErr, aux := s.variant }

/-- STATUS (R236). -/
def execStatus (s : State) : Out := .next (respond (statusResp s) s)

/-- The response of TAKE on an empty mailbox with no run active (R238 case c). -/
def takeEnded (s : State) (k : Nat) : Resp :=
  match s.sErr with
  | some x => { Resp.blank k x.code with detail := x.txn, buserr := x.e, dev := s.par.deviceName }
  | none   => .blank k .cancelled

/-- TAKE (R238): cases (a), (b) and (c). In case (b) it waits. -/
def execTake (s : State) : Out :=
  match s.mbox with
  | some m => .next (respondCons (fun k => .measured k m) { s with mbox := none })
  | none   => if s.sActive then .next s else .next (respondCons (takeEnded s) s)

end Sys2Proof.Machine
end

