-- ==== Sys2Proof/Machine/Sense.lean ====
section
/-! DEFINITION. SENSE (R186 to R188). -/

namespace Sys2Proof.Machine

/-- SENSE's first step (R186 to R188): the checks and the acquisition, as one step. R186 marks the test
of S_ACTIVE and the acquisition as one; that the test of LIFE falls in it too is log 11's reading. -/
def senseEntry (s : State) : State :=
  if s.life ≠ .ready then respondCode .notInitialized s
  else if s.sActive then respondCode .alreadySampling s
  else if s.lock = .free then { acquire .host s with hphase := .senseCycle }
  else s

/-- SENSE's cycle (R186): the release and the response fall in the cycle's last step. R268 says so of the release
after an abort; for the rest it is log 13's reading. -/
def senseCycle (s : State) : Out :=
  match cycleStep .host s with
  | .run s1       => .next s1
  | .done m s1    => release .host s1 fun s2 => .next (respond (fun k => .measured k m) s2)
  | .abort t e s1 => release .host s1 fun s2 => .next (respond (fun k => .transport k s2.par t e) s2)
  | .stop f       => .fault f

/-- SENSE (R186): one atomic step of its pseudocode. -/
def execSense (s : State) : Out :=
  match s.hphase with
  | .senseCycle => senseCycle s
  | _           => .next (senseEntry s)

end Sys2Proof.Machine
end

