-- ==== Sys2Proof/Machine/Dispatch.lean ====
section
/-! DEFINITION. The meaning of every instruction: one atomic step of the command, request or transaction. -/

namespace Sys2Proof.Machine

def exec (i : Instr) (s : State) : Host.Outcome State Fault Refusal :=
  match i with
  | .init t p h f => Sys2Proof.Machine.execInit t p h f s
  | .sense => Sys2Proof.Machine.execSense s
  | .start interval => Sys2Proof.Machine.execStart interval s
  | .stop => Sys2Proof.Machine.execStop s
  | .status => Sys2Proof.Machine.execStatus s
  | .compT raw => Sys2Proof.Machine.execCompT raw s
  | .compP raw => Sys2Proof.Machine.execCompP raw s
  | .compH raw => Sys2Proof.Machine.execCompH raw s
  | .take => Sys2Proof.Machine.execTake s
  | .busRdI2c a n => Sys2Proof.Machine.execBusRdI2c a n s
  | .busRdSpi a n => Sys2Proof.Machine.execBusRdSpi a n s
  | .busWrI2c ps => Sys2Proof.Machine.execBusWrI2c ps s
  | .busWrSpi ps => Sys2Proof.Machine.execBusWrSpi ps s

end Sys2Proof.Machine
end

