-- ==== Sys2Proof/Machine/Schedule.lean ====
section
/-! DEFINITION. The scheduler (R9, R73): which agent takes the next step. It is weakly fair (R311, I20) by its
form: choices that stand in State, then free choices with a turn of each agent in between again and again, after
free numbers of steps (log 5). -/

namespace Sys2Proof

/-- Whose step a choice of the scheduler is. -/
def Event.agent : Event → Agent
  | .host          => .host
  | .sampler _     => .sampler
  | .consumer      => .consumer
  | .pollTimer     => .pollTimer
  | .intervalTimer => .intervalTimer
  | .busPort       => .busPort

namespace Machine

/-- The agent whose turn has number n. -/
def turnOf (n : Nat) : Agent :=
  match n % 6 with
  | 0 => .host
  | 1 => .sampler
  | 2 => .consumer
  | 3 => .pollTimer
  | 4 => .intervalTimer
  | _ => .busPort

/-- A step of the agent; `abandon` is the sampler's choice between P1 and P2 (R226). -/
def Agent.event (abandon : Bool) : Agent → Event
  | .host          => .host
  | .sampler       => .sampler abandon
  | .consumer      => .consumer
  | .pollTimer     => .pollTimer
  | .intervalTimer => .intervalTimer
  | .busPort       => .busPort

/-- The next step is an agent's turn: no choice is left in `sched`, and the free choices before it are over. -/
def Env.atTurn (e : Env) : Bool := e.sched.isEmpty && e.patience == 0

/-- The scheduler's next choice (R73): the next one of `sched`, an agent's turn, or a free value. -/
def nextEvent (s : State) : Event :=
  match s.env.sched with
  | ev :: _ => ev
  | []      =>
    if s.env.atTurn then Agent.event (Config.abandon s.env.tick) (turnOf s.env.turn)
    else Config.schedule s.env.tick

/-- The scheduler's fields after a choice; a turn starts the next free number of free choices. -/
def Env.advance (e : Env) : Env :=
  { e with
    sched    := e.sched.tail
    tick     := e.tick + 1
    turn     := if e.atTurn then e.turn + 1 else e.turn
    patience := if e.atTurn then Config.patience e.turn else e.patience - 1 }

/-- One more step has been taken. -/
def advance (s : State) : State := { s with env := s.env.advance }

end Machine

end Sys2Proof
end

