-- ==== Sys2Proof/Machine/Ports.lean ====
section
/-! DEFINITION. The ports: how a command word, a consumer word or a frame comes to an agent (R10, R39, R88),
and how an instruction is placed where the next step takes it. -/

namespace Sys2Proof.Machine

/-- The command port accepts a word (R39). -/
def acceptCmd (w : Word) (rest : List Word) (s : State) : State :=
  { s with cmdBusy := true, cmd := w, hphase := .entry, env := { s.env with cmdIn := rest } }

/-- The consumer port takes a request word (R88). -/
def acceptCons (b : Byte) (rest : List Byte) (s : State) : State :=
  { s with consReq := some b, env := { s.env with consIn := rest } }

/-- The transport takes a frame that stands on its own. -/
def acceptFrame (rest : List BusFrame) (s : State) : State :=
  { s with env := { s.env with frameIn := rest } }

/-- A packet put where the next step takes it, and that step given to its agent. A command word needs the
command port free (R39), a consumer word the consumer port free, and a frame needs its framing (R25) and an
agent that holds LOCK (R72). -/
def placePacket (p : Packet) (s : State) : State :=
  match p with
  | .cmd w  =>
    { s with
      cmdBusy := false
      hphase  := .entry
      env     := { s.env with sched := .host :: s.env.sched, cmdIn := w :: s.env.cmdIn } }
  | .cons b =>
    { s with
      consReq := none
      env     := { s.env with sched := .consumer :: s.env.sched, consIn := b :: s.env.consIn } }
  | .bus f  =>
    { s with
      bus  := f.kind
      lock := if s.lock = .free then .host else s.lock
      env  := { s.env with sched := .busPort :: s.env.sched, frameIn := f :: s.env.frameIn } }

end Sys2Proof.Machine
end

