-- ==== Sys2Proof/Machine/Step.lean ====
section
/-! DEFINITION. One step of the machine: the scheduler chooses an agent (R73), and the agent takes one atomic
step. An agent with no enabled step leaves the block as it is. -/

namespace Sys2Proof.Machine

/-- The host agent with an accepted word: one step of its command, or ILLEGAL_COMMAND at once (R82). -/
def hostRun (s : State) : Out :=
  match decodeCmd s.cmd with
  | .ok i    => exec i s
  | .error _ => .next (respondCode .illegalCommand s)

/-- The host agent: the command in progress, or the acceptance of the next word (R39). -/
def hostStep (s : State) : Out :=
  if s.cmdBusy then hostRun s
  else match s.env.cmdIn with
    | []        => .next s
    | w :: rest => hostRun (acceptCmd w rest s)

/-- The consumer port with a request it has taken (R88, R238). -/
def consumerRun (b : Byte) (s : State) : Out :=
  match decodeCons b with
  | .ok i    => exec i s
  | .error _ => .next (respondCons (fun k => .blank k .illegalCommand) s)

/-- The consumer: an illegal word is answered at once (R88), also while a TAKE waits; else the request that
waits has its next try, and with none the next word is taken. -/
def consumerStep (s : State) : Out :=
  match s.env.consIn, s.consReq with
  | [],        none   => .next s
  | [],        some r => consumerRun r s
  | b :: rest, req    =>
    match decodeCons b, req with
    | .error _, _      => .next (refuseCons rest s)
    | .ok _,    none   => consumerRun b (acceptCons b rest s)
    | .ok _,    some r => consumerRun r s

/-- A transaction offered to the transport on its own (R110, R111). -/
def busStep (s : State) : Out :=
  match s.env.frameIn with
  | []        => .next s
  | f :: rest =>
    match decodeFrame s.par.spiFill f with
    | .ok i    => exec i (acceptFrame rest s)
    | .error e => .refused (.malformedFrame e)

/-- The step of the chosen agent. -/
def agentStep (ev : Event) (s : State) : Out :=
  match ev with
  | .host            => hostStep s
  | .sampler abandon => samplerStep abandon s
  | .consumer        => consumerStep s
  | .pollTimer       => .next (pollTimerStep s)
  | .intervalTimer   => .next (intervalTimerStep s)
  | .busPort         => busStep s

/-- One step of the machine. -/
def step (s : State) : Host.Outcome State Fault Refusal := agentStep (nextEvent s) (advance s)

/-- The state whose next step runs the instruction of an opcode-table word (assumption log 3, 4). -/
def State.withFetchWord (s : State) (nbits w : Nat) : State :=
  match tablePacket nbits w with
  | some p => placePacket p s
  | none   => s

end Sys2Proof.Machine
end

