-- ==== Sys2Proof/Safety.lean ====
section
/-! DEFINITION. What claims about runs are stated in: parameters whose reads are in range, the invariant of
the block, several steps of one command, infinite runs and their fairness, and the value of a binary64. -/

namespace Sys2Proof

/-- Every read the rules issue is within R61's bound. -/
def Params.readsInRange (p : Params) : Bool :=
  readInRange p.regChipId.toNat 1 && readInRange p.regVariant.toNat 1 &&
    readInRange p.regCal1.toNat p.lenCal1 && readInRange p.regCal2.toNat p.lenCal2 &&
    readInRange p.regStatus.toNat 1 && readInRange p.regData.toNat p.lenData

namespace Machine

/-- An INIT command. -/
def isInit : Instr → Bool
  | .init _ _ _ _ => true
  | _             => false

/-- A START command. -/
def isStart : Instr → Bool
  | .start _ => true
  | _        => false

/-- The command's pseudocode has the place. -/
def placeFits (p : HostPhase) (i : Instr) : Bool :=
  match p with
  | .entry        => true
  | .initChip     => isInit i
  | .initVariant  => isInit i
  | .initCal1 _   => isInit i
  | .initCal2 _ _ => isInit i
  | .senseCycle   => decide (i = .sense)
  | .startWait    => isStart i
  | .stopWait     => decide (i = .stop)

/-- A configuration INIT commits (R24): legal codes (R84) that R181 does not refuse. -/
def cfgOk (c : AcqCfg) : Bool :=
  osrsOk c.osrsT && osrsOk c.osrsP && osrsOk c.osrsH && !cfgInvalid c

/-- The invariant of the block: what holds in every state a run reaches, by the rules and, in the clauses that name a
log entry, by the model's choices. -/
structure Inv (s : State) : Prop where
  /-- `S_PHASE = IDLE` exactly when `S_ACTIVE = 0` (R34). -/
  idle_iff      : s.sPhase = .idle ↔ s.sActive = false
  /-- `SEQ` is S_SLEEP whenever no cycle runs (R22). -/
  sleep_of_free : s.lock = .free → s.seq = .sleep
  /-- PWAIT is a sub-state of S_POLLING (R22). -/
  polling_of_wait : s.pwait = true → s.seq = .polling
  /-- The sampler holds LOCK only in MEASURING (R224, R228). -/
  measuring_of_lock : s.lock = .sampler → s.sPhase = .measuring
  /-- The host holds LOCK exactly inside SENSE's cycle (R188), which is the place `senseCycle` (log 11) and ends with
  its last step (log 13). -/
  host_iff      : s.lock = .host ↔ s.hphase = .senseCycle
  /-- SENSE's cycle runs only while no sampler runs (R187, R188). -/
  inactive_of_sense : s.hphase = .senseCycle → s.sActive = false
  /-- LOCK is taken only on a READY block (R188, R224). -/
  ready_of_lock : s.lock ≠ .free → s.life = .ready
  /-- A block that is not READY has no sampler (R263). -/
  ready_of_active : s.sActive = true → s.life = .ready
  /-- A stop request is pending only for a run (R33, R228): no run ends between STOP's or START's test and its
  request (log 25). -/
  active_of_cancel : s.sCancel = true → s.sActive = true
  /-- A measurement is pending exactly while it is to be published (R36). -/
  pending_iff   : s.sPending.isSome = true ↔ s.sPhase = .publishing
  /-- TFINE holds a value only on a READY block (R155, R184). -/
  ready_of_tfine : s.tfineV = true → s.life = .ready
  /-- The configuration of a READY block (R24, R181). -/
  cfg_of_ready  : s.life = .ready → cfgOk s.cfg = true
  /-- INIT is in progress only on a block that is not READY (R185); its places are log 11's. -/
  unready_of_init : s.hphase.inInit = true → s.life ≠ .ready
  /-- START waits only on a READY block (R230, R263), at the place `startWait` (log 11). -/
  ready_of_start : s.hphase = .startWait → s.life = .ready
  /-- INIT is past its configuration check (R181, R295), and a command in progress is the accepted word's
  (log 11). -/
  place         : s.hphase ≠ .entry → s.cmdBusy = true ∧
    ∃ i, decodeCmd s.cmd = .ok i ∧ placeFits s.hphase i = true ∧
      ∀ t p h f, i = .init t p h f → cfgInvalid (cfgOf t p h f) = false
  /-- The data block is read only after a status byte that ends the polling (R195, R302). -/
  polled_of_data : s.seq = .dataReady →
    ∃ st, s.cyc.status = some st ∧ pollDone s.par st = true

/-- n atomic steps of one command, with no other agent between them. -/
def execSteps (i : Instr) : Nat → State → Out
  | 0, s     => .next s
  | n + 1, s =>
    match exec i s with
    | .next t    => execSteps i n t
    | .fault r   => .fault r
    | .refused r => .refused r

/-- A number of agent steps, in the order of the list: a piece of a run under one choice of the scheduler. -/
def agentSteps : List Event → State → Out
  | [], s      => .next s
  | ev :: r, s =>
    match agentStep ev s with
    | .next t    => agentSteps r t
    | .fault x   => .fault x
    | .refused x => .refused x

/-- An infinite run of the machine: no step of it stops. -/
def IsRun (r : Nat → State) : Prop := ∀ n, step (r n) = .next (r (n + 1))

/-- An agent has an enabled step: one of the scheduler's choices for it changes the block (R17, R311). -/
def enabled (g : Agent) (s : State) : Prop := ∃ ev : Event, ev.agent = g ∧ agentStep ev s ≠ .next s

/-- Weak fairness (R76, R311, I20): from no point on is an agent passed over that always has an enabled step. -/
def WeaklyFair (r : Nat → State) : Prop :=
  ∀ (g : Agent) (n : Nat), (∀ m, n ≤ m → enabled g (r m)) → ∃ m, n ≤ m ∧ (nextEvent (r m)).agent = g

/-- What a next state is put through. -/
def mapNext (g : State → State) : Out → Out
  | .next t    => .next (g t)
  | .fault r   => .fault r
  | .refused r => .refused r

/-- An in-frame that carries the bytes d under a framing: SPI has a dummy byte before them (R89, R90). -/
def inFrame (k : BusKind) (dummy : Byte) (d : List Byte) : List Byte :=
  match k with
  | .i2c => d
  | .spi => dummy :: d

/-- The command in progress is over (R39): response f, port free, place reset. -/
def ended (f : Resp) (s : State) : State :=
  { s with
    resp := f, cmdBusy := false, hphase := .entry, env := { s.env with fresh := s.env.fresh + 1 } }

/-- The value of a finite binary64 (R16). -/
def fVal (x : F64) : ℚ :=
  (if fSign x then -1 else 1) * (fMant x : ℚ) * (2 : ℚ) ^ ((fUlp x : ℤ) - 1075)

/-- The signed reading of an N-bit number (R15). -/
def sextNat (n v : Nat) : Int := if v ≥ 2 ^ (n - 1) then (v : Int) - 2 ^ n else (v : Int)

/-- The example calibration of R132. -/
def exampleCal : Cal :=
  ⟨26203, 26323, 3, 36477, -10433, 88, 7081, -104, 30, 39, -1491, -3148, 30, 775, 1010, 0, 45, 20, 120,
    -100, -30, -8012, 18⟩

end Machine

end Sys2Proof
end

