-- ==== Sys2Proof/Certificates/Slice0/Obligations.lean ====
section
/-! DEFINITION. The statements for the provers. -/

open Sys2Proof Sys2Proof.Machine

/-! ## Encodings (30_encoding.md) -/

/-- R80 to R91: no bit of an encoding is dropped. -/
def Obligations.DecodeOfEncodeIsIdentity : Prop :=
  ∀ (fill : Byte) (i : Instr), i.wf = true → decode fill (encode fill i) = .ok i

/-- R87: a packet stands for one instruction only, and the encoder gives that packet back. -/
def Obligations.EncodeOfDecodeIsIdentity : Prop :=
  ∀ (fill : Byte) (p : Packet) (i : Instr), decode fill p = .ok i → i.wf = true ∧ encode fill i = p

/-- R100, which the spec marks as derived: how every command word is assembled, and the rule's examples. -/
def Obligations.CommandWordsAssemble : Prop :=
  (∀ (fill : Byte) (t p h f : BitVec 3), encode fill (.init t p h f) = .cmd
    (((t.setWidth 32 ||| (p.setWidth 32 <<< 3) ||| (h.setWidth 32 <<< 6) ||| (f.setWidth 32 <<< 9)) <<< 8) |||
      0x01#32)) ∧
  (∀ fill, encode fill .sense = .cmd 0x02#32 ∧ encode fill .stop = .cmd 0x04#32 ∧
    encode fill .status = .cmd 0x05#32) ∧
  (∀ (fill : Byte) (ms : BitVec 24), encode fill (.start ms) = .cmd ((ms.setWidth 32 <<< 8) ||| 0x03#32)) ∧
  (∀ (fill : Byte) (r : BitVec 20), encode fill (.compT r) = .cmd ((r.setWidth 32 <<< 8) ||| 0x10#32) ∧
    encode fill (.compP r) = .cmd ((r.setWidth 32 <<< 8) ||| 0x11#32)) ∧
  (∀ (fill : Byte) (r : BitVec 16), encode fill (.compH r) = .cmd ((r.setWidth 32 <<< 8) ||| 0x12#32)) ∧
  decodeCmd 0x0004DB01 = .ok (.init 3 3 3 2) ∧ decodeCmd 0x0003E803 = .ok (.start 1000) ∧
  decodeCmd 0x079CF010 = .ok (.compT 498928) ∧ decodeCmd 0x05573011 = .ok (.compP 350000) ∧
  decodeCmd 0x0055F012 = .ok (.compH 22000) ∧ decodeCmd 0x00000002 = .ok .sense ∧
  decodeCmd 0x00000004 = .ok .stop ∧ decodeCmd 0x00000005 = .ok .status

/-- Words written out from the encodings of 30_encoding.md decode to what they stand for. -/
def Obligations.SpecWordsDecode : Prop :=
  decode 0x00 (.cmd 0x00002901) = .ok (.init 1 5 0 0) ∧
  decode 0x00 (.cmd 0x00000601) = .error .reservedOversampling ∧
  decode 0x00 (.cmd 0x00000102) = .error .mustBeZero ∧
  decode 0x00 (.cmd 0x10000010) = .error .mustBeZero ∧
  decode 0x00 (.cmd 0x00000006) = .error .unknownOpcode ∧
  decode 0x00 (.cons 0x01) = .ok .take ∧
  decode 0x00 (.bus ⟨.i2c, [0x1F], 8⟩) = .ok (.busRdI2c 0x1F 8) ∧
  decode 0x00 (.bus ⟨.spi, [0x9D, 0x00], 2⟩) = .ok (.busRdSpi 0x1D 1) ∧
  decode 0x00 (.bus ⟨.i2c, [0xF4, 0x01], 0⟩) = .ok (.busWrI2c [(0xF4, 0x01)]) ∧
  decode 0x00 (.bus ⟨.spi, [0x74, 0x35], 0⟩) = .ok (.busWrSpi [(0x74, 0x35)])

/-- R82: when a command word is illegal, and what it does then: RESP and CMD_BUSY, and the model's own
latch of the word and count of responses. That one step of the host accepts the word and answers it is the
model's reading (log 12), and the unlisted response fields are free values (log 8). -/
def Obligations.IllegalCommandWords : Prop :=
  (∀ w : Word, (∃ e, decodeCmd w = .error e) ↔
    (w.toNat % 256 ∉ [0x01, 0x02, 0x03, 0x04, 0x05, 0x10, 0x11, 0x12] ∨
     (w.toNat % 256 = 0x01 ∧ w.toNat / 2 ^ 20 ≠ 0) ∨
     (w.toNat % 256 ∈ [0x02, 0x04, 0x05] ∧ w.toNat / 2 ^ 8 ≠ 0) ∨
     (w.toNat % 256 ∈ [0x10, 0x11] ∧ w.toNat / 2 ^ 28 ≠ 0) ∨
     (w.toNat % 256 = 0x12 ∧ w.toNat / 2 ^ 24 ≠ 0) ∨
     (w.toNat % 256 = 0x01 ∧ (w.toNat / 2 ^ 8 % 8 ≥ 6 ∨ w.toNat / 2 ^ 11 % 8 ≥ 6 ∨
       w.toNat / 2 ^ 14 % 8 ≥ 6)))) ∧
  (∀ (s : State) (w : Word) (rest : List Word) (e : DecodeError), s.cmdBusy = false →
    s.env.cmdIn = w :: rest → decodeCmd w = .error e →
    agentStep .host s = .next { s with
      resp := Resp.blank s.env.fresh .illegalCommand, cmdBusy := false, hphase := .entry, cmd := w,
      env := { s.env with cmdIn := rest, fresh := s.env.fresh + 1 } })

/-- R88: the consumer port takes 0x01 only; any other word is answered at once, also while a TAKE waits, and
changes no other state. The consumer's response register and the request that waits are the model's (log 16), that
one step takes the word and answers it is its reading (log 12), and the unlisted response fields are free values
(log 8). -/
def Obligations.ConsumerWords : Prop :=
  (∀ b : Byte, decodeCons b = .ok .take ↔ b = 0x01#8) ∧
  (∀ (s : State) (b : Byte) (rest : List Byte), s.env.consIn = b :: rest → b ≠ 0x01#8 →
    agentStep .consumer s = .next { s with
      cresp := Resp.blank s.env.fresh .illegalCommand,
      env := { s.env with consIn := rest, fresh := s.env.fresh + 1 } })

/-! ## The step -/

/-- A step runs the instruction that its port's word or frame decodes to. The ports' inputs and the scheduler are
the model's form of R9, R10 and R73 (log 5, 12, 16, 17). -/
def Obligations.StepRunsTheDecodedInstruction : Prop :=
  (∀ (s : State) (w : Word) (rest : List Word) (i : Instr), nextEvent s = .host → s.cmdBusy = false →
    s.env.cmdIn = w :: rest → decodeCmd w = .ok i → step s = exec i (acceptCmd w rest (advance s))) ∧
  (∀ (s : State) (i : Instr), nextEvent s = .host → s.cmdBusy = true → decodeCmd s.cmd = .ok i →
    step s = exec i (advance s)) ∧
  (∀ (s : State) (b : Byte) (rest : List Byte) (i : Instr), nextEvent s = .consumer → s.consReq = none →
    s.env.consIn = b :: rest → decodeCons b = .ok i → step s = exec i (acceptCons b rest (advance s))) ∧
  (∀ (s : State) (b : Byte) (i : Instr), nextEvent s = .consumer → s.consReq = some b →
    (∀ w rest, s.env.consIn = w :: rest → w = 0x01#8) →
    decodeCons b = .ok i → step s = exec i (advance s)) ∧
  (∀ (s : State) (f : BusFrame) (rest : List BusFrame) (i : Instr), nextEvent s = .busPort →
    s.env.frameIn = f :: rest → decodeFrame s.par.spiFill f = .ok i →
    step s = exec i (acceptFrame rest (advance s)))

/-- An encoded instruction put at its port is what the very next step runs, and it runs on the state as it was but
for what its port needs: the accepted word, the request, or the framing and an owner of LOCK. How it is put there is
the model's choice (log 4), and so are the fields of the scheduler (log 5). -/
def Obligations.PlacedInstructionRunsNext : Prop :=
  ∀ (s : State) (i : Instr), i.wf = true →
    let env := { s.env with tick := s.env.tick + 1, patience := s.env.patience - 1 }
    step (placePacket (encode s.par.spiFill i) s) =
      match encode s.par.spiFill i with
      | .cmd w  => exec i { s with cmdBusy := true, cmd := w, hphase := .entry, env := env }
      | .cons b => exec i { s with consReq := some b, env := env }
      | .bus f  => exec i { s with
          bus := f.kind, lock := if s.lock = .free then .host else s.lock, env := env }

/-! ## Flags and register bytes -/

/-- R94: bit 5, bit 7 under the polarity, and no other bit of the status byte counts. -/
def Obligations.StatusByteFlags : Prop :=
  ∀ (par : Params), par.measuringBit = 5 → par.newdataBit = 7 → ∀ st : Byte,
    measuring par st = decide (st.toNat / 32 % 2 = 1) ∧
    (par.newdataPol = .high → newdata par st = decide (st.toNat / 128 = 1)) ∧
    (par.newdataPol = .low → newdata par st = decide (st.toNat / 128 = 0)) ∧
    ∀ st' : Byte, st.toNat / 32 % 2 = st'.toNat / 32 % 2 → st.toNat / 128 = st'.toNat / 128 →
      pollDone par st = pollDone par st'

/-- R92, R93: the bytes of the trigger write, as numbers, and the order of R191's pairs. -/
def Obligations.TriggerPairBytes : Prop :=
  ∀ (par : Params) (c : AcqCfg),
    triggerPairs par c =
      (if par.sleepFirst then
        [(par.regCtrlMeas, BitVec.ofNat 8 (c.osrsT.toNat * 32 + c.osrsP.toNat * 4))] else []) ++
      [(par.regCtrlHum, BitVec.ofNat 8 c.osrsH.toNat),
       (par.regConfig, BitVec.ofNat 8 (c.filter.toNat * 4)),
       (par.regCtrlMeas, BitVec.ofNat 8 (c.osrsT.toNat * 32 + c.osrsP.toNat * 4 + 1))]

/-- R96: every field of the STATUS word. -/
def Obligations.StatusWordFields : Prop :=
  ∀ s : State,
    (statWord s).toNat % 4 = (match s.life with | .uninit => 0 | .ready => 1 | .failed => 2) ∧
    (statWord s).toNat / 2 ^ 2 % 4 =
      (match s.seq with | .sleep => 0 | .triggered => 1 | .polling => 2 | .dataReady => 3) ∧
    (statWord s).toNat / 2 ^ 4 % 4 =
      (match s.sPhase with | .idle => 0 | .measuring => 1 | .publishing => 2 | .waiting => 3) ∧
    (statWord s).toNat / 2 ^ 6 % 2 = (if s.sActive then 1 else 0) ∧
    (statWord s).toNat / 2 ^ 7 % 2 = (if s.mbox.isSome then 1 else 0) ∧
    (statWord s).toNat / 2 ^ 8 % 2 = (match s.devmode with | .sleep => 0 | .forced => 1) ∧
    (statWord s).toNat / 2 ^ 9 % 2 = (if s.sErr.isSome then 1 else 0) ∧
    (statWord s).toNat / 2 ^ 10 % 2 ^ 6 = 0 ∧
    (statWord s).toNat / 2 ^ 16 % 2 ^ 8 =
      (match s.sErr with | none => 0 | some x => (codeByte x.code).toNat) ∧
    (statWord s).toNat / 2 ^ 24 = 0

/-- R260: the code of every outcome as the table numbers it, no two outcomes share one, and none is of the
reserved range. -/
def Obligations.ResponseCodesAreDistinct : Prop :=
  (codeByte .ok = 0x00 ∧ codeByte .transportError = 0x01 ∧ codeByte .unsupportedDevice = 0x02 ∧
    codeByte .alreadySampling = 0x03 ∧ codeByte .cancelled = 0x04 ∧ codeByte .illegalCommand = 0x05 ∧
    codeByte .notInitialized = 0x06 ∧ codeByte .invalidConfig = 0x07 ∧
    codeByte .alreadyInitialized = 0x08 ∧ codeByte .tfineUnset = 0x09) ∧
  (∀ c : Code, (codeByte c).toNat ≤ 0x09) ∧ ∀ c c' : Code, codeByte c = codeByte c' → c = c'

/-! ## Calibration and raw samples (41_calibration.md) -/

/-- R132: every coefficient as a number, the two corner cases and the rule's example. -/
def Obligations.DecodeCalFormulas : Prop :=
  (∀ w1 w2 : List Byte,
    let a := fun i => (byteAt w1 i).toNat
    let b := fun i => (byteAt w2 i).toNat
    let c := decodeCal w1 w2
    c.t2.toInt = sextNat 16 (a 0 + 256 * a 1) ∧ c.t3.toInt = sextNat 8 (a 2) ∧
    c.p1.toNat = a 4 + 256 * a 5 ∧ c.p2.toInt = sextNat 16 (a 6 + 256 * a 7) ∧
    c.p3.toInt = sextNat 8 (a 8) ∧ c.p4.toInt = sextNat 16 (a 10 + 256 * a 11) ∧
    c.p5.toInt = sextNat 16 (a 12 + 256 * a 13) ∧ c.p7.toInt = sextNat 8 (a 14) ∧
    c.p6.toInt = sextNat 8 (a 15) ∧ c.p8.toInt = sextNat 16 (a 18 + 256 * a 19) ∧
    c.p9.toInt = sextNat 16 (a 20 + 256 * a 21) ∧ c.p10.toNat = a 22 ∧
    c.h2.toNat = 16 * b 0 + b 1 / 16 ∧ c.h1.toNat = 16 * b 2 + b 1 % 16 ∧
    c.h3.toInt = sextNat 8 (b 3) ∧ c.h4.toInt = sextNat 8 (b 4) ∧ c.h5.toInt = sextNat 8 (b 5) ∧
    c.h6.toNat = b 6 ∧ c.h7.toInt = sextNat 8 (b 7) ∧ c.t1.toNat = b 8 + 256 * b 9 ∧
    c.gh2.toInt = sextNat 16 (b 10 + 256 * b 11) ∧ c.gh1.toInt = sextNat 8 (b 12) ∧
    c.gh3.toInt = sextNat 8 (b 13)) ∧
  decodeCal (List.replicate 23 0x00) (List.replicate 14 0x00) = calZero ∧
  decodeCal (List.replicate 23 0xFF) (List.replicate 14 0xFF) =
    ⟨65535, -1, -1, 65535, -1, -1, -1, -1, -1, -1, -1, -1, 255, 4095, 4095, -1, -1, -1, 255, -1, -1, -1, -1⟩ ∧
  decodeCal
      [0xD3, 0x66, 0x03, 0x00, 0x7D, 0x8E, 0x3F, 0xD7, 0x58, 0x00, 0xA9, 0x1B, 0x98, 0xFF, 0x27, 0x1E, 0x00,
        0x00, 0x2D, 0xFA, 0xB4, 0xF3, 0x1E]
      [0x3F, 0x27, 0x30, 0x00, 0x2D, 0x14, 0x78, 0x9C, 0x5B, 0x66, 0xB4, 0xE0, 0xE2, 0x12] =
    ⟨26203, 26323, 3, 36477, -10433, 88, 7081, -104, 30, 39, -1491, -3148, 30, 775, 1010, 0, 45, 20, 120,
      -100, -30, -8012, 18⟩

/-- R138: every value of CAL is reachable from some pair of windows, and the unused bytes of R133 change
nothing. -/
def Obligations.CalibrationReachesEveryValue : Prop :=
  (∀ c : Cal, ∃ w1 w2 : List Byte, w1.length = 23 ∧ w2.length = 14 ∧ decodeCal w1 w2 = c) ∧
  ∀ w1 w1' w2 : List Byte,
    (∀ i, i < 23 → i ∉ [3, 9, 16, 17] → byteAt w1 i = byteAt w1' i) →
    decodeCal w1 w2 = decodeCal w1' w2

/-- R140, R141, R142: the three raw values as numbers, and R142's examples. -/
def Obligations.RawSampleAssembly : Prop :=
  (∀ d : List Byte,
    let b := fun i => (byteAt d i).toNat
    (rawPOf d).toNat = 4096 * b 0 + 16 * b 1 + b 2 / 16 ∧
    (rawTOf d).toNat = 4096 * b 3 + 16 * b 4 + b 5 / 16 ∧
    (rawHOf d).toNat = 256 * b 6 + b 7) ∧
  (∀ d : List Byte, d = [0x50, 0x00, 0x00, 0x79, 0xCF, 0x00, 0x58, 0x00] →
    rawPOf d = 0x50000 ∧ rawTOf d = 0x79CF0 ∧ rawHOf d = 0x5800) ∧
  (∀ d : List Byte, d = [0x12, 0x34, 0x5F, 0xAB, 0xCD, 0xE0, 0x9A, 0xBC] →
    rawPOf d = 0x12345 ∧ rawTOf d = 0xABCDE ∧ rawHOf d = 0x9ABC) ∧
  (∀ d : List Byte, d = List.replicate 8 0xFF →
    rawPOf d = 0xFFFFF ∧ rawTOf d = 0xFFFFF ∧ rawHOf d = 0xFFFF)

/-! ## Arithmetic and compensation (42_compensation.md) -/

/-- R16: a finite sum, difference, product or quotient of finite values is a binary64 nearest to the exact
result, and between two equally near ones it has the even significand. Overflow to an infinity, NaN results and the
sign of a zero result are no part of it. -/
def Obligations.ArithmeticRoundsToNearestEven : Prop :=
  ∀ (x y r : F64) (exact : ℚ), isFinite x = true → isFinite y = true → isFinite r = true →
    ((r = fAdd x y ∧ exact = fVal x + fVal y) ∨ (r = fSub x y ∧ exact = fVal x - fVal y) ∨
     (r = fMul x y ∧ exact = fVal x * fVal y) ∨
     (r = fDiv x y ∧ isZero y = false ∧ exact = fVal x / fVal y)) →
    ∀ z : F64, isFinite z = true →
      |fVal r - exact| ≤ |fVal z - exact| ∧
      (|fVal r - exact| = |fVal z - exact| → fVal z ≠ fVal r → fMant r % 2 = 0)

/-- R153, which the spec marks as derived: every operation of TEMP up to tf is exact, and tf is the stated rational. -/
def Obligations.TempFineIsExact : Prop :=
  ∀ (rawT : BitVec 20) (c : Cal),
    let x : ℚ := rawT.toNat
    let t1 : ℚ := c.t1.toNat
    let t2 : ℚ := c.t2.toInt
    let t3 : ℚ := c.t3.toInt
    let d : ℚ := x - 16 * t1
    fVal (fU rawT) = x ∧ fVal (fU c.t1) = t1 ∧ fVal (fS c.t2) = t2 ∧ fVal (fS c.t3) = t3 ∧
    fVal (fDiv (fU rawT) (lit 16384)) = x / 16384 ∧ fVal (fDiv (fU c.t1) (lit 1024)) = t1 / 1024 ∧
    fVal (fSub (fDiv (fU rawT) (lit 16384)) (fDiv (fU c.t1) (lit 1024))) = x / 16384 - t1 / 1024 ∧
    fVal (tempA rawT c) = (x / 16384 - t1 / 1024) * t2 ∧
    fVal (fDiv (fU rawT) (lit 131072)) = x / 131072 ∧ fVal (fDiv (fU c.t1) (lit 8192)) = t1 / 8192 ∧
    fVal (tempQ rawT c) = x / 131072 - t1 / 8192 ∧
    fVal (fMul (tempQ rawT c) (tempQ rawT c)) = (x / 131072 - t1 / 8192) ^ 2 ∧
    fVal (fMul (fMul (tempQ rawT c) (tempQ rawT c)) (fS c.t3)) = (x / 131072 - t1 / 8192) ^ 2 * t3 ∧
    fVal (tempB rawT c) = (x / 131072 - t1 / 8192) ^ 2 * t3 * 16 ∧
    isFinite (tempFine rawT c) = true ∧ |d| < 2 ^ 20 ∧
    fVal (tempFine rawT c) = (d * t2 * 2 ^ 16 + d ^ 2 * t3) / 2 ^ 30 ∧
    fMul (fMul (tempQ rawT c) (tempQ rawT c)) (fMul (fS c.t3) (lit 16)) = tempB rawT c

/-- R156, which the spec marks as derived: with rawT = 16·t1 temp_fine is a zero, −0.0 exactly when t2 < 0 and
t3 < 0, and tc is a zero of the same sign. -/
def Obligations.TempZeroSigns : Prop :=
  ∀ (rawT : BitVec 20) (c : Cal), rawT.toNat = 16 * c.t1.toNat →
    tempFine rawT c = fZero (decide (c.t2.toInt < 0 ∧ c.t3.toInt < 0)) ∧
    celsius (tempFine rawT c) = tempFine rawT c

/-- R166: CLAMP_H by the IEEE comparisons, and the values it returns unchanged. -/
def Obligations.HumidityClamp : Prop :=
  (∀ x : F64, fLt (lit 100) x = true → clampH x = lit 100) ∧
  (∀ x : F64, fLt x (fZero false) = true → clampH x = fZero false) ∧
  (∀ x : F64, fLt (lit 100) x = false → fLt x (fZero false) = false → clampH x = x) ∧
  (∀ x : F64, fLt (lit 100) (clampH x) = false ∧ fLt (clampH x) (fZero false) = false) ∧
  clampH (fZero true) = fZero true ∧ clampH (fZero false) = fZero false ∧ clampH (lit 100) = lit 100

/-- R160 to R162: the guard and the divisor of PRESS with the default formula. With the guard on and the
denominator v1 below 1 in magnitude the formula gives +0.0, on every other path the formula after the guard; the
result is divided by P_PDIV where that is not 1. With the guard off, v1 = 0 gives an infinity or a NaN. A NaN's
pattern is a free value (log 9), and that |v1| < 1 asks for a finite v1 is the model's reading (log 23). -/
def Obligations.PressureGuard : Prop :=
  ∀ (par : Params) (k : Nat) (rawP : BitVec 20) (tf : F64) (c : Cal), par.pform = .boschF64 →
    let v1 := pressDenom tf c
    let below := isFinite v1 = true ∧ |fVal v1| < 1
    let scaled := fun x => settleNaN k 0 (if par.pdiv = 1 then x else fDiv x (lit par.pdiv))
    (par.pguard = true → below →
      pressOut k par rawP tf c = scaled (fZero false) ∧
      (par.pdiv ≠ 0 → pressOut k par rawP tf c = fZero false)) ∧
    (par.pguard = false ∨ ¬ below →
      pressOut k par rawP tf c = scaled (pressTail rawP v1 (pressOffset tf c) c)) ∧
    (par.pguard = false → isZero v1 = true → isFinite (pressOut k par rawP tf c) = false)

/-- The examples of R155, R163, R164 and R168 with the example calibration, bit for bit. -/
def Obligations.ExampleReading : Prop :=
  temp 498928 exampleCal = (0x40FF421E416C0000, 0x403901B1CDF00000) ∧
  press Config.params 350000 0x40FF421E416C0000 exampleCal = 0x40F8798C77EDADBF ∧
  press Config.params 0xFFFFF 0x40FF421E416C0000 exampleCal = 0xC0D2A371F88684B4 ∧
  hum Config.params 22000 0x40FF421E416C0000 exampleCal = 0x4048E1DA3AE1766C ∧
  hum Config.params 0 0x40FF421E416C0000 exampleCal = fZero false ∧
  hum Config.params 0xFFFF 0x40FF421E416C0000 exampleCal = lit 100

/-- R155: COMP_T on a READY block, and on any other. Response fields it does not list are free values (log 8). -/
def Obligations.CompTWritesTfine : Prop :=
  ∀ (raw : BitVec 20) (s : State),
    (s.life = .ready → exec (.compT raw) s = .next (ended
      { Resp.blank s.env.fresh .ok with t := (temp raw s.cal).2, tfine := (temp raw s.cal).1 }
      { s with tfine := (temp raw s.cal).1, tfineV := true })) ∧
    (s.life ≠ .ready → exec (.compT raw) s = .next (ended (Resp.blank s.env.fresh .notInitialized) s))

/-- R163, R262: COMP_P writes nothing but its response, and reports the first error that applies.
Unlisted response fields and a NaN's pattern are free values (log 8, 9). -/
def Obligations.CompPReadsTfine : Prop :=
  ∀ (raw : BitVec 20) (s : State),
    (s.life = .ready → s.tfineV = true → exec (.compP raw) s = .next (ended
      { Resp.blank s.env.fresh .ok with p := pressOut s.env.fresh s.par raw s.tfine s.cal } s)) ∧
    (s.life = .ready → s.tfineV = false →
      exec (.compP raw) s = .next (ended (Resp.blank s.env.fresh .tfineUnset) s)) ∧
    (s.life ≠ .ready → exec (.compP raw) s = .next (ended (Resp.blank s.env.fresh .notInitialized) s))

/-- R168, R262: COMP_H returns H with HV = 1 whatever CFG.osrs_h is. Unlisted response fields and a NaN's
pattern are free values (log 8, 9). -/
def Obligations.CompHReadsTfine : Prop :=
  ∀ (raw : BitVec 16) (s : State),
    (s.life = .ready → s.tfineV = true → exec (.compH raw) s = .next (ended
      { Resp.blank s.env.fresh .ok with
        h := humOut s.env.fresh s.par raw s.tfine s.cal, hv := true } s)) ∧
    (s.life = .ready → s.tfineV = false →
      exec (.compH raw) s = .next (ended (Resp.blank s.env.fresh .tfineUnset) s)) ∧
    (s.life ≠ .ready → exec (.compH raw) s = .next (ended (Resp.blank s.env.fresh .notInitialized) s))

/-- R31, R196: a cycle neither reads nor writes TFINE and TFINE_V, in the sampler and in SENSE. -/
def Obligations.CyclesIgnoreTfine : Prop :=
  ∀ (s : State) (x : F64) (v : Bool),
    (∀ a, samplerStep a { s with tfine := x, tfineV := v } =
      mapNext (fun t => { t with tfine := x, tfineV := v }) (samplerStep a s)) ∧
    exec .sense { s with tfine := x, tfineV := v } =
      mapNext (fun t => { t with tfine := x, tfineV := v }) (exec .sense s)

/-! ## INIT (43_sequencer.md section 1) -/

/-- R180, R183, R295: five steps of INIT with good answers commit CAL, CFG, VARIANT and LIFE, emit the four
reads in order, and change nothing else but the response. The division into five steps is the model's (log 11). -/
def Obligations.InitSucceeds : Prop :=
  ∀ (t p h f : BitVec 3) (s : State) (x1 x2 x3 x4 id var : Byte) (w1 w2 : List Byte)
    (rest : List BusAnswer),
    s.life ≠ .ready → s.hphase = .entry → cfgInvalid ⟨t, p, h, f⟩ = false →
    s.par.readsInRange = true → w1.length = s.par.lenCal1 → w2.length = s.par.lenCal2 →
    id = s.par.chipId → var ∈ s.par.variants →
    s.env.busIn = .ok (inFrame s.bus x1 [id]) :: .ok (inFrame s.bus x2 [var]) ::
      .ok (inFrame s.bus x3 w1) :: .ok (inFrame s.bus x4 w2) :: rest →
    execSteps (.init t p h f) 5 s = .next (ended (Resp.blank s.env.fresh .ok) { s with
      cal := decodeCal w1 w2, cfg := ⟨t, p, h, f⟩, variant := var, life := .ready,
      env := { s.env with busIn := rest, hist :=
        ⟨memReadFrame s.par.regCal2 s.par.lenCal2 s, .ok (inFrame s.bus x4 w2)⟩ ::
        ⟨memReadFrame s.par.regCal1 s.par.lenCal1 s, .ok (inFrame s.bus x3 w1)⟩ ::
        ⟨memReadFrame s.par.regVariant 1 s, .ok (inFrame s.bus x2 [var])⟩ ::
        ⟨memReadFrame s.par.regChipId 1 s, .ok (inFrame s.bus x1 [id])⟩ :: s.env.hist } })

/-- R183: the step that reads window 2 commits and responds OK. That the read, the commit and the response are
one step, and the place `initCal2` that it stands at, are the model's (log 11). -/
def Obligations.InitCommits : Prop :=
  ∀ (t p h f : BitVec 3) (s : State) (var : Byte) (w1 d : List Byte),
    s.hphase = .initCal2 var w1 → readInRange s.par.regCal2.toNat s.par.lenCal2 = true →
    answerOf (memReadFrame s.par.regCal2 s.par.lenCal2 s) s = .ok d →
    exec (.init t p h f) s = .next (ended (Resp.blank s.env.fresh .ok)
      { recordTxn (memReadFrame s.par.regCal2 s.par.lenCal2 s) s with
        cal := decodeCal w1 (match s.bus with | .i2c => d | .spi => d.drop 1)
        cfg := ⟨t, p, h, f⟩, variant := var, life := .ready })

/-- R181: INIT refuses temperature off with pressure or humidity on, without a transaction; all three off
is accepted. That an accepted configuration takes a step of its own, to the place `initChip`, is the model's
division of INIT (log 11). -/
def Obligations.InitRefusesInvalidConfig : Prop :=
  ∀ (t p h f : BitVec 3) (s : State), s.life ≠ .ready → s.hphase = .entry →
    (t = 0 → p ≠ 0 ∨ h ≠ 0 → exec (.init t p h f) s = .next (ended
      (Resp.blank s.env.fresh .invalidConfig) { s with life := .failed })) ∧
    (t ≠ 0 ∨ (p = 0 ∧ h = 0) → exec (.init t p h f) s = .next { s with hphase := .initChip })

/-- R182: a chip-ID that is not P_CHIP_ID, or a variant-ID not in P_VARIANTS, ends INIT with the byte read and
which comparison failed; nothing after that read is emitted. That the comparison and its outcome fall in the read's
step, and the places, are the model's (log 11). -/
def Obligations.InitRefusesUnsupportedDevice : Prop :=
  Config.params.chipId = 0x61 ∧ Config.params.variants = [0x00, 0x01] ∧
  ∀ (t p h f : BitVec 3) (s : State) (d : List Byte),
    (s.hphase = .initChip → readInRange s.par.regChipId.toNat 1 = true →
      answerOf (memReadFrame s.par.regChipId 1 s) s = .ok d →
      let b := byteAt (match s.bus with | .i2c => d | .spi => d.drop 1) 0
      let s1 := recordTxn (memReadFrame s.par.regChipId 1 s) s
      (b ≠ s.par.chipId → exec (.init t p h f) s = .next (ended
        { Resp.blank s.env.fresh .unsupportedDevice with detail := b, aux := 0x01 }
        { s1 with life := .failed })) ∧
      (b = s.par.chipId → exec (.init t p h f) s = .next { s1 with hphase := .initVariant })) ∧
    (s.hphase = .initVariant → readInRange s.par.regVariant.toNat 1 = true →
      answerOf (memReadFrame s.par.regVariant 1 s) s = .ok d →
      let b := byteAt (match s.bus with | .i2c => d | .spi => d.drop 1) 0
      let s1 := recordTxn (memReadFrame s.par.regVariant 1 s) s
      (b ∉ s.par.variants → exec (.init t p h f) s = .next (ended
        { Resp.blank s.env.fresh .unsupportedDevice with detail := b, aux := 0x02 }
        { s1 with life := .failed })) ∧
      (b ∈ s.par.variants → exec (.init t p h f) s = .next { s1 with hphase := .initCal1 b }))

/-- R266, R267: a bus error in any of INIT's reads fails INIT with that read's transaction id (R261) and writes
BUSERR; CFG, CAL and VARIANT keep their values. That the failing read's step also sets LIFE and responds, and the
places, are the model's (log 11). -/
def Obligations.InitAborts : Prop :=
  ∀ (t p h f : BitVec 3) (s : State) (e : BusErr) (txn a : Byte) (n : Nat),
    ((s.hphase = .initChip ∧ txn = 0x01 ∧ a = s.par.regChipId ∧ n = 1) ∨
     (s.hphase = .initVariant ∧ txn = 0x02 ∧ a = s.par.regVariant ∧ n = 1) ∨
     ((∃ v, s.hphase = .initCal1 v) ∧ txn = 0x03 ∧ a = s.par.regCal1 ∧ n = s.par.lenCal1) ∨
     ((∃ v w, s.hphase = .initCal2 v w) ∧ txn = 0x04 ∧ a = s.par.regCal2 ∧ n = s.par.lenCal2)) →
    readInRange a.toNat n = true → answerOf (memReadFrame a n s) s = .err e →
    exec (.init t p h f) s = .next (ended
      { Resp.blank s.env.fresh .transportError with detail := txn, buserr := e, dev := s.par.deviceName }
      { recordTxn (memReadFrame a n s) s with life := .failed, buserr := e })

/-- R185: INIT on a READY block changes nothing and emits nothing; on a FAILED block it runs again. That its first
step there only moves to the place `initChip` is the model's division of INIT (log 11). -/
def Obligations.InitOnlyOnce : Prop :=
  ∀ (t p h f : BitVec 3) (s : State), s.hphase = .entry →
    (s.life = .ready →
      exec (.init t p h f) s = .next (ended (Resp.blank s.env.fresh .alreadyInitialized) s)) ∧
    (s.life = .failed → cfgInvalid ⟨t, p, h, f⟩ = false →
      exec (.init t p h f) s = .next { s with hphase := .initChip })

/-! ## SENSE and the cycle (43_sequencer.md sections 2 and 3) -/

/-- R187: SENSE while a run is active is refused and touches nothing but the response. -/
def Obligations.SenseRefusedWhileSampling : Prop :=
  ∀ s : State, s.hphase = .entry → s.life = .ready → s.sActive = true →
    exec .sense s = .next (ended (Resp.blank s.env.fresh .alreadySampling) s)

/-- R186, R188, R263: SENSE needs READY, takes a free LOCK for the host, and waits for one that is held. That the
acquisition makes the cycle registers unwritten is log 14's reading, the place `senseCycle` and the test of LIFE in
the acquisition's step are the model's (log 11), and a waiting step changes nothing (log 5). -/
def Obligations.SenseTakesTheLock : Prop :=
  ∀ s : State, s.hphase = .entry →
    (s.life ≠ .ready → exec .sense s = .next (ended (Resp.blank s.env.fresh .notInitialized) s)) ∧
    (s.life = .ready → s.sActive = false → s.lock = .free →
      exec .sense s = .next { s with lock := .host, cyc := .unwritten, hphase := .senseCycle }) ∧
    (s.life = .ready → s.sActive = false → s.lock ≠ .free → exec .sense s = .next s)

/-- R195 to R197, R40: the last step of SENSE reads the data block, answers the Measurement of one
temp_fine, releases LOCK and puts the sequencer to sleep. That the release and the response fall in the step of the
data read is read from R224 and R268 (log 13), the place `senseCycle` is the model's (log 11), and the unlisted
response fields and a NaN's pattern are free values (log 8, 9). -/
def Obligations.SenseReturnsTheMeasurement : Prop :=
  ∀ (s : State) (d : List Byte), s.hphase = .senseCycle → s.lock = .host → s.seq = .dataReady →
    readInRange s.par.regData.toNat s.par.lenData = true →
    answerOf (memReadFrame s.par.regData s.par.lenData s) s = .ok d →
    let b := match s.bus with | .i2c => d | .spi => d.drop 1
    let tf := tempFine (rawTOf b) s.cal
    let k := s.env.fresh
    let pr := pressOut k s.par (rawPOf b) tf s.cal
    let hu := humOut k s.par (rawHOf b) tf s.cal
    let hr := if s.cfg.osrsH = 0 then none else some hu
    exec .sense s = .next
      { s with
        seq := .sleep, devmode := .sleep, lock := .free, cmdBusy := false, hphase := .entry
        cyc := ⟨s.cyc.status, some (rawPOf b), some (rawTOf b), some (rawHOf b), some tf,
          some (celsius tf), some pr, some hr⟩
        resp := { Resp.blank (k + 1) .ok with
          t := celsius tf, p := pr, h := hr.getD (Config.freeField (k + 1) 2), hv := hr.isSome }
        env := { s.env with
          fresh := k + 2, busIn := s.env.busIn.tail
          hist := ⟨memReadFrame s.par.regData s.par.lenData s, .ok d⟩ :: s.env.hist } }

/-- R197: SENSE with k polls that are not done and one that is: one write, k + 1 status reads, one data read,
k delays between the reads, and the response carries the Measurement of the data block. The list of steps follows
the model's agents (log 5), and its last step releases LOCK and responds as log 13 reads R268. -/
def Obligations.SenseRunsToItsResponse : Prop :=
  ∀ (s : State) (x y : Byte) (polls : List (Byte × Byte)) (st : Byte) (d : List Byte)
    (rest : List BusAnswer),
    s.hphase = .entry → s.life = .ready → s.sActive = false → s.lock = .free → s.seq = .sleep →
    s.cmdBusy = true → decodeCmd s.cmd = .ok .sense → s.par.readsInRange = true →
    (∀ q ∈ polls, pollDone s.par q.2 = false) → pollDone s.par st = true → d.length = s.par.lenData →
    s.env.busIn = .ok [] :: ((polls.map fun q => BusAnswer.ok (inFrame s.bus q.1 [q.2])).append
      (.ok (inFrame s.bus x [st]) :: .ok (inFrame s.bus y d) :: rest)) →
    ∃ t : State,
      agentSteps (.host :: .host :: .host ::
        ((polls.flatMap fun _ => [Event.host, Event.pollTimer]).append [.host, .host])) s = .next t ∧
      t.resp.code = .ok ∧ t.resp.t = celsius (tempFine (rawTOf d) s.cal) ∧
      t.resp.p = pressOut s.env.fresh s.par (rawPOf d) (tempFine (rawTOf d) s.cal) s.cal ∧
      t.resp.hv = decide (s.cfg.osrsH ≠ 0) ∧
      (s.cfg.osrsH ≠ 0 →
        t.resp.h = humOut s.env.fresh s.par (rawHOf d) (tempFine (rawTOf d) s.cal) s.cal) ∧
      t.cmdBusy = false ∧ t.lock = .free ∧ t.seq = .sleep ∧ t.pwait = false ∧ t.devmode = .sleep ∧
      t.life = .ready ∧ t.cfg = s.cfg ∧ t.cal = s.cal ∧ t.tfine = s.tfine ∧ t.tfineV = s.tfineV ∧
      t.sActive = false ∧ t.mbox = s.mbox ∧ t.sErr = s.sErr ∧ t.env.busIn = rest ∧
      t.env.hist =
        ⟨memReadFrame s.par.regData s.par.lenData s, .ok (inFrame s.bus y d)⟩ ::
        ⟨memReadFrame s.par.regStatus 1 s, .ok (inFrame s.bus x [st])⟩ ::
        ((polls.reverse.map fun q =>
          BusEvent.mk (memReadFrame s.par.regStatus 1 s) (.ok (inFrame s.bus q.1 [q.2]))).append
          (⟨memWriteFrame (triggerPairs s.par s.cfg) s, .ok []⟩ :: s.env.hist))

/-- R191 to R194: the steps T1 to T4 of a cycle, for the agent that holds LOCK. That T3 puts its delay into the
timer port and T4 clears it there is the model's form of the timer (log 15), and that the agent's step with PWAIT = 1
changes nothing is log 5's. -/
def Obligations.CycleGoesOn : Prop :=
  ∀ (o : Owner) (s : State), s.lock = o →
    (s.seq = .sleep → answerOf (memWriteFrame (triggerPairs s.par s.cfg) s) s = .ok [] →
      cycleStep o s = .run { recordTxn (memWriteFrame (triggerPairs s.par s.cfg) s) s with
        devmode := .forced, seq := .triggered }) ∧
    (s.seq = .triggered → cycleStep o s = .run { s with seq := .polling, pwait := false }) ∧
    (∀ d, s.seq = .polling → s.pwait = false → readInRange s.par.regStatus.toNat 1 = true →
      answerOf (memReadFrame s.par.regStatus 1 s) s = .ok d →
      let st := byteAt (match s.bus with | .i2c => d | .spi => d.drop 1) 0
      let s1 := recordTxn (memReadFrame s.par.regStatus 1 s) s
      (pollDone s.par st = true →
        cycleStep o s = .run { s1 with cyc := { s.cyc with status := some st }, seq := .dataReady }) ∧
      (pollDone s.par st = false →
        cycleStep o s = .run { s1 with
          cyc := { s.cyc with status := some st }, pwait := true, timer := some s.par.pollDelayMs })) ∧
    (s.seq = .polling → s.pwait = true → cycleStep o s = .run s ∧
      agentStep .pollTimer s = .next { s with pwait := false, timer := none })

/-- R266, R268: the abort in SENSE and in the sampler. The failing step ends the cycle, discards the cycle
registers, keeps DEVMODE, writes BUSERR and releases LOCK; SENSE responds, and the sampler terminates with
S_ERR even when a stop request is pending (R273 d). R268 puts the release into the failing step; that SENSE's response
falls there too is log 13's reading, that a sampler's abort writes BUSERR is log 24's, and the place `senseCycle` is
the model's (log 11). -/
def Obligations.CycleAborts : Prop :=
  ∀ (s : State) (txn : Byte) (e : BusErr) (f : BusFrame),
    ((s.seq = .sleep ∧ txn = 0x10 ∧ f = memWriteFrame (triggerPairs s.par s.cfg) s) ∨
     (s.seq = .polling ∧ s.pwait = false ∧ txn = 0x11 ∧ readInRange s.par.regStatus.toNat 1 = true ∧
       f = memReadFrame s.par.regStatus 1 s) ∨
     (s.seq = .dataReady ∧ txn = 0x12 ∧ readInRange s.par.regData.toNat s.par.lenData = true ∧
       f = memReadFrame s.par.regData s.par.lenData s)) →
    answerOf f s = .err e →
    let s1 := { recordTxn f s with
      seq := .sleep, pwait := false, cyc := .unwritten, buserr := e, lock := .free }
    (s.hphase = .senseCycle → s.lock = .host → exec .sense s = .next (ended
      { Resp.blank s.env.fresh .transportError with
        detail := txn, buserr := e, dev := s.par.deviceName } s1)) ∧
    (∀ a, s.sPhase = .measuring → s.lock = .sampler → samplerStep a s = .next { s1 with
      sActive := false, sPhase := .idle, sCancel := false, sPending := none
      sErr := some ⟨.transportError, txn, e⟩ })

/-- R189: no step of any agent moves SEQ but by the five transitions or by an abort, whose step ends with a
bus error, now in BUSERR (R266; in a sampler's cycle by log 24). -/
def Obligations.SequencerTransitions : Prop :=
  ∀ s t : State, step s = .next t →
    t.seq = s.seq ∨ (s.seq = .sleep ∧ t.seq = .triggered) ∨ (s.seq = .triggered ∧ t.seq = .polling) ∨
    (s.seq = .polling ∧ t.seq = .dataReady) ∨ (s.seq = .dataReady ∧ t.seq = .sleep) ∨
    (t.seq = .sleep ∧ ∃ f, t.env.hist = ⟨f, .err t.buserr⟩ :: s.env.hist)

/-! ## The sampler, START, STOP, STATUS and TAKE (44_sampler.md) -/

/-- R223: the sampler's steps, each with its guard and its effect. That M1 makes the cycle registers unwritten is
log 14's reading, that P1 puts the interval into the timer port and W2 and W1 clear it there is log 15's choice, and
that a step with no enabled effect changes nothing is log 5's. -/
def Obligations.SamplerSteps : Prop :=
  ∀ (s : State) (a : Bool),
    let fin : State :=
      { s with sActive := false, sPhase := .idle, sCancel := false, sPending := none }
    (s.sPhase = .measuring → s.lock ≠ .sampler → s.sCancel = true → samplerStep a s = .next fin) ∧
    (s.sPhase = .measuring → s.lock = .free → s.sCancel = false →
      samplerStep a s = .next { s with lock := .sampler, cyc := .unwritten }) ∧
    (s.sPhase = .measuring → s.lock = .host → s.sCancel = false → samplerStep a s = .next s) ∧
    (∀ d, s.sPhase = .measuring → s.lock = .sampler → s.seq = .dataReady →
      readInRange s.par.regData.toNat s.par.lenData = true →
      answerOf (memReadFrame s.par.regData s.par.lenData s) s = .ok d →
      let s1 := recordTxn (memReadFrame s.par.regData s.par.lenData s) s
      let b := match s.bus with | .i2c => d | .spi => d.drop 1
      samplerStep a s = .next { measured b s1 with
        lock := .free, sPending := some (measure b s1).2, sPhase := .publishing }) ∧
    (∀ s1, s.sPhase = .measuring → s.lock = .sampler → cycleStep .sampler s = .run s1 →
      samplerStep a s = .next s1) ∧
    (∀ txn e s1, s.sPhase = .measuring → s.lock = .sampler → cycleStep .sampler s = .abort txn e s1 →
      samplerStep a s = .next { s1 with
        lock := .free, sActive := false, sPhase := .idle, sCancel := false, sPending := none
        sErr := some ⟨.transportError, txn, e⟩ }) ∧
    (s.sPhase = .publishing → s.mbox = none → s.sCancel = false ∨ a = false →
      samplerStep a s = .next { s with
        mbox := s.sPending, sPending := none, sPhase := .waiting, timer := some s.sInterval.toNat }) ∧
    (s.sPhase = .publishing → s.sCancel = true → s.mbox ≠ none ∨ a = true →
      samplerStep a s = .next fin) ∧
    (s.sPhase = .publishing → s.sCancel = false → s.mbox ≠ none → samplerStep a s = .next s) ∧
    (s.sPhase = .waiting → s.sCancel = true → samplerStep a s = .next { fin with timer := none }) ∧
    (s.sPhase = .waiting → s.sCancel = false →
      agentStep .intervalTimer s = .next { s with sPhase := .measuring, timer := none }) ∧
    (s.sPhase ≠ .waiting ∨ s.sCancel = true → agentStep .intervalTimer s = .next s) ∧
    (s.sPhase = .idle → samplerStep a s = .next s)

/-- R228: when a run ends, by whichever agent's step, its registers are cleared, MBOX keeps its contents,
LOCK is not the sampler's, and S_ERR keeps its value or takes the transport error of the cycle's transaction that
failed in this step, under its own id (R261). That BUSERR then holds the same error is log 24's reading; the premise
`Inv` is the model's invariant (log 11, 13, 25). -/
def Obligations.RunEndsCleanly : Prop :=
  ∀ s t : State, Inv s → step s = .next t → s.sActive = true → t.sActive = false →
    t.sPhase = .idle ∧ t.sCancel = false ∧ t.sPending = none ∧ t.mbox = s.mbox ∧ t.lock ≠ .sampler ∧
    t.seq = .sleep ∧ t.sInterval = s.sInterval ∧
    (t.sErr = s.sErr ∨
      ∃ f txn, t.env.hist = ⟨f, .err t.buserr⟩ :: s.env.hist ∧
        t.sErr = some ⟨.transportError, txn, t.buserr⟩ ∧
        ((s.seq = .sleep ∧ txn = 0x10 ∧ f = memWriteFrame (triggerPairs s.par s.cfg) s) ∨
         (s.seq = .polling ∧ txn = 0x11 ∧ f = memReadFrame s.par.regStatus 1 s) ∨
         (s.seq = .dataReady ∧ txn = 0x12 ∧ f = memReadFrame s.par.regData s.par.lenData s)))

/-- R230: START on an idle READY block launches a run and responds OK before its first cycle. That the tests and the
response fall in the launch's step is the model's (log 25). -/
def Obligations.StartLaunchesARun : Prop :=
  ∀ (ms : BitVec 24) (s : State), s.hphase = .entry →
    (s.life = .ready → s.sActive = false → exec (.start ms) s = .next (ended (Resp.blank s.env.fresh .ok)
      { s with
        sErr := none, sInterval := ms, sCancel := false, sPending := none, sPhase := .measuring
        sActive := true })) ∧
    (s.life ≠ .ready → exec (.start ms) s = .next (ended (Resp.blank s.env.fresh .notInitialized) s))

/-- R231, R232: START while a run is active asks it to stop, waits for its termination, and only then
launches the new run; MBOX is left as it is. That the test of S_ACTIVE and the request are one step is the model's
choice (log 25), the place `startWait` is its own (log 11), and a waiting step changes nothing (log 5). -/
def Obligations.StartRestartsARun : Prop :=
  ∀ (ms : BitVec 24) (s : State),
    (s.hphase = .entry → s.life = .ready → s.sActive = true →
      exec (.start ms) s = .next { s with sCancel := true, hphase := .startWait }) ∧
    (s.hphase = .startWait → s.sActive = true → exec (.start ms) s = .next s) ∧
    (s.hphase = .startWait → s.sActive = false →
      exec (.start ms) s = .next (ended (Resp.blank s.env.fresh .ok)
        { s with
          sErr := none, sInterval := ms, sCancel := false, sPending := none, sPhase := .measuring
          sActive := true }))

/-- R234: STOP with no run active is a no-op in every LIFE state and responds OK. -/
def Obligations.StopWithoutARun : Prop :=
  ∀ s : State, s.hphase = .entry → s.sActive = false →
    exec .stop s = .next (ended (Resp.blank s.env.fresh .ok) s)

/-- R233: STOP asks an active run to stop, waits while it is active, and responds OK once it has terminated. That
the test of S_ACTIVE and the request are one step is the model's choice (log 25), the place `stopWait` is its own
(log 11), a waiting step changes nothing (log 5), and W1 drops the interval from the timer port (log 15). -/
def Obligations.StopWaitsForTheRun : Prop :=
  ∀ s : State,
    (s.hphase = .entry → s.sActive = true →
      exec .stop s = .next { s with sCancel := true, hphase := .stopWait }) ∧
    (s.hphase = .stopWait → s.sActive = true → exec .stop s = .next s) ∧
    (s.hphase = .stopWait → s.sActive = false →
      exec .stop s = .next (ended (Resp.blank s.env.fresh .ok) s)) ∧
    (s.hphase = .entry → s.cmdBusy = true → decodeCmd s.cmd = .ok .stop → s.sActive = true →
      s.sPhase = .waiting → ∀ a,
      agentSteps [.host, .sampler a, .host] s = .next (ended (Resp.blank s.env.fresh .ok)
        { s with
          sActive := false, sPhase := .idle, sCancel := false, sPending := none, timer := none }))

/-- R313: a stop request that finds a run in PUBLISHING or WAITING never lets it begin another cycle: until
the run has ended, every step keeps it out of MEASURING and keeps the request, in WAITING any step of the sampler
ends it, and in every run of the machine it does end. That last clause rests on the scheduler's turns, whose form is
the model's (log 5); the premise `Inv` is the model's invariant (log 11, 13, 25). -/
def Obligations.StopNeverWaitsForACycle : Prop :=
  (∀ s t : State, Inv s → s.sCancel = true → s.sPhase = .publishing ∨ s.sPhase = .waiting →
    step s = .next t →
    ((t.sPhase = .publishing ∨ t.sPhase = .waiting) ∧ t.sCancel = true) ∨ t.sPhase = .idle) ∧
  (∀ (s t : State) (a : Bool), s.sCancel = true → s.sPhase = .waiting → samplerStep a s = .next t →
    t.sActive = false ∧ t.sPhase = .idle) ∧
  (∀ (r : Nat → State) (n : Nat), IsRun r → Inv (r n) → (r n).sCancel = true →
    (r n).sPhase = .publishing ∨ (r n).sPhase = .waiting →
    ∃ m, n ≤ m ∧ (r m).sActive = false ∧ (r m).sPhase = .idle ∧
      ∀ k, n ≤ k → k < m → (r k).sPhase = .publishing ∨ (r k).sPhase = .waiting)

/-- R236: STATUS in every state: a snapshot, and nothing changed but the response. -/
def Obligations.StatusIsASnapshot : Prop :=
  (∀ s : State, exec .status s = .next (ended
    { Resp.blank s.env.fresh .ok with
      stat := statWord s
      detail := (match s.sErr with | none => 0x00 | some x => x.txn)
      aux := s.variant } s)) ∧
  statWord State.reset = 0 ∧ State.reset.sErr = none ∧ State.reset.variant = 0x00

/-- R238: the three cases of TAKE. The consumer's request and response registers are the model's (log 16), a
waiting step changes nothing (log 5), and the unlisted response fields, with H where HV = 0, are free values
(log 8). -/
def Obligations.TakeCases : Prop :=
  ∀ s : State,
    (∀ m, s.mbox = some m → exec .take s = .next { s with
      mbox := none, consReq := none
      cresp := { Resp.blank s.env.fresh .ok with
        t := m.t, p := m.p, h := m.h.getD (Config.freeField s.env.fresh 2), hv := m.h.isSome }
      env := { s.env with fresh := s.env.fresh + 1 } }) ∧
    (s.mbox = none → s.sActive = true → exec .take s = .next s) ∧
    (∀ x, s.mbox = none → s.sActive = false → s.sErr = some x → exec .take s = .next { s with
      consReq := none
      cresp := { Resp.blank s.env.fresh x.code with detail := x.txn, buserr := x.e, dev := s.par.deviceName }
      env := { s.env with fresh := s.env.fresh + 1 } }) ∧
    (s.mbox = none → s.sActive = false → s.sErr = none → exec .take s = .next { s with
      consReq := none
      cresp := Resp.blank s.env.fresh .cancelled
      env := { s.env with fresh := s.env.fresh + 1 } })

/-- R38, R225: a published measurement stays in MBOX until a TAKE delivers it, and only a publish of
S_PENDING fills an empty MBOX. The response that delivers it stands in the model's register `cresp` (log 16). -/
def Obligations.MailboxHandsOverInOrder : Prop :=
  ∀ s t : State, step s = .next t →
    (∀ m, s.mbox = some m → t.mbox = some m ∨
      (t.mbox = none ∧ t.cresp.code = .ok ∧ t.cresp.t = m.t ∧ t.cresp.p = m.p ∧
        t.cresp.hv = m.h.isSome ∧ ∀ x, m.h = some x → t.cresp.h = x)) ∧
    (s.mbox = none → t.mbox = none ∨ (s.sPhase = .publishing ∧ t.mbox = s.sPending ∧ t.sPhase = .waiting))

/-! ## The bus frames (40_transport.md) -/

/-- R113, R266: an I2C read. As an instruction of its own, for an agent that may emit and with its result in
`xfer`, it is the model's form of MemRead (log 17). -/
def Obligations.I2cReadFrame : Prop :=
  ∀ (a : Byte) (n : Nat) (s : State), 1 ≤ n → a.toNat + n ≤ 256 → s.bus = .i2c → mayEmit s = true →
    let f : BusFrame := ⟨.i2c, [a], n⟩
    (∀ d, answerOf f s = .ok d → d.length = n ∧
      exec (.busRdI2c a n) s = .next { recordTxn f s with xfer := .ok d }) ∧
    (∀ e, answerOf f s = .err e →
      exec (.busRdI2c a n) s = .next { recordTxn f s with buserr := e, xfer := .err e })

/-- R114, R266: a SPI read; the dummy byte is discarded. As an instruction of its own, for an agent that may emit
and with its result in `xfer`, it is the model's form of MemRead (log 17), with seven address bits (log 18). -/
def Obligations.SpiReadFrame : Prop :=
  (∀ (a : BitVec 7) (n : Nat) (s : State), 1 ≤ n → a.toNat + n ≤ 256 → s.bus = .spi → mayEmit s = true →
    let f : BusFrame :=
      ⟨.spi, (0x80#8 ||| a.setWidth 8) :: List.replicate n s.par.spiFill, n + 1⟩
    (∀ d0 d, answerOf f s = .ok (d0 :: d) → d.length = n ∧
      exec (.busRdSpi a n) s = .next { recordTxn f s with xfer := .ok d }) ∧
    (∀ e, answerOf f s = .err e →
      exec (.busRdSpi a n) s = .next { recordTxn f s with buserr := e, xfer := .err e })) ∧
  (∀ (a : Byte) (n : Nat) (s : State), s.bus = .spi →
    memReadFrame a n s = memReadFrame (a ^^^ 0x80#8) n s)

/-- R117, R118, R266: the writes. As instructions of their own, for an agent that may emit and with the result in
`xfer`, they are the model's form of MemWrite (log 17), a SPI one with seven address bits (log 18). -/
def Obligations.WriteFrames : Prop :=
  (∀ (ps : List (Byte × Byte)) (s : State), s.bus = .i2c → mayEmit s = true →
    let f : BusFrame := ⟨.i2c, ps.flatMap fun q => [q.1, q.2], 0⟩
    (answerOf f s = .ok [] → exec (.busWrI2c ps) s = .next { recordTxn f s with xfer := .ok [] }) ∧
    (∀ e, answerOf f s = .err e →
      exec (.busWrI2c ps) s = .next { recordTxn f s with buserr := e, xfer := .err e })) ∧
  (∀ (ps : List (BitVec 7 × Byte)) (s : State), s.bus = .spi → mayEmit s = true →
    let f : BusFrame := ⟨.spi, ps.flatMap fun q => [q.1.setWidth 8, q.2], 0⟩
    (answerOf f s = .ok [] → exec (.busWrSpi ps) s = .next { recordTxn f s with xfer := .ok [] }) ∧
    (∀ e, answerOf f s = .err e →
      exec (.busWrSpi ps) s = .next { recordTxn f s with buserr := e, xfer := .err e })) ∧
  (∀ (ps : List (Byte × Byte)) (s : State), s.bus = .spi →
    memWriteFrame ps s = ⟨.spi, ps.flatMap fun q => [q.1 &&& 0x7F#8, q.2], 0⟩) ∧
  (∀ (ps : List (Byte × Byte)) (s : State), (∀ q ∈ ps, q.1.toNat < 128) →
    (memWriteFrame ps { s with bus := .spi }).out = (memWriteFrame ps { s with bus := .i2c }).out)

/-- R61, R72, R112, R264: where the transport stops, with which fault: a read out of range, a frame of the
framing that BUS does not name, and a transaction of an agent that may emit none. The faults' names are the
model's (log 21), and so are the transactions of their own (log 17) and the places of SENSE and INIT (log 11). -/
def Obligations.TransportFaults : Prop :=
  (∀ (a : Byte) (n : Nat) (s : State), n = 0 ∨ a.toNat + n > 256 →
    exec (.busRdI2c a n) s = .fault .readOutOfRange) ∧
  (∀ (a : BitVec 7) (n : Nat) (s : State), n = 0 ∨ a.toNat + n > 256 →
    exec (.busRdSpi a n) s = .fault .readOutOfRange) ∧
  (∀ (a : Byte) (n : Nat) (ps : List (Byte × Byte)) (s : State), 1 ≤ n → a.toNat + n ≤ 256 →
    (s.bus = .spi → exec (.busRdI2c a n) s = .fault .wrongFraming ∧
      exec (.busWrI2c ps) s = .fault .wrongFraming) ∧
    (s.bus = .i2c → mayEmit s = false → exec (.busRdI2c a n) s = .fault .busWithoutLock ∧
      exec (.busWrI2c ps) s = .fault .busWithoutLock)) ∧
  (∀ (a : BitVec 7) (n : Nat) (ps : List (BitVec 7 × Byte)) (s : State), 1 ≤ n → a.toNat + n ≤ 256 →
    (s.bus = .i2c → exec (.busRdSpi a n) s = .fault .wrongFraming ∧
      exec (.busWrSpi ps) s = .fault .wrongFraming) ∧
    (s.bus = .spi → mayEmit s = false → exec (.busRdSpi a n) s = .fault .busWithoutLock ∧
      exec (.busWrSpi ps) s = .fault .busWithoutLock)) ∧
  (∀ s : State, s.hphase = .senseCycle → s.lock ≠ .host → exec .sense s = .fault .busWithoutLock) ∧
  (∀ s : State, s.hphase = .senseCycle → s.lock = .host → s.seq = .dataReady →
    s.par.lenData = 0 ∨ s.par.regData.toNat + s.par.lenData > 256 → exec .sense s = .fault .readOutOfRange) ∧
  (∀ (t p h f : BitVec 3) (s : State) (v : Byte) (w : List Byte),
    (s.hphase = .initCal1 v → s.par.lenCal1 = 0 ∨ s.par.regCal1.toNat + s.par.lenCal1 > 256 →
      exec (.init t p h f) s = .fault .readOutOfRange) ∧
    (s.hphase = .initCal2 v w → s.par.lenCal2 = 0 ∨ s.par.regCal2.toNat + s.par.lenCal2 > 256 →
      exec (.init t p h f) s = .fault .readOutOfRange))

/-! ## Runs and fairness (70_reset_and_hazards.md section 4) -/

/-- R76, R311, I20: every run of the machine gives every agent its turn again and again, so it is weakly fair. The
form of the scheduler is the model's (log 5). -/
def Obligations.RunsAreWeaklyFair : Prop :=
  ∀ r : Nat → State, IsRun r →
    WeaklyFair r ∧ ∀ (g : Agent) (n : Nat), ∃ m, n ≤ m ∧ (nextEvent (r m)).agent = g

/-- R311: every delay ends, the inter-poll delay by its step T4 and the interval by W2 or by the run's end. It rests
on the form of the scheduler, which is the model's (log 5). -/
def Obligations.EveryDelayEnds : Prop :=
  ∀ (r : Nat → State) (n : Nat), IsRun r →
    ((r n).seq = .polling → (r n).pwait = true →
      ∃ m, n ≤ m ∧ nextEvent (r m) = .pollTimer ∧ (r m).pwait = true ∧
        (r (m + 1)).seq = .polling ∧ (r (m + 1)).pwait = false) ∧
    ((r n).sPhase = .waiting → ∃ m, n ≤ m ∧ (r m).sPhase ≠ .waiting)

/-! ## Invariants -/

/-- R44: what reset leaves, for every register R44 gives a value. -/
def Obligations.ResetRegisters : Prop :=
  let s := State.reset
  s.life = .uninit ∧ s.seq = .sleep ∧ s.pwait = false ∧ s.bus = Config.pBus ∧ s.variant = 0x00 ∧
  s.devmode = .sleep ∧ s.lock = .free ∧ s.cyc = .unwritten ∧ s.tfineV = false ∧ s.sActive = false ∧
  s.sCancel = false ∧ s.sPhase = .idle ∧ s.sInterval = 0 ∧ s.sPending = none ∧ s.sErr = none ∧
  s.mbox = none ∧ s.cmdBusy = false

/-- R44, R290: the invariant of the block holds right after reset. Its clauses over the model's own place and over a
stop request are the model's (log 11, 13, 25). -/
def Obligations.ResetMeetsTheInvariant : Prop := Inv State.reset

/-- R22, R30, R33, R34, R36, R188, R224, R228, R263, R302: every step of every agent keeps the invariant of the block.
Not all of it is the spec's. That a stop request is pending only for an active run rests on log 25, by which no run
ends between the test of S_ACTIVE and the request; that LOCK is HOST exactly at the place `senseCycle` rests on the
model's places (log 11) and on the release in the cycle's last step (log 13); and the clauses over the places of INIT,
START and the accepted word are over the model's own field (log 11). -/
def Obligations.EveryStepKeepsTheInvariant : Prop :=
  ∀ s t : State, Inv s → step s = .next t → Inv t

/-- R264: no model fault and no refusal is reached from a state of the invariant, with the parameters'
reads in range and no transaction offered to the transport on its own (log 17). The premise `Inv` is the model's
invariant (log 11, 13, 25), and the faults' names are the model's (log 21). -/
def Obligations.NoFaultIsReached : Prop :=
  ∀ s : State, Inv s → s.par.readsInRange = true → s.env.frameIn = [] →
    ∃ t, step s = .next t ∧ t.env.frameIn = [] ∧ t.par = s.par

/-- R68, R72, R111: a step emits at most one transaction, and only the agent that LOCK names, or INIT, emits
one. The third case, a frame offered on the bus port of its own while some agent's name stands in LOCK or INIT is in
progress, is the model's (log 17), and so are the places that say that INIT is in progress (log 11). -/
def Obligations.OneOwnerOfTheBus : Prop :=
  ∀ s t : State, step s = .next t →
    t.env.hist = s.env.hist ∨
    ((∃ f, ∃ ans, t.env.hist = ⟨f, ans⟩ :: s.env.hist) ∧
      ((nextEvent s = .host ∧ (s.lock = .host ∨ s.hphase.inInit = true)) ∨
       (∃ a, nextEvent s = .sampler a ∧ s.lock = .sampler) ∨
       (nextEvent s = .busPort ∧ (s.lock ≠ .free ∨ s.hphase.inInit = true))))

/-- R24, R25, R26, R293: BUS and the parameters never change, and on a READY block neither LIFE, CFG, CAL nor
VARIANT does. The parameters stand in the model's field `par` (log 2), and the premise `Inv` is the model's invariant
(log 11, 13, 25). -/
def Obligations.ConfigurationIsImmutable : Prop :=
  ∀ s t : State, step s = .next t →
    t.bus = s.bus ∧ t.par = s.par ∧
    (Inv s → s.life = .ready →
      t.life = .ready ∧ t.cfg = s.cfg ∧ t.cal = s.cal ∧ t.variant = s.variant)
end

