-- ==== Sys2Proof/Laws/Bits.lean ====
section
/-! SUPPORT. Bit fields as numbers: concatenation, extraction, sign and single bits, and what each operand
form of Machine/Operands.lean is as a number. -/

namespace Sys2Proof.Machine

theorem toNat_append_eq {n m : Nat} (x : BitVec n) (y : BitVec m) :
    (x ++ y).toNat = x.toNat * 2 ^ m + y.toNat := by
  rw [BitVec.toNat_append, Nat.shiftLeft_eq, Nat.mul_comm, ← Nat.two_pow_add_eq_or_of_lt y.isLt]

theorem toNat_extract_eq {n : Nat} (w : BitVec n) (hi lo : Nat) :
    (w.extractLsb hi lo).toNat = w.toNat / 2 ^ lo % 2 ^ (hi - lo + 1) := by
  simp [BitVec.extractLsb_toNat, Nat.shiftRight_eq_div_pow]

theorem getLsbD_eq {n : Nat} (v : BitVec n) (k : Nat) :
    v.getLsbD k = decide (v.toNat / 2 ^ k % 2 = 1) := by
  simp [BitVec.getLsbD, Nat.testBit_eq_decide_div_mod_eq]

theorem toInt_eq_sextNat {n : Nat} (v : BitVec n) (hn : 0 < n) : v.toInt = sextNat n v.toNat := by
  obtain ⟨m, rfl⟩ : ∃ m, n = m + 1 := ⟨n - 1, by omega⟩
  have hp : (2 : Nat) ^ (m + 1) = 2 * 2 ^ m := by rw [Nat.pow_succ]; omega
  have hc : ((2 ^ (m + 1) : Nat) : Int) = (2 : Int) ^ (m + 1) := by push_cast; rfl
  unfold sextNat
  rw [BitVec.toInt_eq_toNat_cond, hc, Nat.add_sub_cancel]
  by_cases h : 2 * v.toNat < 2 ^ (m + 1)
  · rw [if_pos h, if_neg (by omega)]
  · rw [if_neg h, if_pos (by omega)]

theorem ne_zero_iff_toNat {n : Nat} (v : BitVec n) : v ≠ 0 ↔ v.toNat ≠ 0 := by
  rw [ne_eq, ne_eq, not_iff_not]
  exact ⟨fun h => by simp [h], fun h => BitVec.eq_of_toNat_eq (by simpa using h)⟩

theorem le16_toNat (lo hi : Byte) : (le16 lo hi).toNat = lo.toNat + 256 * hi.toNat := by
  rw [le16, toNat_append_eq]; omega

theorem nibble12_toNat (hi : Byte) (lo : BitVec 4) : (nibble12 hi lo).toNat = 16 * hi.toNat + lo.toNat := by
  rw [nibble12, toNat_append_eq]; omega

theorem raw20_toNat (a b c : Byte) :
    (raw20 a b c).toNat = 4096 * a.toNat + 16 * b.toNat + c.toNat / 16 := by
  have hc := c.isLt
  rw [raw20, toNat_append_eq, toNat_append_eq, toNat_extract_eq]; omega

theorem be16_toNat (a b : Byte) : (be16 a b).toNat = 256 * a.toNat + b.toNat := by
  rw [be16, toNat_append_eq]; omega

theorem byteAt_of_lt {l : List Byte} {i : Nat} (h : i < l.length) : byteAt l i = l[i] := by
  simp [byteAt, h]

/-- A SPI read's address byte as R90 writes it. -/
theorem spi_read_byte (a : BitVec 7) : (1#1 ++ a : BitVec 8) = 0x80#8 ||| a.setWidth 8 := by
  revert a; decide

/-- A SPI write's address byte as R91 writes it. -/
theorem spi_write_byte (a : Byte) : (0#1 ++ a.setWidth 7 : BitVec 8) = a &&& 0x7F#8 := by
  revert a; decide

/-- The STATUS word as a number (R96). -/
theorem statWord_toNat (s : State) :
    (statWord s).toNat = (sErrCode s.sErr).toNat * 2 ^ 16 + (BitVec.ofBool s.sErr.isSome).toNat * 2 ^ 9 +
      (devModeBit s.devmode).toNat * 2 ^ 8 + (BitVec.ofBool s.mbox.isSome).toNat * 2 ^ 7 +
      (BitVec.ofBool s.sActive).toNat * 2 ^ 6 + (phaseBits s.sPhase).toNat * 2 ^ 4 +
      (seqBits s.seq).toNat * 2 ^ 2 + (lifeBits s.life).toNat := by
  unfold statWord
  simp only [toNat_append_eq, BitVec.toNat_ofNat]
  omega

end Sys2Proof.Machine
end

