-- ==== Sys2Proof/Laws/State.lean ====
section
/-! SUPPORT. What each shared update of State leaves in each field, by rfl, so that no proof unfolds an
update. -/

namespace Sys2Proof.Machine

variable (s : State)

/-! ### respond -/

@[simp] theorem respond_life (f : Nat → Resp) : (respond f s).life = s.life := rfl
@[simp] theorem respond_seq (f : Nat → Resp) : (respond f s).seq = s.seq := rfl
@[simp] theorem respond_pwait (f : Nat → Resp) : (respond f s).pwait = s.pwait := rfl
@[simp] theorem respond_cfg (f : Nat → Resp) : (respond f s).cfg = s.cfg := rfl
@[simp] theorem respond_bus (f : Nat → Resp) : (respond f s).bus = s.bus := rfl
@[simp] theorem respond_cal (f : Nat → Resp) : (respond f s).cal = s.cal := rfl
@[simp] theorem respond_variant (f : Nat → Resp) : (respond f s).variant = s.variant := rfl
@[simp] theorem respond_devmode (f : Nat → Resp) : (respond f s).devmode = s.devmode := rfl
@[simp] theorem respond_lock (f : Nat → Resp) : (respond f s).lock = s.lock := rfl
@[simp] theorem respond_cyc (f : Nat → Resp) : (respond f s).cyc = s.cyc := rfl
@[simp] theorem respond_tfine (f : Nat → Resp) : (respond f s).tfine = s.tfine := rfl
@[simp] theorem respond_tfineV (f : Nat → Resp) : (respond f s).tfineV = s.tfineV := rfl
@[simp] theorem respond_sActive (f : Nat → Resp) : (respond f s).sActive = s.sActive := rfl
@[simp] theorem respond_sCancel (f : Nat → Resp) : (respond f s).sCancel = s.sCancel := rfl
@[simp] theorem respond_sPhase (f : Nat → Resp) : (respond f s).sPhase = s.sPhase := rfl
@[simp] theorem respond_sInterval (f : Nat → Resp) : (respond f s).sInterval = s.sInterval := rfl
@[simp] theorem respond_sPending (f : Nat → Resp) : (respond f s).sPending = s.sPending := rfl
@[simp] theorem respond_sErr (f : Nat → Resp) : (respond f s).sErr = s.sErr := rfl
@[simp] theorem respond_mbox (f : Nat → Resp) : (respond f s).mbox = s.mbox := rfl
@[simp] theorem respond_cmdBusy (f : Nat → Resp) : (respond f s).cmdBusy = false := rfl
@[simp] theorem respond_resp (f : Nat → Resp) : (respond f s).resp = f s.env.fresh := rfl
@[simp] theorem respond_buserr (f : Nat → Resp) : (respond f s).buserr = s.buserr := rfl
@[simp] theorem respond_cresp (f : Nat → Resp) : (respond f s).cresp = s.cresp := rfl
@[simp] theorem respond_timer (f : Nat → Resp) : (respond f s).timer = s.timer := rfl
@[simp] theorem respond_par (f : Nat → Resp) : (respond f s).par = s.par := rfl
@[simp] theorem respond_cmd (f : Nat → Resp) : (respond f s).cmd = s.cmd := rfl
@[simp] theorem respond_hphase (f : Nat → Resp) : (respond f s).hphase = .entry := rfl
@[simp] theorem respond_consReq (f : Nat → Resp) : (respond f s).consReq = s.consReq := rfl
@[simp] theorem respond_xfer (f : Nat → Resp) : (respond f s).xfer = s.xfer := rfl
@[simp] theorem respond_env (f : Nat → Resp) : (respond f s).env = { s.env with fresh := s.env.fresh + 1 } := rfl

/-! ### respondCode -/

@[simp] theorem respondCode_life (c : Code) : (respondCode c s).life = s.life := rfl
@[simp] theorem respondCode_seq (c : Code) : (respondCode c s).seq = s.seq := rfl
@[simp] theorem respondCode_pwait (c : Code) : (respondCode c s).pwait = s.pwait := rfl
@[simp] theorem respondCode_cfg (c : Code) : (respondCode c s).cfg = s.cfg := rfl
@[simp] theorem respondCode_bus (c : Code) : (respondCode c s).bus = s.bus := rfl
@[simp] theorem respondCode_cal (c : Code) : (respondCode c s).cal = s.cal := rfl
@[simp] theorem respondCode_variant (c : Code) : (respondCode c s).variant = s.variant := rfl
@[simp] theorem respondCode_devmode (c : Code) : (respondCode c s).devmode = s.devmode := rfl
@[simp] theorem respondCode_lock (c : Code) : (respondCode c s).lock = s.lock := rfl
@[simp] theorem respondCode_cyc (c : Code) : (respondCode c s).cyc = s.cyc := rfl
@[simp] theorem respondCode_tfine (c : Code) : (respondCode c s).tfine = s.tfine := rfl
@[simp] theorem respondCode_tfineV (c : Code) : (respondCode c s).tfineV = s.tfineV := rfl
@[simp] theorem respondCode_sActive (c : Code) : (respondCode c s).sActive = s.sActive := rfl
@[simp] theorem respondCode_sCancel (c : Code) : (respondCode c s).sCancel = s.sCancel := rfl
@[simp] theorem respondCode_sPhase (c : Code) : (respondCode c s).sPhase = s.sPhase := rfl
@[simp] theorem respondCode_sInterval (c : Code) : (respondCode c s).sInterval = s.sInterval := rfl
@[simp] theorem respondCode_sPending (c : Code) : (respondCode c s).sPending = s.sPending := rfl
@[simp] theorem respondCode_sErr (c : Code) : (respondCode c s).sErr = s.sErr := rfl
@[simp] theorem respondCode_mbox (c : Code) : (respondCode c s).mbox = s.mbox := rfl
@[simp] theorem respondCode_cmdBusy (c : Code) : (respondCode c s).cmdBusy = false := rfl
@[simp] theorem respondCode_resp (c : Code) : (respondCode c s).resp = Resp.blank s.env.fresh c := rfl
@[simp] theorem respondCode_buserr (c : Code) : (respondCode c s).buserr = s.buserr := rfl
@[simp] theorem respondCode_cresp (c : Code) : (respondCode c s).cresp = s.cresp := rfl
@[simp] theorem respondCode_timer (c : Code) : (respondCode c s).timer = s.timer := rfl
@[simp] theorem respondCode_par (c : Code) : (respondCode c s).par = s.par := rfl
@[simp] theorem respondCode_cmd (c : Code) : (respondCode c s).cmd = s.cmd := rfl
@[simp] theorem respondCode_hphase (c : Code) : (respondCode c s).hphase = .entry := rfl
@[simp] theorem respondCode_consReq (c : Code) : (respondCode c s).consReq = s.consReq := rfl
@[simp] theorem respondCode_xfer (c : Code) : (respondCode c s).xfer = s.xfer := rfl
@[simp] theorem respondCode_env (c : Code) : (respondCode c s).env = { s.env with fresh := s.env.fresh + 1 } := rfl

/-! ### respondCons -/

@[simp] theorem respondCons_life (f : Nat → Resp) : (respondCons f s).life = s.life := rfl
@[simp] theorem respondCons_seq (f : Nat → Resp) : (respondCons f s).seq = s.seq := rfl
@[simp] theorem respondCons_pwait (f : Nat → Resp) : (respondCons f s).pwait = s.pwait := rfl
@[simp] theorem respondCons_cfg (f : Nat → Resp) : (respondCons f s).cfg = s.cfg := rfl
@[simp] theorem respondCons_bus (f : Nat → Resp) : (respondCons f s).bus = s.bus := rfl
@[simp] theorem respondCons_cal (f : Nat → Resp) : (respondCons f s).cal = s.cal := rfl
@[simp] theorem respondCons_variant (f : Nat → Resp) : (respondCons f s).variant = s.variant := rfl
@[simp] theorem respondCons_devmode (f : Nat → Resp) : (respondCons f s).devmode = s.devmode := rfl
@[simp] theorem respondCons_lock (f : Nat → Resp) : (respondCons f s).lock = s.lock := rfl
@[simp] theorem respondCons_cyc (f : Nat → Resp) : (respondCons f s).cyc = s.cyc := rfl
@[simp] theorem respondCons_tfine (f : Nat → Resp) : (respondCons f s).tfine = s.tfine := rfl
@[simp] theorem respondCons_tfineV (f : Nat → Resp) : (respondCons f s).tfineV = s.tfineV := rfl
@[simp] theorem respondCons_sActive (f : Nat → Resp) : (respondCons f s).sActive = s.sActive := rfl
@[simp] theorem respondCons_sCancel (f : Nat → Resp) : (respondCons f s).sCancel = s.sCancel := rfl
@[simp] theorem respondCons_sPhase (f : Nat → Resp) : (respondCons f s).sPhase = s.sPhase := rfl
@[simp] theorem respondCons_sInterval (f : Nat → Resp) : (respondCons f s).sInterval = s.sInterval := rfl
@[simp] theorem respondCons_sPending (f : Nat → Resp) : (respondCons f s).sPending = s.sPending := rfl
@[simp] theorem respondCons_sErr (f : Nat → Resp) : (respondCons f s).sErr = s.sErr := rfl
@[simp] theorem respondCons_mbox (f : Nat → Resp) : (respondCons f s).mbox = s.mbox := rfl
@[simp] theorem respondCons_cmdBusy (f : Nat → Resp) : (respondCons f s).cmdBusy = s.cmdBusy := rfl
@[simp] theorem respondCons_resp (f : Nat → Resp) : (respondCons f s).resp = s.resp := rfl
@[simp] theorem respondCons_buserr (f : Nat → Resp) : (respondCons f s).buserr = s.buserr := rfl
@[simp] theorem respondCons_cresp (f : Nat → Resp) : (respondCons f s).cresp = f s.env.fresh := rfl
@[simp] theorem respondCons_timer (f : Nat → Resp) : (respondCons f s).timer = s.timer := rfl
@[simp] theorem respondCons_par (f : Nat → Resp) : (respondCons f s).par = s.par := rfl
@[simp] theorem respondCons_cmd (f : Nat → Resp) : (respondCons f s).cmd = s.cmd := rfl
@[simp] theorem respondCons_hphase (f : Nat → Resp) : (respondCons f s).hphase = s.hphase := rfl
@[simp] theorem respondCons_consReq (f : Nat → Resp) : (respondCons f s).consReq = none := rfl
@[simp] theorem respondCons_xfer (f : Nat → Resp) : (respondCons f s).xfer = s.xfer := rfl
@[simp] theorem respondCons_env (f : Nat → Resp) :
    (respondCons f s).env =
      { s.env with fresh := s.env.fresh + 1 } := rfl

/-! ### refuseCons -/

@[simp] theorem refuseCons_life (r : List Byte) : (refuseCons r s).life = s.life := rfl
@[simp] theorem refuseCons_seq (r : List Byte) : (refuseCons r s).seq = s.seq := rfl
@[simp] theorem refuseCons_pwait (r : List Byte) : (refuseCons r s).pwait = s.pwait := rfl
@[simp] theorem refuseCons_cfg (r : List Byte) : (refuseCons r s).cfg = s.cfg := rfl
@[simp] theorem refuseCons_bus (r : List Byte) : (refuseCons r s).bus = s.bus := rfl
@[simp] theorem refuseCons_cal (r : List Byte) : (refuseCons r s).cal = s.cal := rfl
@[simp] theorem refuseCons_variant (r : List Byte) : (refuseCons r s).variant = s.variant := rfl
@[simp] theorem refuseCons_devmode (r : List Byte) : (refuseCons r s).devmode = s.devmode := rfl
@[simp] theorem refuseCons_lock (r : List Byte) : (refuseCons r s).lock = s.lock := rfl
@[simp] theorem refuseCons_cyc (r : List Byte) : (refuseCons r s).cyc = s.cyc := rfl
@[simp] theorem refuseCons_tfine (r : List Byte) : (refuseCons r s).tfine = s.tfine := rfl
@[simp] theorem refuseCons_tfineV (r : List Byte) : (refuseCons r s).tfineV = s.tfineV := rfl
@[simp] theorem refuseCons_sActive (r : List Byte) : (refuseCons r s).sActive = s.sActive := rfl
@[simp] theorem refuseCons_sCancel (r : List Byte) : (refuseCons r s).sCancel = s.sCancel := rfl
@[simp] theorem refuseCons_sPhase (r : List Byte) : (refuseCons r s).sPhase = s.sPhase := rfl
@[simp] theorem refuseCons_sInterval (r : List Byte) : (refuseCons r s).sInterval = s.sInterval := rfl
@[simp] theorem refuseCons_sPending (r : List Byte) : (refuseCons r s).sPending = s.sPending := rfl
@[simp] theorem refuseCons_sErr (r : List Byte) : (refuseCons r s).sErr = s.sErr := rfl
@[simp] theorem refuseCons_mbox (r : List Byte) : (refuseCons r s).mbox = s.mbox := rfl
@[simp] theorem refuseCons_cmdBusy (r : List Byte) : (refuseCons r s).cmdBusy = s.cmdBusy := rfl
@[simp] theorem refuseCons_resp (r : List Byte) : (refuseCons r s).resp = s.resp := rfl
@[simp] theorem refuseCons_buserr (r : List Byte) : (refuseCons r s).buserr = s.buserr := rfl
@[simp] theorem refuseCons_timer (r : List Byte) : (refuseCons r s).timer = s.timer := rfl
@[simp] theorem refuseCons_par (r : List Byte) : (refuseCons r s).par = s.par := rfl
@[simp] theorem refuseCons_cmd (r : List Byte) : (refuseCons r s).cmd = s.cmd := rfl
@[simp] theorem refuseCons_hphase (r : List Byte) : (refuseCons r s).hphase = s.hphase := rfl
@[simp] theorem refuseCons_xfer (r : List Byte) : (refuseCons r s).xfer = s.xfer := rfl
@[simp] theorem refuseCons_consReq (r : List Byte) : (refuseCons r s).consReq = s.consReq := rfl
@[simp] theorem refuseCons_cresp (r : List Byte) :
    (refuseCons r s).cresp = .blank s.env.fresh .illegalCommand := rfl
@[simp] theorem refuseCons_env (r : List Byte) :
    (refuseCons r s).env = { s.env with consIn := r, fresh := s.env.fresh + 1 } := rfl

/-! ### acquire -/

@[simp] theorem acquire_life (o : Owner) : (acquire o s).life = s.life := rfl
@[simp] theorem acquire_seq (o : Owner) : (acquire o s).seq = s.seq := rfl
@[simp] theorem acquire_pwait (o : Owner) : (acquire o s).pwait = s.pwait := rfl
@[simp] theorem acquire_cfg (o : Owner) : (acquire o s).cfg = s.cfg := rfl
@[simp] theorem acquire_bus (o : Owner) : (acquire o s).bus = s.bus := rfl
@[simp] theorem acquire_cal (o : Owner) : (acquire o s).cal = s.cal := rfl
@[simp] theorem acquire_variant (o : Owner) : (acquire o s).variant = s.variant := rfl
@[simp] theorem acquire_devmode (o : Owner) : (acquire o s).devmode = s.devmode := rfl
@[simp] theorem acquire_lock (o : Owner) : (acquire o s).lock = o := rfl
@[simp] theorem acquire_cyc (o : Owner) : (acquire o s).cyc = .unwritten := rfl
@[simp] theorem acquire_tfine (o : Owner) : (acquire o s).tfine = s.tfine := rfl
@[simp] theorem acquire_tfineV (o : Owner) : (acquire o s).tfineV = s.tfineV := rfl
@[simp] theorem acquire_sActive (o : Owner) : (acquire o s).sActive = s.sActive := rfl
@[simp] theorem acquire_sCancel (o : Owner) : (acquire o s).sCancel = s.sCancel := rfl
@[simp] theorem acquire_sPhase (o : Owner) : (acquire o s).sPhase = s.sPhase := rfl
@[simp] theorem acquire_sInterval (o : Owner) : (acquire o s).sInterval = s.sInterval := rfl
@[simp] theorem acquire_sPending (o : Owner) : (acquire o s).sPending = s.sPending := rfl
@[simp] theorem acquire_sErr (o : Owner) : (acquire o s).sErr = s.sErr := rfl
@[simp] theorem acquire_mbox (o : Owner) : (acquire o s).mbox = s.mbox := rfl
@[simp] theorem acquire_cmdBusy (o : Owner) : (acquire o s).cmdBusy = s.cmdBusy := rfl
@[simp] theorem acquire_resp (o : Owner) : (acquire o s).resp = s.resp := rfl
@[simp] theorem acquire_buserr (o : Owner) : (acquire o s).buserr = s.buserr := rfl
@[simp] theorem acquire_cresp (o : Owner) : (acquire o s).cresp = s.cresp := rfl
@[simp] theorem acquire_timer (o : Owner) : (acquire o s).timer = s.timer := rfl
@[simp] theorem acquire_par (o : Owner) : (acquire o s).par = s.par := rfl
@[simp] theorem acquire_cmd (o : Owner) : (acquire o s).cmd = s.cmd := rfl
@[simp] theorem acquire_hphase (o : Owner) : (acquire o s).hphase = s.hphase := rfl
@[simp] theorem acquire_consReq (o : Owner) : (acquire o s).consReq = s.consReq := rfl
@[simp] theorem acquire_xfer (o : Owner) : (acquire o s).xfer = s.xfer := rfl
@[simp] theorem acquire_env (o : Owner) : (acquire o s).env = s.env := rfl

/-! ### recordTxn -/

@[simp] theorem recordTxn_life (f : BusFrame) : (recordTxn f s).life = s.life := rfl
@[simp] theorem recordTxn_seq (f : BusFrame) : (recordTxn f s).seq = s.seq := rfl
@[simp] theorem recordTxn_pwait (f : BusFrame) : (recordTxn f s).pwait = s.pwait := rfl
@[simp] theorem recordTxn_cfg (f : BusFrame) : (recordTxn f s).cfg = s.cfg := rfl
@[simp] theorem recordTxn_bus (f : BusFrame) : (recordTxn f s).bus = s.bus := rfl
@[simp] theorem recordTxn_cal (f : BusFrame) : (recordTxn f s).cal = s.cal := rfl
@[simp] theorem recordTxn_variant (f : BusFrame) : (recordTxn f s).variant = s.variant := rfl
@[simp] theorem recordTxn_devmode (f : BusFrame) : (recordTxn f s).devmode = s.devmode := rfl
@[simp] theorem recordTxn_lock (f : BusFrame) : (recordTxn f s).lock = s.lock := rfl
@[simp] theorem recordTxn_cyc (f : BusFrame) : (recordTxn f s).cyc = s.cyc := rfl
@[simp] theorem recordTxn_tfine (f : BusFrame) : (recordTxn f s).tfine = s.tfine := rfl
@[simp] theorem recordTxn_tfineV (f : BusFrame) : (recordTxn f s).tfineV = s.tfineV := rfl
@[simp] theorem recordTxn_sActive (f : BusFrame) : (recordTxn f s).sActive = s.sActive := rfl
@[simp] theorem recordTxn_sCancel (f : BusFrame) : (recordTxn f s).sCancel = s.sCancel := rfl
@[simp] theorem recordTxn_sPhase (f : BusFrame) : (recordTxn f s).sPhase = s.sPhase := rfl
@[simp] theorem recordTxn_sInterval (f : BusFrame) : (recordTxn f s).sInterval = s.sInterval := rfl
@[simp] theorem recordTxn_sPending (f : BusFrame) : (recordTxn f s).sPending = s.sPending := rfl
@[simp] theorem recordTxn_sErr (f : BusFrame) : (recordTxn f s).sErr = s.sErr := rfl
@[simp] theorem recordTxn_mbox (f : BusFrame) : (recordTxn f s).mbox = s.mbox := rfl
@[simp] theorem recordTxn_cmdBusy (f : BusFrame) : (recordTxn f s).cmdBusy = s.cmdBusy := rfl
@[simp] theorem recordTxn_resp (f : BusFrame) : (recordTxn f s).resp = s.resp := rfl
@[simp] theorem recordTxn_buserr (f : BusFrame) : (recordTxn f s).buserr = s.buserr := rfl
@[simp] theorem recordTxn_cresp (f : BusFrame) : (recordTxn f s).cresp = s.cresp := rfl
@[simp] theorem recordTxn_timer (f : BusFrame) : (recordTxn f s).timer = s.timer := rfl
@[simp] theorem recordTxn_par (f : BusFrame) : (recordTxn f s).par = s.par := rfl
@[simp] theorem recordTxn_cmd (f : BusFrame) : (recordTxn f s).cmd = s.cmd := rfl
@[simp] theorem recordTxn_hphase (f : BusFrame) : (recordTxn f s).hphase = s.hphase := rfl
@[simp] theorem recordTxn_consReq (f : BusFrame) : (recordTxn f s).consReq = s.consReq := rfl
@[simp] theorem recordTxn_xfer (f : BusFrame) : (recordTxn f s).xfer = s.xfer := rfl
@[simp] theorem recordTxn_env (f : BusFrame) :
    (recordTxn f s).env =
      { s.env with busIn := s.env.busIn.tail, hist := ⟨f, answerOf f s⟩ :: s.env.hist } := rfl

/-! ### abortTransport -/

@[simp] theorem abortTransport_life (e : BusErr) : (abortTransport e s).life = s.life := rfl
@[simp] theorem abortTransport_seq (e : BusErr) : (abortTransport e s).seq = s.seq := rfl
@[simp] theorem abortTransport_pwait (e : BusErr) : (abortTransport e s).pwait = s.pwait := rfl
@[simp] theorem abortTransport_cfg (e : BusErr) : (abortTransport e s).cfg = s.cfg := rfl
@[simp] theorem abortTransport_bus (e : BusErr) : (abortTransport e s).bus = s.bus := rfl
@[simp] theorem abortTransport_cal (e : BusErr) : (abortTransport e s).cal = s.cal := rfl
@[simp] theorem abortTransport_variant (e : BusErr) : (abortTransport e s).variant = s.variant := rfl
@[simp] theorem abortTransport_devmode (e : BusErr) : (abortTransport e s).devmode = s.devmode := rfl
@[simp] theorem abortTransport_lock (e : BusErr) : (abortTransport e s).lock = s.lock := rfl
@[simp] theorem abortTransport_cyc (e : BusErr) : (abortTransport e s).cyc = s.cyc := rfl
@[simp] theorem abortTransport_tfine (e : BusErr) : (abortTransport e s).tfine = s.tfine := rfl
@[simp] theorem abortTransport_tfineV (e : BusErr) : (abortTransport e s).tfineV = s.tfineV := rfl
@[simp] theorem abortTransport_sActive (e : BusErr) : (abortTransport e s).sActive = s.sActive := rfl
@[simp] theorem abortTransport_sCancel (e : BusErr) : (abortTransport e s).sCancel = s.sCancel := rfl
@[simp] theorem abortTransport_sPhase (e : BusErr) : (abortTransport e s).sPhase = s.sPhase := rfl
@[simp] theorem abortTransport_sInterval (e : BusErr) : (abortTransport e s).sInterval = s.sInterval := rfl
@[simp] theorem abortTransport_sPending (e : BusErr) : (abortTransport e s).sPending = s.sPending := rfl
@[simp] theorem abortTransport_sErr (e : BusErr) : (abortTransport e s).sErr = s.sErr := rfl
@[simp] theorem abortTransport_mbox (e : BusErr) : (abortTransport e s).mbox = s.mbox := rfl
@[simp] theorem abortTransport_cmdBusy (e : BusErr) : (abortTransport e s).cmdBusy = s.cmdBusy := rfl
@[simp] theorem abortTransport_resp (e : BusErr) : (abortTransport e s).resp = s.resp := rfl
@[simp] theorem abortTransport_buserr (e : BusErr) : (abortTransport e s).buserr = e := rfl
@[simp] theorem abortTransport_cresp (e : BusErr) : (abortTransport e s).cresp = s.cresp := rfl
@[simp] theorem abortTransport_timer (e : BusErr) : (abortTransport e s).timer = s.timer := rfl
@[simp] theorem abortTransport_par (e : BusErr) : (abortTransport e s).par = s.par := rfl
@[simp] theorem abortTransport_cmd (e : BusErr) : (abortTransport e s).cmd = s.cmd := rfl
@[simp] theorem abortTransport_hphase (e : BusErr) : (abortTransport e s).hphase = s.hphase := rfl
@[simp] theorem abortTransport_consReq (e : BusErr) : (abortTransport e s).consReq = s.consReq := rfl
@[simp] theorem abortTransport_xfer (e : BusErr) : (abortTransport e s).xfer = s.xfer := rfl
@[simp] theorem abortTransport_env (e : BusErr) : (abortTransport e s).env = s.env := rfl

/-! ### abortCycle -/

@[simp] theorem abortCycle_life : (abortCycle s).life = s.life := rfl
@[simp] theorem abortCycle_seq : (abortCycle s).seq = .sleep := rfl
@[simp] theorem abortCycle_pwait : (abortCycle s).pwait = false := rfl
@[simp] theorem abortCycle_cfg : (abortCycle s).cfg = s.cfg := rfl
@[simp] theorem abortCycle_bus : (abortCycle s).bus = s.bus := rfl
@[simp] theorem abortCycle_cal : (abortCycle s).cal = s.cal := rfl
@[simp] theorem abortCycle_variant : (abortCycle s).variant = s.variant := rfl
@[simp] theorem abortCycle_devmode : (abortCycle s).devmode = s.devmode := rfl
@[simp] theorem abortCycle_lock : (abortCycle s).lock = s.lock := rfl
@[simp] theorem abortCycle_cyc : (abortCycle s).cyc = .unwritten := rfl
@[simp] theorem abortCycle_tfine : (abortCycle s).tfine = s.tfine := rfl
@[simp] theorem abortCycle_tfineV : (abortCycle s).tfineV = s.tfineV := rfl
@[simp] theorem abortCycle_sActive : (abortCycle s).sActive = s.sActive := rfl
@[simp] theorem abortCycle_sCancel : (abortCycle s).sCancel = s.sCancel := rfl
@[simp] theorem abortCycle_sPhase : (abortCycle s).sPhase = s.sPhase := rfl
@[simp] theorem abortCycle_sInterval : (abortCycle s).sInterval = s.sInterval := rfl
@[simp] theorem abortCycle_sPending : (abortCycle s).sPending = s.sPending := rfl
@[simp] theorem abortCycle_sErr : (abortCycle s).sErr = s.sErr := rfl
@[simp] theorem abortCycle_mbox : (abortCycle s).mbox = s.mbox := rfl
@[simp] theorem abortCycle_cmdBusy : (abortCycle s).cmdBusy = s.cmdBusy := rfl
@[simp] theorem abortCycle_resp : (abortCycle s).resp = s.resp := rfl
@[simp] theorem abortCycle_buserr : (abortCycle s).buserr = s.buserr := rfl
@[simp] theorem abortCycle_cresp : (abortCycle s).cresp = s.cresp := rfl
@[simp] theorem abortCycle_timer : (abortCycle s).timer = s.timer := rfl
@[simp] theorem abortCycle_par : (abortCycle s).par = s.par := rfl
@[simp] theorem abortCycle_cmd : (abortCycle s).cmd = s.cmd := rfl
@[simp] theorem abortCycle_hphase : (abortCycle s).hphase = s.hphase := rfl
@[simp] theorem abortCycle_consReq : (abortCycle s).consReq = s.consReq := rfl
@[simp] theorem abortCycle_xfer : (abortCycle s).xfer = s.xfer := rfl
@[simp] theorem abortCycle_env : (abortCycle s).env = s.env := rfl

/-! ### measured -/

@[simp] theorem measured_life (d : List Byte) : (measured d s).life = s.life := rfl
@[simp] theorem measured_seq (d : List Byte) : (measured d s).seq = .sleep := rfl
@[simp] theorem measured_pwait (d : List Byte) : (measured d s).pwait = s.pwait := rfl
@[simp] theorem measured_cfg (d : List Byte) : (measured d s).cfg = s.cfg := rfl
@[simp] theorem measured_bus (d : List Byte) : (measured d s).bus = s.bus := rfl
@[simp] theorem measured_cal (d : List Byte) : (measured d s).cal = s.cal := rfl
@[simp] theorem measured_variant (d : List Byte) : (measured d s).variant = s.variant := rfl
@[simp] theorem measured_devmode (d : List Byte) : (measured d s).devmode = .sleep := rfl
@[simp] theorem measured_lock (d : List Byte) : (measured d s).lock = s.lock := rfl
@[simp] theorem measured_cyc (d : List Byte) : (measured d s).cyc = measuredRegs d s := rfl
@[simp] theorem measured_tfine (d : List Byte) : (measured d s).tfine = s.tfine := rfl
@[simp] theorem measured_tfineV (d : List Byte) : (measured d s).tfineV = s.tfineV := rfl
@[simp] theorem measured_sActive (d : List Byte) : (measured d s).sActive = s.sActive := rfl
@[simp] theorem measured_sCancel (d : List Byte) : (measured d s).sCancel = s.sCancel := rfl
@[simp] theorem measured_sPhase (d : List Byte) : (measured d s).sPhase = s.sPhase := rfl
@[simp] theorem measured_sInterval (d : List Byte) : (measured d s).sInterval = s.sInterval := rfl
@[simp] theorem measured_sPending (d : List Byte) : (measured d s).sPending = s.sPending := rfl
@[simp] theorem measured_sErr (d : List Byte) : (measured d s).sErr = s.sErr := rfl
@[simp] theorem measured_mbox (d : List Byte) : (measured d s).mbox = s.mbox := rfl
@[simp] theorem measured_cmdBusy (d : List Byte) : (measured d s).cmdBusy = s.cmdBusy := rfl
@[simp] theorem measured_resp (d : List Byte) : (measured d s).resp = s.resp := rfl
@[simp] theorem measured_buserr (d : List Byte) : (measured d s).buserr = s.buserr := rfl
@[simp] theorem measured_cresp (d : List Byte) : (measured d s).cresp = s.cresp := rfl
@[simp] theorem measured_timer (d : List Byte) : (measured d s).timer = s.timer := rfl
@[simp] theorem measured_par (d : List Byte) : (measured d s).par = s.par := rfl
@[simp] theorem measured_cmd (d : List Byte) : (measured d s).cmd = s.cmd := rfl
@[simp] theorem measured_hphase (d : List Byte) : (measured d s).hphase = s.hphase := rfl
@[simp] theorem measured_consReq (d : List Byte) : (measured d s).consReq = s.consReq := rfl
@[simp] theorem measured_xfer (d : List Byte) : (measured d s).xfer = s.xfer := rfl
@[simp] theorem measured_env (d : List Byte) : (measured d s).env = { s.env with fresh := s.env.fresh + 1 } := rfl

/-! ### terminate -/

@[simp] theorem terminate_life (err : Option SErr) : (terminate err s).life = s.life := rfl
@[simp] theorem terminate_seq (err : Option SErr) : (terminate err s).seq = s.seq := rfl
@[simp] theorem terminate_pwait (err : Option SErr) : (terminate err s).pwait = s.pwait := rfl
@[simp] theorem terminate_cfg (err : Option SErr) : (terminate err s).cfg = s.cfg := rfl
@[simp] theorem terminate_bus (err : Option SErr) : (terminate err s).bus = s.bus := rfl
@[simp] theorem terminate_cal (err : Option SErr) : (terminate err s).cal = s.cal := rfl
@[simp] theorem terminate_variant (err : Option SErr) : (terminate err s).variant = s.variant := rfl
@[simp] theorem terminate_devmode (err : Option SErr) : (terminate err s).devmode = s.devmode := rfl
@[simp] theorem terminate_lock (err : Option SErr) : (terminate err s).lock = s.lock := rfl
@[simp] theorem terminate_cyc (err : Option SErr) : (terminate err s).cyc = s.cyc := rfl
@[simp] theorem terminate_tfine (err : Option SErr) : (terminate err s).tfine = s.tfine := rfl
@[simp] theorem terminate_tfineV (err : Option SErr) : (terminate err s).tfineV = s.tfineV := rfl
@[simp] theorem terminate_sActive (err : Option SErr) : (terminate err s).sActive = false := rfl
@[simp] theorem terminate_sCancel (err : Option SErr) : (terminate err s).sCancel = false := rfl
@[simp] theorem terminate_sPhase (err : Option SErr) : (terminate err s).sPhase = .idle := rfl
@[simp] theorem terminate_sInterval (err : Option SErr) : (terminate err s).sInterval = s.sInterval := rfl
@[simp] theorem terminate_sPending (err : Option SErr) : (terminate err s).sPending = none := rfl
@[simp] theorem terminate_sErr (err : Option SErr) :
    (terminate err s).sErr =
      if err.isSome then err else s.sErr := rfl
@[simp] theorem terminate_mbox (err : Option SErr) : (terminate err s).mbox = s.mbox := rfl
@[simp] theorem terminate_cmdBusy (err : Option SErr) : (terminate err s).cmdBusy = s.cmdBusy := rfl
@[simp] theorem terminate_resp (err : Option SErr) : (terminate err s).resp = s.resp := rfl
@[simp] theorem terminate_buserr (err : Option SErr) : (terminate err s).buserr = s.buserr := rfl
@[simp] theorem terminate_cresp (err : Option SErr) : (terminate err s).cresp = s.cresp := rfl
@[simp] theorem terminate_timer (err : Option SErr) : (terminate err s).timer = s.timer := rfl
@[simp] theorem terminate_par (err : Option SErr) : (terminate err s).par = s.par := rfl
@[simp] theorem terminate_cmd (err : Option SErr) : (terminate err s).cmd = s.cmd := rfl
@[simp] theorem terminate_hphase (err : Option SErr) : (terminate err s).hphase = s.hphase := rfl
@[simp] theorem terminate_consReq (err : Option SErr) : (terminate err s).consReq = s.consReq := rfl
@[simp] theorem terminate_xfer (err : Option SErr) : (terminate err s).xfer = s.xfer := rfl
@[simp] theorem terminate_env (err : Option SErr) : (terminate err s).env = s.env := rfl

/-! ### launch -/

@[simp] theorem launch_life (ms : BitVec 24) : (launch ms s).life = s.life := rfl
@[simp] theorem launch_seq (ms : BitVec 24) : (launch ms s).seq = s.seq := rfl
@[simp] theorem launch_pwait (ms : BitVec 24) : (launch ms s).pwait = s.pwait := rfl
@[simp] theorem launch_cfg (ms : BitVec 24) : (launch ms s).cfg = s.cfg := rfl
@[simp] theorem launch_bus (ms : BitVec 24) : (launch ms s).bus = s.bus := rfl
@[simp] theorem launch_cal (ms : BitVec 24) : (launch ms s).cal = s.cal := rfl
@[simp] theorem launch_variant (ms : BitVec 24) : (launch ms s).variant = s.variant := rfl
@[simp] theorem launch_devmode (ms : BitVec 24) : (launch ms s).devmode = s.devmode := rfl
@[simp] theorem launch_lock (ms : BitVec 24) : (launch ms s).lock = s.lock := rfl
@[simp] theorem launch_cyc (ms : BitVec 24) : (launch ms s).cyc = s.cyc := rfl
@[simp] theorem launch_tfine (ms : BitVec 24) : (launch ms s).tfine = s.tfine := rfl
@[simp] theorem launch_tfineV (ms : BitVec 24) : (launch ms s).tfineV = s.tfineV := rfl
@[simp] theorem launch_sActive (ms : BitVec 24) : (launch ms s).sActive = true := rfl
@[simp] theorem launch_sCancel (ms : BitVec 24) : (launch ms s).sCancel = false := rfl
@[simp] theorem launch_sPhase (ms : BitVec 24) : (launch ms s).sPhase = .measuring := rfl
@[simp] theorem launch_sInterval (ms : BitVec 24) : (launch ms s).sInterval = ms := rfl
@[simp] theorem launch_sPending (ms : BitVec 24) : (launch ms s).sPending = none := rfl
@[simp] theorem launch_sErr (ms : BitVec 24) : (launch ms s).sErr = none := rfl
@[simp] theorem launch_mbox (ms : BitVec 24) : (launch ms s).mbox = s.mbox := rfl
@[simp] theorem launch_cmdBusy (ms : BitVec 24) : (launch ms s).cmdBusy = s.cmdBusy := rfl
@[simp] theorem launch_resp (ms : BitVec 24) : (launch ms s).resp = s.resp := rfl
@[simp] theorem launch_buserr (ms : BitVec 24) : (launch ms s).buserr = s.buserr := rfl
@[simp] theorem launch_cresp (ms : BitVec 24) : (launch ms s).cresp = s.cresp := rfl
@[simp] theorem launch_timer (ms : BitVec 24) : (launch ms s).timer = s.timer := rfl
@[simp] theorem launch_par (ms : BitVec 24) : (launch ms s).par = s.par := rfl
@[simp] theorem launch_cmd (ms : BitVec 24) : (launch ms s).cmd = s.cmd := rfl
@[simp] theorem launch_hphase (ms : BitVec 24) : (launch ms s).hphase = s.hphase := rfl
@[simp] theorem launch_consReq (ms : BitVec 24) : (launch ms s).consReq = s.consReq := rfl
@[simp] theorem launch_xfer (ms : BitVec 24) : (launch ms s).xfer = s.xfer := rfl
@[simp] theorem launch_env (ms : BitVec 24) : (launch ms s).env = s.env := rfl

/-! ### handOver -/

@[simp] theorem handOver_life (m : Measurement) : (handOver m s).life = s.life := rfl
@[simp] theorem handOver_seq (m : Measurement) : (handOver m s).seq = s.seq := rfl
@[simp] theorem handOver_pwait (m : Measurement) : (handOver m s).pwait = s.pwait := rfl
@[simp] theorem handOver_cfg (m : Measurement) : (handOver m s).cfg = s.cfg := rfl
@[simp] theorem handOver_bus (m : Measurement) : (handOver m s).bus = s.bus := rfl
@[simp] theorem handOver_cal (m : Measurement) : (handOver m s).cal = s.cal := rfl
@[simp] theorem handOver_variant (m : Measurement) : (handOver m s).variant = s.variant := rfl
@[simp] theorem handOver_devmode (m : Measurement) : (handOver m s).devmode = s.devmode := rfl
@[simp] theorem handOver_lock (m : Measurement) : (handOver m s).lock = s.lock := rfl
@[simp] theorem handOver_cyc (m : Measurement) : (handOver m s).cyc = s.cyc := rfl
@[simp] theorem handOver_tfine (m : Measurement) : (handOver m s).tfine = s.tfine := rfl
@[simp] theorem handOver_tfineV (m : Measurement) : (handOver m s).tfineV = s.tfineV := rfl
@[simp] theorem handOver_sActive (m : Measurement) : (handOver m s).sActive = s.sActive := rfl
@[simp] theorem handOver_sCancel (m : Measurement) : (handOver m s).sCancel = s.sCancel := rfl
@[simp] theorem handOver_sPhase (m : Measurement) : (handOver m s).sPhase = .publishing := rfl
@[simp] theorem handOver_sInterval (m : Measurement) : (handOver m s).sInterval = s.sInterval := rfl
@[simp] theorem handOver_sPending (m : Measurement) : (handOver m s).sPending = some m := rfl
@[simp] theorem handOver_sErr (m : Measurement) : (handOver m s).sErr = s.sErr := rfl
@[simp] theorem handOver_mbox (m : Measurement) : (handOver m s).mbox = s.mbox := rfl
@[simp] theorem handOver_cmdBusy (m : Measurement) : (handOver m s).cmdBusy = s.cmdBusy := rfl
@[simp] theorem handOver_resp (m : Measurement) : (handOver m s).resp = s.resp := rfl
@[simp] theorem handOver_buserr (m : Measurement) : (handOver m s).buserr = s.buserr := rfl
@[simp] theorem handOver_cresp (m : Measurement) : (handOver m s).cresp = s.cresp := rfl
@[simp] theorem handOver_timer (m : Measurement) : (handOver m s).timer = s.timer := rfl
@[simp] theorem handOver_par (m : Measurement) : (handOver m s).par = s.par := rfl
@[simp] theorem handOver_cmd (m : Measurement) : (handOver m s).cmd = s.cmd := rfl
@[simp] theorem handOver_hphase (m : Measurement) : (handOver m s).hphase = s.hphase := rfl
@[simp] theorem handOver_consReq (m : Measurement) : (handOver m s).consReq = s.consReq := rfl
@[simp] theorem handOver_xfer (m : Measurement) : (handOver m s).xfer = s.xfer := rfl
@[simp] theorem handOver_env (m : Measurement) : (handOver m s).env = s.env := rfl

/-! ### publish -/

@[simp] theorem publish_life : (publish s).life = s.life := rfl
@[simp] theorem publish_seq : (publish s).seq = s.seq := rfl
@[simp] theorem publish_pwait : (publish s).pwait = s.pwait := rfl
@[simp] theorem publish_cfg : (publish s).cfg = s.cfg := rfl
@[simp] theorem publish_bus : (publish s).bus = s.bus := rfl
@[simp] theorem publish_cal : (publish s).cal = s.cal := rfl
@[simp] theorem publish_variant : (publish s).variant = s.variant := rfl
@[simp] theorem publish_devmode : (publish s).devmode = s.devmode := rfl
@[simp] theorem publish_lock : (publish s).lock = s.lock := rfl
@[simp] theorem publish_cyc : (publish s).cyc = s.cyc := rfl
@[simp] theorem publish_tfine : (publish s).tfine = s.tfine := rfl
@[simp] theorem publish_tfineV : (publish s).tfineV = s.tfineV := rfl
@[simp] theorem publish_sActive : (publish s).sActive = s.sActive := rfl
@[simp] theorem publish_sCancel : (publish s).sCancel = s.sCancel := rfl
@[simp] theorem publish_sPhase : (publish s).sPhase = .waiting := rfl
@[simp] theorem publish_sInterval : (publish s).sInterval = s.sInterval := rfl
@[simp] theorem publish_sPending : (publish s).sPending = none := rfl
@[simp] theorem publish_sErr : (publish s).sErr = s.sErr := rfl
@[simp] theorem publish_mbox : (publish s).mbox = s.sPending := rfl
@[simp] theorem publish_cmdBusy : (publish s).cmdBusy = s.cmdBusy := rfl
@[simp] theorem publish_resp : (publish s).resp = s.resp := rfl
@[simp] theorem publish_buserr : (publish s).buserr = s.buserr := rfl
@[simp] theorem publish_cresp : (publish s).cresp = s.cresp := rfl
@[simp] theorem publish_timer : (publish s).timer = some s.sInterval.toNat := rfl
@[simp] theorem publish_par : (publish s).par = s.par := rfl
@[simp] theorem publish_cmd : (publish s).cmd = s.cmd := rfl
@[simp] theorem publish_hphase : (publish s).hphase = s.hphase := rfl
@[simp] theorem publish_consReq : (publish s).consReq = s.consReq := rfl
@[simp] theorem publish_xfer : (publish s).xfer = s.xfer := rfl
@[simp] theorem publish_env : (publish s).env = s.env := rfl

/-! ### advance -/

@[simp] theorem advance_life : (advance s).life = s.life := rfl
@[simp] theorem advance_seq : (advance s).seq = s.seq := rfl
@[simp] theorem advance_pwait : (advance s).pwait = s.pwait := rfl
@[simp] theorem advance_cfg : (advance s).cfg = s.cfg := rfl
@[simp] theorem advance_bus : (advance s).bus = s.bus := rfl
@[simp] theorem advance_cal : (advance s).cal = s.cal := rfl
@[simp] theorem advance_variant : (advance s).variant = s.variant := rfl
@[simp] theorem advance_devmode : (advance s).devmode = s.devmode := rfl
@[simp] theorem advance_lock : (advance s).lock = s.lock := rfl
@[simp] theorem advance_cyc : (advance s).cyc = s.cyc := rfl
@[simp] theorem advance_tfine : (advance s).tfine = s.tfine := rfl
@[simp] theorem advance_tfineV : (advance s).tfineV = s.tfineV := rfl
@[simp] theorem advance_sActive : (advance s).sActive = s.sActive := rfl
@[simp] theorem advance_sCancel : (advance s).sCancel = s.sCancel := rfl
@[simp] theorem advance_sPhase : (advance s).sPhase = s.sPhase := rfl
@[simp] theorem advance_sInterval : (advance s).sInterval = s.sInterval := rfl
@[simp] theorem advance_sPending : (advance s).sPending = s.sPending := rfl
@[simp] theorem advance_sErr : (advance s).sErr = s.sErr := rfl
@[simp] theorem advance_mbox : (advance s).mbox = s.mbox := rfl
@[simp] theorem advance_cmdBusy : (advance s).cmdBusy = s.cmdBusy := rfl
@[simp] theorem advance_resp : (advance s).resp = s.resp := rfl
@[simp] theorem advance_buserr : (advance s).buserr = s.buserr := rfl
@[simp] theorem advance_cresp : (advance s).cresp = s.cresp := rfl
@[simp] theorem advance_timer : (advance s).timer = s.timer := rfl
@[simp] theorem advance_par : (advance s).par = s.par := rfl
@[simp] theorem advance_cmd : (advance s).cmd = s.cmd := rfl
@[simp] theorem advance_hphase : (advance s).hphase = s.hphase := rfl
@[simp] theorem advance_consReq : (advance s).consReq = s.consReq := rfl
@[simp] theorem advance_xfer : (advance s).xfer = s.xfer := rfl
@[simp] theorem advance_env :
    (advance s).env = s.env.advance := rfl

@[simp] theorem Env.advance_cmdIn (e : Env) : e.advance.cmdIn = e.cmdIn := rfl
@[simp] theorem Env.advance_consIn (e : Env) : e.advance.consIn = e.consIn := rfl
@[simp] theorem Env.advance_frameIn (e : Env) : e.advance.frameIn = e.frameIn := rfl
@[simp] theorem Env.advance_busIn (e : Env) : e.advance.busIn = e.busIn := rfl
@[simp] theorem Env.advance_hist (e : Env) : e.advance.hist = e.hist := rfl
@[simp] theorem Env.advance_fresh (e : Env) : e.advance.fresh = e.fresh := rfl

/-- A choice that stands in `sched` is used up; the turns do not move. -/
theorem Env.advance_cons (e : Env) (ev : Event) (r : List Event) (h : e.sched = ev :: r) :
    e.advance = { e with sched := r, tick := e.tick + 1, patience := e.patience - 1 } := by
  simp [Env.advance, Env.atTurn, h]

@[simp] theorem Agent.event_agent (b : Bool) (g : Agent) : (Agent.event b g).agent = g := by cases g <;> rfl

end Sys2Proof.Machine
end

