-- ==== Sys2Proof/Laws/Transport.lean ====
section
/-! SUPPORT. What a transport operation can do, said once: it answers all its bytes or a bus error, and of the
block's state it touches the history, the answers that wait and, on an error, BUSERR. -/

namespace Sys2Proof.Machine

variable (s : State)

@[simp] theorem fitFrame_length (free : Nat → Byte) (n : Nat) (d : List Byte) :
    (fitFrame free n d).length = n := by
  induction n generalizing d with
  | zero => rfl
  | succ n ih => cases d <;> simp [fitFrame, ih]

theorem fitFrame_exact (free : Nat → Byte) (d : List Byte) : fitFrame free d.length d = d := by
  induction d with
  | nil => rfl
  | cons b d ih => simp [fitFrame, ih]

/-- An answer holds exactly the bytes the transaction asks for (R66). -/
theorem answerOf_length (f : BusFrame) (d : List Byte) (h : answerOf f s = .ok d) : d.length = f.inLen := by
  unfold answerOf at h
  split at h
  · cases h; simp
  · cases h

theorem answerOf_scripted (f : BusFrame) (d : List Byte) (rest : List BusAnswer)
    (h : s.env.busIn = .ok d :: rest) (hd : d.length = f.inLen) : answerOf f s = .ok d := by
  simp [answerOf, rawAnswer, h, ← hd, fitFrame_exact]

theorem answerOf_scripted_err (f : BusFrame) (e : BusErr) (rest : List BusAnswer)
    (h : s.env.busIn = .err e :: rest) : answerOf f s = .err e := by
  simp [answerOf, rawAnswer, h]

theorem transact_ok (f : BusFrame) (keep : List Byte → List Byte) (d : List Byte) (h : answerOf f s = .ok d) :
    transact f keep s = (.ok (keep d), recordTxn f s) := by
  simp [transact, h]

theorem transact_err (f : BusFrame) (keep : List Byte → List Byte) (e : BusErr) (h : answerOf f s = .err e) :
    transact f keep s = (.err e, abortTransport e (recordTxn f s)) := by
  simp [transact, h]

/-- The bytes the framing keeps of an in-frame: SPI drops the dummy byte (R114). -/
def keepOf : BusKind → List Byte → List Byte
  | .i2c => id
  | .spi => List.drop 1

theorem memRead_eq (a : Byte) (n : Nat) :
    memRead a n s = transact (memReadFrame a n s) (keepOf s.bus) s := by
  cases h : s.bus <;> simp [memRead, memReadFrame, h, readI2c, readSpi, keepOf]

theorem memWrite_eq (ps : List (Byte × Byte)) : memWrite ps s = transact (memWriteFrame ps s) id s := by
  cases h : s.bus <;> simp [memWrite, memWriteFrame, h, writeI2c, writeSpi]

@[simp] theorem memWriteFrame_inLen (ps : List (Byte × Byte)) : (memWriteFrame ps s).inLen = 0 := by
  cases h : s.bus <;> simp [memWriteFrame, h, i2cWriteFrame, spiWriteFrame]

/-- Everything `MemRead` can do (R112, R115). -/
theorem memRead_cases (a : Byte) (n : Nat) :
    (∃ d, answerOf (memReadFrame a n s) s = .ok d ∧ (keepOf s.bus d).length = n ∧
      memRead a n s = (.ok (keepOf s.bus d), recordTxn (memReadFrame a n s) s)) ∨
    (∃ e, answerOf (memReadFrame a n s) s = .err e ∧
      memRead a n s = (.err e, abortTransport e (recordTxn (memReadFrame a n s) s))) := by
  rw [memRead_eq]
  cases h : answerOf (memReadFrame a n s) s with
  | ok d =>
    refine .inl ⟨d, rfl, ?_, transact_ok s _ _ d h⟩
    have := answerOf_length s _ d h
    cases hb : s.bus <;>
      simp_all [memReadFrame, i2cReadFrame, spiReadFrame, keepOf]
  | err e => exact .inr ⟨e, rfl, transact_err s _ _ e h⟩

/-- Everything `MemWrite` can do (R116). -/
theorem memWrite_cases (ps : List (Byte × Byte)) :
    (answerOf (memWriteFrame ps s) s = .ok [] ∧
      memWrite ps s = (.ok [], recordTxn (memWriteFrame ps s) s)) ∨
    (∃ e, answerOf (memWriteFrame ps s) s = .err e ∧
      memWrite ps s = (.err e, abortTransport e (recordTxn (memWriteFrame ps s) s))) := by
  rw [memWrite_eq]
  cases h : answerOf (memWriteFrame ps s) s with
  | ok d =>
    have hd : d = [] := by
      have := answerOf_length s _ d h
      simpa using this
    subst hd
    exact .inl ⟨rfl, transact_ok s _ _ [] h⟩
  | err e => exact .inr ⟨e, rfl, transact_err s _ _ e h⟩

end Sys2Proof.Machine
end

