-- ==== Sys2Proof/Laws/Cycle.lean ====
section
/-! SUPPORT. What one step of `CYCLE` can do (R190), said once for each of its outcomes. -/

namespace Sys2Proof.Machine

/-- How a cycle goes on (R189 to R195): T1, T2, T3 with either end, or waiting in the inter-poll delay. -/
theorem cycleStep_run (o : Owner) (s t : State) (h : cycleStep o s = .run t) :
    s.lock = o ∧
    ((s.seq = .sleep ∧ answerOf (memWriteFrame (triggerPairs s.par s.cfg) s) s = .ok [] ∧
        t = { recordTxn (memWriteFrame (triggerPairs s.par s.cfg) s) s with
          devmode := .forced, seq := .triggered }) ∨
     (s.seq = .triggered ∧ t = { s with seq := .polling, pwait := false }) ∨
     (s.seq = .polling ∧ s.pwait = true ∧ t = s) ∨
     (s.seq = .polling ∧ s.pwait = false ∧ ∃ d,
        answerOf (memReadFrame s.par.regStatus 1 s) s = .ok d ∧
        t = polled (byteAt (keepOf s.bus d) 0) (recordTxn (memReadFrame s.par.regStatus 1 s) s))) := by
  unfold cycleStep at h
  by_cases hl : s.lock = o
  · refine ⟨hl, ?_⟩
    rw [if_neg (not_not.mpr hl)] at h
    cases hs : s.seq <;> simp only [hs] at h
    · left
      unfold cycleTrigger at h
      obtain ⟨ha, hw⟩ | ⟨e, ha, hw⟩ := memWrite_cases s (triggerPairs s.par s.cfg) <;>
        simp only [hw] at h <;> cases h
      exact ⟨rfl, ha, rfl⟩
    · cases h; exact .inr (.inl ⟨rfl, rfl⟩)
    · cases hp : s.pwait <;> simp only [hp] at h
      · refine .inr (.inr (.inr ⟨rfl, rfl, ?_⟩))
        simp only [Bool.false_eq_true, if_false, cyclePoll] at h
        split at h
        · obtain ⟨d, ha, _, hr⟩ | ⟨e, ha, hr⟩ := memRead_cases s s.par.regStatus 1 <;>
            simp only [hr] at h <;> cases h
          exact ⟨d, ha, rfl⟩
        · cases h
      · simp only [if_true] at h
        cases h; exact .inr (.inr (.inl ⟨rfl, rfl, rfl⟩))
    · unfold cycleData at h
      split at h
      · obtain ⟨d, ha, _, hr⟩ | ⟨e, ha, hr⟩ := memRead_cases s s.par.regData s.par.lenData <;>
          simp only [hr] at h <;> cases h
      · cases h
  · rw [if_pos hl] at h; cases h

/-- How a cycle returns `Ok(m)` (R195 to R197): step T5 only. -/
theorem cycleStep_done (o : Owner) (s t : State) (m : Measurement) (h : cycleStep o s = .done m t) :
    s.lock = o ∧ s.seq = .dataReady ∧ ∃ d,
      answerOf (memReadFrame s.par.regData s.par.lenData s) s = .ok d ∧
      m = (measure (keepOf s.bus d) (recordTxn (memReadFrame s.par.regData s.par.lenData s) s)).2 ∧
      t = measured (keepOf s.bus d) (recordTxn (memReadFrame s.par.regData s.par.lenData s) s) := by
  unfold cycleStep at h
  by_cases hl : s.lock = o
  · refine ⟨hl, ?_⟩
    rw [if_neg (not_not.mpr hl)] at h
    cases hs : s.seq <;> simp only [hs] at h
    · unfold cycleTrigger at h
      obtain ⟨ha, hw⟩ | ⟨e, ha, hw⟩ := memWrite_cases s (triggerPairs s.par s.cfg) <;>
        simp only [hw] at h <;> cases h
    · cases h
    · cases hp : s.pwait <;> simp only [hp] at h
      · simp only [Bool.false_eq_true, if_false, cyclePoll] at h
        split at h
        · obtain ⟨d, ha, _, hr⟩ | ⟨e, ha, hr⟩ := memRead_cases s s.par.regStatus 1 <;>
            simp only [hr] at h <;> cases h
        · cases h
      · simp only [if_true] at h; cases h
    · unfold cycleData at h
      split at h
      · obtain ⟨d, ha, _, hr⟩ | ⟨e, ha, hr⟩ := memRead_cases s s.par.regData s.par.lenData <;>
          simp only [hr] at h <;> cases h
        exact ⟨rfl, d, ha, rfl, rfl⟩
      · cases h
  · rw [if_pos hl] at h; cases h

/-- The frame of the transaction a cycle's next step emits (R190), for a state that emits one. -/
def cycleFrame (s : State) : BusFrame :=
  match s.seq with
  | .sleep     => memWriteFrame (triggerPairs s.par s.cfg) s
  | .triggered => memReadFrame s.par.regStatus 1 s
  | .polling   => memReadFrame s.par.regStatus 1 s
  | .dataReady => memReadFrame s.par.regData s.par.lenData s

/-- How a cycle aborts (R268): in the step of the failing transaction, which T1, T3 and T5 have. -/
theorem cycleStep_abort (o : Owner) (s t : State) (txn : Byte) (e : BusErr)
    (h : cycleStep o s = .abort txn e t) :
    s.lock = o ∧
    ((s.seq = .sleep ∧ txn = txnTrigger) ∨ (s.seq = .polling ∧ s.pwait = false ∧ txn = txnStatus) ∨
      (s.seq = .dataReady ∧ txn = txnData)) ∧
    answerOf (cycleFrame s) s = .err e ∧
    t = abortCycle (abortTransport e (recordTxn (cycleFrame s) s)) := by
  unfold cycleStep at h
  by_cases hl : s.lock = o
  · refine ⟨hl, ?_⟩
    rw [if_neg (not_not.mpr hl)] at h
    cases hs : s.seq <;> simp only [hs] at h
    · unfold cycleTrigger at h
      obtain ⟨ha, hw⟩ | ⟨e', ha, hw⟩ := memWrite_cases s (triggerPairs s.par s.cfg) <;>
        simp only [hw] at h <;> cases h
      exact ⟨.inl ⟨rfl, rfl⟩, by simp [cycleFrame, hs, ha], by simp [cycleFrame, hs]⟩
    · cases h
    · cases hp : s.pwait <;> simp only [hp] at h
      · simp only [Bool.false_eq_true, if_false, cyclePoll] at h
        split at h
        · obtain ⟨d, ha, _, hr⟩ | ⟨e', ha, hr⟩ := memRead_cases s s.par.regStatus 1 <;>
            simp only [hr] at h <;> cases h
          exact ⟨.inr (.inl ⟨rfl, rfl, rfl⟩), by simp [cycleFrame, hs, ha], by simp [cycleFrame, hs]⟩
        · cases h
      · simp only [if_true] at h; cases h
    · unfold cycleData at h
      split at h
      · obtain ⟨d, ha, _, hr⟩ | ⟨e', ha, hr⟩ := memRead_cases s s.par.regData s.par.lenData <;>
          simp only [hr] at h <;> cases h
        exact ⟨.inr (.inr ⟨rfl, rfl⟩), by simp [cycleFrame, hs, ha], by simp [cycleFrame, hs]⟩
      · cases h
  · rw [if_pos hl] at h; cases h

/-- When a cycle's step is a model fault (R264): LOCK does not name the agent, or a read is out of range. -/
theorem cycleStep_stop (o : Owner) (s : State) (f : Fault) (h : cycleStep o s = .stop f) :
    s.lock ≠ o ∨ readInRange s.par.regStatus.toNat 1 = false ∨
      readInRange s.par.regData.toNat s.par.lenData = false := by
  unfold cycleStep at h
  by_cases hl : s.lock = o
  · rw [if_neg (not_not.mpr hl)] at h
    cases hs : s.seq <;> simp only [hs] at h
    · unfold cycleTrigger at h
      obtain ⟨ha, hw⟩ | ⟨e', ha, hw⟩ := memWrite_cases s (triggerPairs s.par s.cfg) <;>
        simp only [hw] at h <;> cases h
    · cases h
    · cases hp : s.pwait <;> simp only [hp] at h
      · simp only [Bool.false_eq_true, if_false, cyclePoll] at h
        split at h
        · obtain ⟨d, ha, _, hr⟩ | ⟨e', ha, hr⟩ := memRead_cases s s.par.regStatus 1 <;>
            simp only [hr] at h <;> cases h
        · right; left; simp_all
      · simp only [if_true] at h; cases h
    · unfold cycleData at h
      split at h
      · obtain ⟨d, ha, _, hr⟩ | ⟨e', ha, hr⟩ := memRead_cases s s.par.regData s.par.lenData <;>
          simp only [hr] at h <;> cases h
      · right; right; simp_all
  · exact .inl hl

/-! What a step of a cycle does, read forwards. -/

theorem cycleStep_trigger_ok (o : Owner) (s : State) (hl : s.lock = o) (hs : s.seq = .sleep)
    (ha : answerOf (memWriteFrame (triggerPairs s.par s.cfg) s) s = .ok []) :
    cycleStep o s = .run { recordTxn (memWriteFrame (triggerPairs s.par s.cfg) s) s with
      devmode := .forced, seq := .triggered } := by
  rw [cycleStep, if_neg (not_not.mpr hl)]
  simp only [hs, cycleTrigger, memWrite_eq, transact_ok s _ _ _ ha]

theorem cycleStep_begin (o : Owner) (s : State) (hl : s.lock = o) (hs : s.seq = .triggered) :
    cycleStep o s = .run { s with seq := .polling, pwait := false } := by
  rw [cycleStep, if_neg (not_not.mpr hl)]; simp only [hs, cycleBeginPoll]

theorem cycleStep_wait (o : Owner) (s : State) (hl : s.lock = o) (hs : s.seq = .polling)
    (hp : s.pwait = true) : cycleStep o s = .run s := by
  rw [cycleStep, if_neg (not_not.mpr hl)]; simp only [hs, hp, if_true]

theorem cycleStep_poll_ok (o : Owner) (s : State) (d : List Byte) (hl : s.lock = o) (hs : s.seq = .polling)
    (hp : s.pwait = false) (hr : readInRange s.par.regStatus.toNat 1 = true)
    (ha : answerOf (memReadFrame s.par.regStatus 1 s) s = .ok d) :
    cycleStep o s =
      .run (polled (byteAt (keepOf s.bus d) 0) (recordTxn (memReadFrame s.par.regStatus 1 s) s)) := by
  rw [cycleStep, if_neg (not_not.mpr hl)]
  simp only [hs, hp, Bool.false_eq_true, if_false, cyclePoll, hr, if_true, memRead_eq,
    transact_ok s _ _ _ ha]

theorem cycleStep_data_ok (o : Owner) (s : State) (d : List Byte) (hl : s.lock = o) (hs : s.seq = .dataReady)
    (hr : readInRange s.par.regData.toNat s.par.lenData = true)
    (ha : answerOf (memReadFrame s.par.regData s.par.lenData s) s = .ok d) :
    cycleStep o s =
      .done (measure (keepOf s.bus d) (recordTxn (memReadFrame s.par.regData s.par.lenData s) s)).2
        (measured (keepOf s.bus d) (recordTxn (memReadFrame s.par.regData s.par.lenData s) s)) := by
  rw [cycleStep, if_neg (not_not.mpr hl)]
  simp only [hs, cycleData, hr, if_true, memRead_eq, transact_ok s _ _ _ ha]

theorem cycleStep_err (o : Owner) (s : State) (txn : Byte) (e : BusErr) (f : BusFrame) (hl : s.lock = o)
    (hc : (s.seq = .sleep ∧ txn = txnTrigger ∧ f = memWriteFrame (triggerPairs s.par s.cfg) s) ∨
      (s.seq = .polling ∧ s.pwait = false ∧ txn = txnStatus ∧
        readInRange s.par.regStatus.toNat 1 = true ∧ f = memReadFrame s.par.regStatus 1 s) ∨
      (s.seq = .dataReady ∧ txn = txnData ∧ readInRange s.par.regData.toNat s.par.lenData = true ∧
        f = memReadFrame s.par.regData s.par.lenData s))
    (ha : answerOf f s = .err e) :
    cycleStep o s = .abort txn e (abortCycle (abortTransport e (recordTxn f s))) := by
  rw [cycleStep, if_neg (not_not.mpr hl)]
  rcases hc with ⟨hs, rfl, rfl⟩ | ⟨hs, hp, rfl, hr, rfl⟩ | ⟨hs, rfl, hr, rfl⟩
  · simp only [hs, cycleTrigger, memWrite_eq, transact_err s _ _ _ ha]
  · simp only [hs, hp, Bool.false_eq_true, if_false, cyclePoll, hr, if_true, memRead_eq,
      transact_err s _ _ _ ha]
  · simp only [hs, cycleData, hr, if_true, memRead_eq, transact_err s _ _ _ ha]

end Sys2Proof.Machine
end

