-- ==== Sys2Proof/Laws/Commands.lean ====
section
/-! SUPPORT. One lemma for each shared operation of the commands: how a command ends, what a read of INIT
does, and what an answer that waits gives. -/

namespace Sys2Proof.Machine

variable (s : State)

theorem respond_eq_ended (f : Nat → Resp) : respond f s = ended (f s.env.fresh) s := rfl

theorem respondCode_eq_ended (c : Code) : respondCode c s = ended (Resp.blank s.env.fresh c) s := rfl

/-- A read of INIT that is answered (R180). -/
theorem initRead_ok (txn a : Byte) (n : Nat) (k : List Byte → State → State) (d : List Byte)
    (hr : readInRange a.toNat n = true) (ha : answerOf (memReadFrame a n s) s = .ok d) :
    initRead txn a n s k = .next (k (keepOf s.bus d) (recordTxn (memReadFrame a n s) s)) := by
  rw [initRead, if_pos hr, memRead_eq, transact_ok s _ _ d ha]

/-- A read of INIT that fails (R267). -/
theorem initRead_err (txn a : Byte) (n : Nat) (k : List Byte → State → State) (e : BusErr)
    (hr : readInRange a.toNat n = true) (ha : answerOf (memReadFrame a n s) s = .err e) :
    initRead txn a n s k = .next (abortInit txn e (abortTransport e (recordTxn (memReadFrame a n s) s))) := by
  rw [initRead, if_pos hr, memRead_eq, transact_err s _ _ e ha]

/-- Everything a read of INIT can do. -/
theorem initRead_cases (txn a : Byte) (n : Nat) (k : List Byte → State → State) :
    (readInRange a.toNat n = false ∧ initRead txn a n s k = .fault .readOutOfRange) ∨
    (∃ d, answerOf (memReadFrame a n s) s = .ok d ∧
      initRead txn a n s k = .next (k (keepOf s.bus d) (recordTxn (memReadFrame a n s) s))) ∨
    (∃ e, answerOf (memReadFrame a n s) s = .err e ∧
      initRead txn a n s k =
        .next (abortInit txn e (abortTransport e (recordTxn (memReadFrame a n s) s)))) := by
  cases hr : readInRange a.toNat n with
  | false => exact .inl ⟨rfl, by simp [initRead, hr]⟩
  | true =>
    cases ha : answerOf (memReadFrame a n s) s with
    | ok d => exact .inr (.inl ⟨d, rfl, initRead_ok s txn a n k d hr ha⟩)
    | err e => exact .inr (.inr ⟨e, rfl, initRead_err s txn a n k e hr ha⟩)

theorem keepOf_eq_match (k : BusKind) (d : List Byte) :
    (match k with | .i2c => d | .spi => d.drop 1) = keepOf k d := by cases k <;> rfl

@[simp] theorem keepOf_inFrame (k : BusKind) (x : Byte) (d : List Byte) : keepOf k (inFrame k x d) = d := by
  cases k <;> rfl

theorem memReadFrame_congr (a : Byte) (n : Nat) (t : State) (hb : t.bus = s.bus) (hp : t.par = s.par) :
    memReadFrame a n t = memReadFrame a n s := by simp [memReadFrame, hb, hp]

theorem memWriteFrame_congr (ps : List (Byte × Byte)) (t : State) (hb : t.bus = s.bus) :
    memWriteFrame ps t = memWriteFrame ps s := by simp [memWriteFrame, hb]

theorem memReadFrame_inLen (a x : Byte) (d : List Byte) :
    (inFrame s.bus x d).length = (memReadFrame a d.length s).inLen := by
  cases h : s.bus <;> simp [inFrame, memReadFrame, h, i2cReadFrame, spiReadFrame]

/-- A waiting answer of the right length is what a read gets (R66). -/
theorem answerOf_read_scripted (a x : Byte) (n : Nat) (d : List Byte) (rest : List BusAnswer)
    (hd : d.length = n) (h : s.env.busIn = .ok (inFrame s.bus x d) :: rest) :
    answerOf (memReadFrame a n s) s = .ok (inFrame s.bus x d) := by
  subst hd; exact answerOf_scripted s _ _ rest h (memReadFrame_inLen s a x d)

/-- A step of the host agent inside SENSE's cycle. -/
theorem hostStep_sense (hb : s.cmdBusy = true) (hd : decodeCmd s.cmd = .ok .sense)
    (hp : s.hphase = .senseCycle) : agentStep .host s = senseCycle s := by
  simp only [agentStep, hostStep, hb, if_true, hostRun, hd, exec, execSense, hp]

theorem senseCycle_run {u : State} (hc : cycleStep .host s = .run u) : senseCycle s = .next u := by
  simp only [senseCycle, hc]

theorem senseCycle_done {u : State} {m : Measurement} (hc : cycleStep .host s = .done m u)
    (hl : u.lock = .host) :
    senseCycle s = .next (respond (fun k => .measured k m) { u with lock := .free }) := by
  simp only [senseCycle, hc, release, hl, if_true]

theorem agentSteps_append (l1 l2 : List Event) {u : State} (h : agentSteps l1 s = .next u) :
    agentSteps (l1 ++ l2) s = agentSteps l2 u := by
  induction l1 generalizing s with
  | nil => cases h; rfl
  | cons e l ih =>
    simp only [List.cons_append, agentSteps] at h ⊢
    cases hs : agentStep e s with
    | next t => rw [hs] at h; exact ih t h
    | fault x => rw [hs] at h; cases h
    | refused x => rw [hs] at h; cases h

end Sys2Proof.Machine
end

