-- ==== Sys2Proof/Laws/Decode.lean ====
section
/-! SUPPORT. The decoder and the encoder piece by piece: pairs of a write frame, and which instructions each
port can carry. -/

namespace Sys2Proof

theorem pairUp_writeOut (ps : List (Byte × Byte)) : pairUp (i2cWriteOut ps) = some ps := by
  induction ps with
  | nil => rfl
  | cons q qs ih => simp_all [i2cWriteOut, pairUp]

theorem writeOut_of_pairUp : ∀ (l : List Byte) (ps : List (Byte × Byte)),
    pairUp l = some ps → i2cWriteOut ps = l
  | [], ps, h => by simp [pairUp] at h; subst h; rfl
  | [_], ps, h => by simp [pairUp] at h
  | a :: v :: r, ps, h => by
    simp only [pairUp, Option.map_eq_some_iff] at h
    obtain ⟨q, hq, rfl⟩ := h
    have := writeOut_of_pairUp r q hq
    simp_all [i2cWriteOut]

theorem spiWriteOut_eq (ps : List (BitVec 7 × Byte)) :
    spiWriteOut ps = i2cWriteOut (ps.map fun q => (0#1 ++ q.1, q.2)) := by
  simp [spiWriteOut, i2cWriteOut, List.flatMap_map]

theorem spi_addr_msb (a : BitVec 7) : (0#1 ++ a : BitVec 8).msb = false := by revert a; decide

theorem spi_addr_low (a : BitVec 7) : (0#1 ++ a : BitVec 8).setWidth 7 = a := by revert a; decide

theorem spi_addr_of_low (a : Byte) (h : a.msb = false) : (0#1 ++ a.setWidth 7 : BitVec 8) = a := by
  revert a; decide

theorem spi_read_msb (a : BitVec 7) : (1#1 ++ a : BitVec 8).msb = true := by revert a; decide

theorem spi_read_low (a : BitVec 7) : (1#1 ++ a : BitVec 8).setWidth 7 = a := by revert a; decide

theorem spi_read_of_low (a : Byte) (h : a.msb = true) : (1#1 ++ a.setWidth 7 : BitVec 8) = a := by
  revert a; decide

theorem spiPairs_writeOut (ps : List (BitVec 7 × Byte)) :
    (pairUp (spiWriteOut ps)).bind spiPairs = some ps := by
  rw [spiWriteOut_eq, pairUp_writeOut, Option.bind_some]
  induction ps with
  | nil => rfl
  | cons q qs ih => simp [spiPairs, ih, spi_addr_msb, spi_addr_low]

theorem writeOut_of_spiPairs : ∀ (l : List (Byte × Byte)) (ps : List (BitVec 7 × Byte)),
    spiPairs l = some ps → spiWriteOut ps = i2cWriteOut l
  | [], ps, h => by simp [spiPairs] at h; subst h; rfl
  | (a, v) :: r, ps, h => by
    simp only [spiPairs] at h
    split at h
    · cases h
    · rename_i ha
      simp only [Option.map_eq_some_iff] at h
      obtain ⟨q, hq, rfl⟩ := h
      have := writeOut_of_spiPairs r q hq
      have hb := spi_addr_of_low a (by simpa using ha)
      simp_all [i2cWriteOut, spiWriteOut]

/-- The commands of the command port (R81). -/
def Instr.isCommand : Instr → Bool
  | .init _ _ _ _ => true
  | .sense        => true
  | .start _      => true
  | .stop         => true
  | .status       => true
  | .compT _      => true
  | .compP _      => true
  | .compH _      => true
  | .take         => false
  | .busRdI2c _ _ => false
  | .busRdSpi _ _ => false
  | .busWrI2c _   => false
  | .busWrSpi _   => false

theorem decodeCmd_isCommand (w : Word) (i : Instr) (h : decodeCmd w = .ok i) : i.isCommand = true := by
  simp only [decodeCmd, decodeInit, decodePlain] at h
  split at h <;> (repeat' split at h) <;> cases h <;> rfl

theorem decodeCons_take (b : Byte) (i : Instr) (h : decodeCons b = .ok i) : i = .take := by
  simp only [decodeCons] at h
  split at h <;> cases h
  rfl

theorem decodeFrame_isBus (fill : Byte) (f : BusFrame) (i : Instr) (h : decodeFrame fill f = .ok i) :
    (∃ a n, i = .busRdI2c a n) ∨ (∃ a n, i = .busRdSpi a n) ∨
      (∃ ps, i = .busWrI2c ps) ∨ (∃ ps, i = .busWrSpi ps) := by
  obtain ⟨k, out, n⟩ := f
  cases k
  · simp only [decodeFrame, decodeI2c] at h
    split at h
    · split at h
      · cases h; exact .inr (.inr (.inl ⟨_, rfl⟩))
      · cases h
    · split at h
      · split at h
        · cases h; exact .inl ⟨_, _, rfl⟩
        · cases h
      · cases h
  · simp only [decodeFrame, decodeSpi] at h
    split at h
    · cases h
    · split at h
      · split at h
        · cases h; exact .inr (.inl ⟨_, _, rfl⟩)
        · cases h
      · split at h
        · split at h
          · cases h; exact .inr (.inr (.inr ⟨_, rfl⟩))
          · cases h
        · cases h

end Sys2Proof
end

