-- ==== Sys2Proof/Laws/Float.lean ====
section
/-! SUPPORT. The arithmetic of Machine/Float64.lean as rational arithmetic (R16): what the rounding of an exact
value is, said once, and what a result that needs no rounding is. -/

namespace Sys2Proof.Machine

/-- R is an integer nearest to y, and an even one where two are equally near. -/
def IsRound (r : Nat) (y : ℚ) : Prop := |(r : ℚ) - y| ≤ 1 / 2 ∧ (|(r : ℚ) - y| = 1 / 2 → r % 2 = 0)

/-- The sign of a value as a factor. -/
def sgn (s : Bool) : ℚ := if s then -1 else 1

theorem sgn_mul_self (s : Bool) : sgn s * sgn s = 1 := by cases s <;> norm_num [sgn]

theorem abs_sgn_mul (s : Bool) (x : ℚ) : |sgn s * x| = |x| := by cases s <;> simp [sgn]

theorem sgn_xor (a b : Bool) : sgn (a != b) = sgn a * sgn b := by cases a <;> cases b <;> norm_num [sgn]

theorem fVal_eq (x : F64) : fVal x = sgn (fSign x) * ((fMant x : ℚ) * 2 ^ ((fUlp x : ℤ) - 1075)) := by
  unfold fVal sgn; split <;> ring

theorem two_zpow_pos (k : ℤ) : (0 : ℚ) < 2 ^ k := by positivity

theorem two_zpow_nat (k : Nat) : ((2 : ℚ) ^ (k : ℤ)) = ((2 ^ k : Nat) : ℚ) := by push_cast; exact zpow_natCast _ _

/-- Rounding a rational in [a, a+1): the comparison of its rest with one half decides. -/
theorem isRound_of_rest (a : Nat) (f : ℚ) (h0 : 0 ≤ f) (h1 : f < 1) (up : Bool)
    (hu : up = true → 1 / 2 ≤ f ∧ (f = 1 / 2 → a % 2 = 1))
    (hd : up = false → f ≤ 1 / 2 ∧ (f = 1 / 2 → a % 2 = 0)) :
    IsRound (if up then a + 1 else a) ((a : ℚ) + f) := by
  cases up
  · obtain ⟨h2, h3⟩ := hd rfl
    have hv : |((a : Nat) : ℚ) - ((a : ℚ) + f)| = f := by
      rw [sub_add_cancel_left, abs_neg, abs_of_nonneg h0]
    simp only [Bool.false_eq_true, if_false]
    exact ⟨by rw [hv]; exact h2, fun h => h3 (by rw [← hv]; exact h)⟩
  · obtain ⟨h2, h3⟩ := hu rfl
    have hv : |((a + 1 : Nat) : ℚ) - ((a : ℚ) + f)| = 1 - f := by
      rw [abs_of_nonneg] <;> push_cast <;> linarith
    simp only [if_true]
    refine ⟨by rw [hv]; linarith, fun h => ?_⟩
    rw [hv] at h
    have := h3 (by linarith)
    omega

/-- The shift rounds to nearest, ties to even. -/
theorem roundShift_isRound (m k : Nat) : IsRound (roundShift m k) ((m : ℚ) / (2 ^ k : Nat)) := by
  have hP : 0 < 2 ^ k := Nat.pos_of_ne_zero (by positivity)
  have hPq : (0 : ℚ) < ((2 ^ k : Nat) : ℚ) := by exact_mod_cast hP
  generalize hPe : 2 ^ k = P at *
  have hm : (m : ℚ) / (P : ℚ) = ((m / P : Nat) : ℚ) + ((m % P : Nat) : ℚ) / P := by
    have : (m : ℚ) = ((P * (m / P) + m % P : Nat) : ℚ) := by rw [Nat.div_add_mod]
    rw [this]; push_cast; field_simp
  have hb : m % P < P := Nat.mod_lt _ hP
  unfold roundShift
  rw [hPe, hm]
  have key := isRound_of_rest (m / P) (((m % P : Nat) : ℚ) / P) (by positivity)
    (by rw [div_lt_one hPq]; exact_mod_cast hb)
    (decide (2 * (m % P) > P ∨ (2 * (m % P) = P ∧ m / P % 2 = 1)))
  have e1 : ∀ c : ℚ, (1 / 2 ≤ c / P ↔ (P : ℚ) ≤ 2 * c) := by
    intro c; rw [le_div_iff₀ hPq]; constructor <;> intro h <;> linarith
  have e2 : ∀ c : ℚ, (c / P ≤ 1 / 2 ↔ 2 * c ≤ P) := by
    intro c; rw [div_le_iff₀ hPq]; constructor <;> intro h <;> linarith
  have e3 : ∀ c : ℚ, (c / P = 1 / 2 ↔ 2 * c = P) := by
    intro c; rw [div_eq_iff hPq.ne']; constructor <;> intro h <;> linarith
  simp only [e1, e2, e3, decide_eq_true_eq, decide_eq_false_iff_not] at key
  refine key ?_ ?_
  · intro h
    constructor
    · exact_mod_cast (by omega : P ≤ 2 * (m % P))
    · intro h2; have h2 : 2 * (m % P) = P := by exact_mod_cast h2
      omega
  · intro h
    constructor
    · exact_mod_cast (by omega : 2 * (m % P) ≤ P)
    · intro h2; have h2 : 2 * (m % P) = P := by exact_mod_cast h2
      omega

theorem lastPlace_ge (m : Nat) (e : Int) : -1074 ≤ lastPlace m e := le_max_right _ _

/-- The exact value in units of its last place. -/
def inUnits (m : Nat) (e : Int) : ℚ := (m : ℚ) * 2 ^ (e - lastPlace m e)

/-- What packRound rounds, it rounds to nearest, ties to even. -/
theorem roundMant_isRound (m : Nat) (e : Int) : IsRound (roundMant m e) (inUnits m e) := by
  unfold roundMant inUnits
  split
  · rename_i h
    have : (m : ℚ) * 2 ^ (e - lastPlace m e) = ((m * 2 ^ (e - lastPlace m e).toNat : Nat) : ℚ) := by
      conv_lhs => rw [show e - lastPlace m e = (((e - lastPlace m e).toNat : Nat) : ℤ) by omega]
      rw [two_zpow_nat]; push_cast; rfl
    rw [this]
    exact ⟨by rw [sub_self, abs_zero]; norm_num, fun h => by rw [sub_self, abs_zero] at h; norm_num at h⟩
  · rename_i h
    have : (m : ℚ) * 2 ^ (e - lastPlace m e) =
        (m : ℚ) / ((2 ^ (lastPlace m e - e).toNat : Nat) : ℚ) := by
      rw [show e - lastPlace m e = -(((lastPlace m e - e).toNat : Nat) : ℤ) by omega, zpow_neg, two_zpow_nat]
      rfl
    rw [this]; exact roundShift_isRound _ _

theorem inUnits_lt (m : Nat) (e : Int) (hm : m ≠ 0) : inUnits m e < 2 ^ 53 := by
  have h1 : m < 2 ^ (Nat.log2 m + 1) := Nat.lt_log2_self
  have h2 : e - lastPlace m e ≤ 52 - (Nat.log2 m : Int) := by
    have : e + (Nat.log2 m : Int) - 52 ≤ lastPlace m e := le_max_left _ _
    omega
  unfold inUnits
  calc (m : ℚ) * 2 ^ (e - lastPlace m e)
      ≤ (m : ℚ) * 2 ^ (52 - (Nat.log2 m : Int)) := by gcongr; norm_num
    _ < ((2 ^ (Nat.log2 m + 1) : Nat) : ℚ) * 2 ^ (52 - (Nat.log2 m : Int)) := by
        gcongr
    _ = 2 ^ 53 := by
        rw [← two_zpow_nat, ← zpow_add₀ (by norm_num : (2 : ℚ) ≠ 0)]
        rw [show (((Nat.log2 m + 1 : Nat) : ℤ) + (52 - (Nat.log2 m : ℤ))) = ((53 : Nat) : ℤ) by push_cast; ring]
        rw [zpow_natCast]

theorem inUnits_ge (m : Nat) (e : Int) (hm : m ≠ 0) (hq : lastPlace m e ≠ -1074) : 2 ^ 52 ≤ inUnits m e := by
  have h1 : 2 ^ Nat.log2 m ≤ m := Nat.log2_self_le hm
  have h2 : e - lastPlace m e = 52 - (Nat.log2 m : Int) := by
    unfold lastPlace at hq ⊢
    rcases le_total (e + (Nat.log2 m : Int) - 52) (-1074) with h | h
    · rw [max_eq_right h] at hq; exact absurd rfl hq
    · rw [max_eq_left h]; omega
  unfold inUnits
  rw [h2]
  calc (2 : ℚ) ^ 52 = ((2 ^ Nat.log2 m : Nat) : ℚ) * 2 ^ (52 - (Nat.log2 m : Int)) := by
        rw [← two_zpow_nat, ← zpow_add₀ (by norm_num : (2 : ℚ) ≠ 0)]
        rw [show ((Nat.log2 m : ℤ) + (52 - (Nat.log2 m : ℤ))) = ((52 : Nat) : ℤ) by push_cast; ring]
        rw [zpow_natCast]
    _ ≤ (m : ℚ) * 2 ^ (52 - (Nat.log2 m : Int)) := by
        gcongr

/-- An integer bound carries over to the rounded integer. -/
theorem IsRound.le_of_le {r : Nat} {y : ℚ} (h : IsRound r y) (n : Nat) (hy : y ≤ n) : r ≤ n := by
  by_contra hc
  have : (n : ℚ) + 1 ≤ r := by exact_mod_cast (by omega : n + 1 ≤ r)
  have h1 := h.1
  rw [abs_le] at h1
  linarith

theorem IsRound.ge_of_ge {r : Nat} {y : ℚ} (h : IsRound r y) (n : Nat) (hy : (n : ℚ) ≤ y) : n ≤ r := by
  by_contra hc
  have : (r : ℚ) + 1 ≤ n := by exact_mod_cast (by omega : r + 1 ≤ n)
  have h1 := h.1
  rw [abs_le] at h1
  linarith

/-- A rounded integer is at least as near as any other integer, and even where another one is as near. -/
theorem IsRound.nearest {r : Nat} {y : ℚ} (h : IsRound r y) (k : ℤ) :
    |(r : ℚ) - y| ≤ |(k : ℚ) - y| ∧ (|(r : ℚ) - y| = |(k : ℚ) - y| → k ≠ r → r % 2 = 0) := by
  obtain ⟨h1, h2⟩ := h
  by_cases hk : k = (r : ℤ)
  · subst hk; exact ⟨by push_cast; exact le_refl _, fun _ hn => absurd rfl hn⟩
  · have h3 : (1 : ℚ) ≤ |(k : ℚ) - r| := by
      have : (1 : ℤ) ≤ |k - r| := Int.one_le_abs (sub_ne_zero.mpr hk)
      exact_mod_cast this
    have h4 : |(k : ℚ) - r| ≤ |(k : ℚ) - y| + |(r : ℚ) - y| := by
      have := abs_sub_le (k : ℚ) y r
      rwa [abs_sub_comm y] at this
    refine ⟨by linarith, fun he _ => h2 ?_⟩
    linarith

/-! The bits of a packed value. -/

theorem signWeight_cases (s : Bool) : signWeight s = 0 ∧ s = false ∨ signWeight s = 2 ^ 63 ∧ s = true := by
  cases s <;> simp [signWeight]

theorem packed_toNat (s : Bool) (b : Nat) (hb : b < 2 ^ 63) :
    (BitVec.ofNat 64 (signWeight s + b)).toNat = signWeight s + b := by
  rw [BitVec.toNat_ofNat]
  obtain ⟨h, _⟩ | ⟨h, _⟩ := signWeight_cases s <;> rw [h] <;> omega

theorem packed_sign (s : Bool) (b : Nat) (hb : b < 2 ^ 63) :
    fSign (BitVec.ofNat 64 (signWeight s + b)) = s := by
  unfold fSign
  rw [BitVec.msb_eq_decide, packed_toNat s b hb]
  obtain ⟨h, rfl⟩ | ⟨h, rfl⟩ := signWeight_cases s <;> rw [h]
  · simp; omega
  · simp

theorem packed_exp (s : Bool) (b : Nat) (hb : b < 2 ^ 63) :
    fExp (BitVec.ofNat 64 (signWeight s + b)) = b / 2 ^ 52 := by
  unfold fExp
  rw [packed_toNat s b hb]
  obtain ⟨h, _⟩ | ⟨h, _⟩ := signWeight_cases s <;> rw [h] <;> omega

theorem packed_frac (s : Bool) (b : Nat) (hb : b < 2 ^ 63) :
    fFrac (BitVec.ofNat 64 (signWeight s + b)) = b % 2 ^ 52 := by
  unfold fFrac
  rw [packed_toNat s b hb]
  obtain ⟨h, _⟩ | ⟨h, _⟩ := signWeight_cases s <;> rw [h] <;> omega

/-- A significand r in units of 2^(k-1074), packed. -/
theorem packed_val (s : Bool) (k r : Nat) (hr : r ≤ 2 ^ 53) (hk : k ≠ 0 → 2 ^ 52 ≤ r)
    (hb : k * 2 ^ 52 + r < 2047 * 2 ^ 52) :
    isFinite (BitVec.ofNat 64 (signWeight s + (k * 2 ^ 52 + r))) = true ∧
    fSign (BitVec.ofNat 64 (signWeight s + (k * 2 ^ 52 + r))) = s ∧
    fVal (BitVec.ofNat 64 (signWeight s + (k * 2 ^ 52 + r))) =
      sgn s * ((r : ℚ) * 2 ^ ((k : ℤ) - 1074)) ∧
    (r % 2 = 0 → fMant (BitVec.ofNat 64 (signWeight s + (k * 2 ^ 52 + r))) % 2 = 0) := by
  have hb63 : k * 2 ^ 52 + r < 2 ^ 63 := by omega
  have e1 := packed_exp s _ hb63
  have e2 := packed_frac s _ hb63
  have e3 := packed_sign s _ hb63
  generalize BitVec.ofNat 64 (signWeight s + (k * 2 ^ 52 + r)) = x at *
  refine ⟨?_, e3, ?_, ?_⟩
  · unfold isFinite; rw [e1]; simp only [bne_iff_ne]; omega
  · rw [fVal_eq, e3]
    congr 1
    unfold fMant fUlp
    rw [e1, e2]
    rcases Nat.lt_or_ge r (2 ^ 52) with h | h
    · have hk0 : k = 0 := by by_contra hc; have := hk hc; omega
      subst hk0
      rw [show (0 * 2 ^ 52 + r) / 2 ^ 52 = 0 by omega, if_pos rfl,
        show (0 * 2 ^ 52 + r) % 2 ^ 52 = r by omega]
      norm_num
    · rcases Nat.lt_or_ge r (2 ^ 53) with h2 | h2
      · rw [show (k * 2 ^ 52 + r) / 2 ^ 52 = k + 1 by omega, if_neg (by omega),
          show (k * 2 ^ 52 + r) % 2 ^ 52 + 2 ^ 52 = r by omega, show max (k + 1) 1 = k + 1 by omega]
        congr 1
        rw [show (((k + 1 : Nat) : ℤ) - 1075) = (k : ℤ) - 1074 by push_cast; ring]
      · have : r = 2 ^ 53 := by omega
        subst this
        rw [show (k * 2 ^ 52 + 2 ^ 53) / 2 ^ 52 = k + 2 by omega, if_neg (by omega),
          show (k * 2 ^ 52 + 2 ^ 53) % 2 ^ 52 + 2 ^ 52 = 2 ^ 52 by omega, show max (k + 2) 1 = k + 2 by omega]
        rw [show (((k + 2 : Nat) : ℤ) - 1075) = 1 + ((k : ℤ) - 1074) by push_cast; ring,
          zpow_add₀ (by norm_num : (2 : ℚ) ≠ 0)]
        norm_num; ring
  · intro hr2
    unfold fMant
    rw [e1, e2]
    split <;> omega

theorem fInf_not_finite (s : Bool) : isFinite (fInf s) = false := by cases s <;> decide

theorem qNaN_not_finite : isFinite qNaN = false := by decide

theorem fZero_finite (s : Bool) : isFinite (fZero s) = true := by cases s <;> decide

theorem fZero_val (s : Bool) : fVal (fZero s) = 0 := by
  have : fMant (fZero s) = 0 := by cases s <;> decide
  rw [fVal_eq, this]; simp

theorem fZero_sign (s : Bool) : fSign (fZero s) = s := by cases s <;> decide

theorem fZero_isZero (s : Bool) : isZero (fZero s) = true := by cases s <;> decide

theorem roundMant_le (m : Nat) (e : Int) (hm : m ≠ 0) : roundMant m e ≤ 2 ^ 53 :=
  (roundMant_isRound m e).le_of_le (2 ^ 53) (by have := inUnits_lt m e hm; push_cast; linarith)

/-- Everything packRound can do with a value that is not zero. -/
theorem packRound_cases (s : Bool) (m : Nat) (e : Int) (hm : m ≠ 0) :
    (isFinite (packRound s m e) = false ∧ packRound s m e = fInf s ∧
      2047 * 2 ^ 52 ≤ (lastPlace m e + 1074).toNat * 2 ^ 52 + roundMant m e) ∨
    (isFinite (packRound s m e) = true ∧ fSign (packRound s m e) = s ∧
      fVal (packRound s m e) = sgn s * ((roundMant m e : ℚ) * 2 ^ (lastPlace m e)) ∧
      (roundMant m e % 2 = 0 → fMant (packRound s m e) % 2 = 0)) := by
  have hq := lastPlace_ge m e
  have hr := roundMant_isRound m e
  have hle := roundMant_le m e hm
  have hge : (lastPlace m e + 1074).toNat ≠ 0 → 2 ^ 52 ≤ roundMant m e := by
    intro hk
    refine hr.ge_of_ge (2 ^ 52) ?_
    have := inUnits_ge m e hm (by omega)
    push_cast; linarith
  unfold packRound
  rw [if_neg hm]
  split
  · rename_i h; exact .inl ⟨fInf_not_finite s, rfl, h⟩
  · rename_i h
    right
    obtain ⟨p1, p2, p3, p4⟩ := packed_val s (lastPlace m e + 1074).toNat (roundMant m e) hle hge (by omega)
    refine ⟨p1, p2, ?_, p4⟩
    rw [p3, show (((lastPlace m e + 1074).toNat : Nat) : ℤ) - 1074 = lastPlace m e by omega]

theorem packRound_zero (s : Bool) (e : Int) : packRound s 0 e = fZero s := by simp [packRound]

theorem packRound_sign (s : Bool) (m : Nat) (e : Int) : fSign (packRound s m e) = s := by
  by_cases hm : m = 0
  · subst hm; rw [packRound_zero, fZero_sign]
  · obtain ⟨_, h, _⟩ | ⟨_, h, _⟩ := packRound_cases s m e hm
    · rw [h]; cases s <;> decide
    · exact h

theorem fMant_lt (x : F64) : fMant x < 2 ^ 53 := by
  unfold fMant fFrac
  split <;> omega

theorem fUlp_ge (x : F64) : 1 ≤ fUlp x := le_max_right _ _

theorem fUlp_le (x : F64) (hx : isFinite x = true) : fUlp x ≤ 2046 := by
  unfold isFinite at hx
  simp only [bne_iff_ne] at hx
  have : fExp x < 2048 := Nat.mod_lt _ (by norm_num)
  unfold fUlp; omega

/-- A finite value is an integer below 2^53 in magnitude, times a power of two that is not below 2^-1074. -/
theorem fVal_int (x : F64) : ∃ (n : ℤ) (w : ℤ), |n| < 2 ^ 53 ∧ -1074 ≤ w ∧ fVal x = (n : ℚ) * 2 ^ w := by
  have h := fMant_lt x
  have h2 := fUlp_ge x
  refine ⟨(if fSign x then -1 else 1) * (fMant x : ℤ), (fUlp x : ℤ) - 1075, ?_, by omega, ?_⟩
  · rw [abs_mul]
    have : |(if fSign x = true then (-1 : ℤ) else 1)| = 1 := by split <;> norm_num
    rw [this, one_mul, abs_of_nonneg (by positivity)]
    exact_mod_cast h
  · unfold fVal
    split <;> push_cast <;> rfl

/-- The rounding of an exact value y · 2^q, against every value that binary64 can hold. -/
theorem rounded_nearest (s : Bool) (r : Nat) (y : ℚ) (q : ℤ) (hr : IsRound r y)
    (hy : q ≠ -1074 → 2 ^ 52 ≤ y) (n w : ℤ) (hn : |n| < 2 ^ 53) (hw : -1074 ≤ w) :
    |sgn s * ((r : ℚ) * 2 ^ q) - sgn s * (y * 2 ^ q)| ≤ |(n : ℚ) * 2 ^ w - sgn s * (y * 2 ^ q)| ∧
    (|sgn s * ((r : ℚ) * 2 ^ q) - sgn s * (y * 2 ^ q)| = |(n : ℚ) * 2 ^ w - sgn s * (y * 2 ^ q)| →
      (n : ℚ) * 2 ^ w ≠ sgn s * ((r : ℚ) * 2 ^ q) → r % 2 = 0) := by
  have hpos := two_zpow_pos q
  have e1 : |sgn s * ((r : ℚ) * 2 ^ q) - sgn s * (y * 2 ^ q)| = |(r : ℚ) - y| * 2 ^ q := by
    rw [← mul_sub, abs_sgn_mul, ← sub_mul, abs_mul, abs_of_pos hpos]
  have hss := sgn_mul_self s
  have e2 : |(n : ℚ) * 2 ^ w - sgn s * (y * 2 ^ q)| = |sgn s * (n * 2 ^ (w - q)) - y| * 2 ^ q := by
    have : (n : ℚ) * 2 ^ w - sgn s * (y * 2 ^ q) = sgn s * ((sgn s * (n * 2 ^ (w - q)) - y) * 2 ^ q) := by
      have hz : (2 : ℚ) ^ (w - q) * 2 ^ q = 2 ^ w := by
        rw [← zpow_add₀ (by norm_num : (2 : ℚ) ≠ 0)]; congr 1; ring
      have : sgn s * ((sgn s * (n * 2 ^ (w - q)) - y) * 2 ^ q) =
          (sgn s * sgn s) * (n * (2 ^ (w - q) * 2 ^ q)) - sgn s * (y * 2 ^ q) := by ring
      rw [this, hss, hz]; ring
    rw [this, abs_sgn_mul, abs_mul, abs_of_pos hpos]
  have e3 : (n : ℚ) * 2 ^ w ≠ sgn s * ((r : ℚ) * 2 ^ q) → sgn s * (n * 2 ^ (w - q)) ≠ (r : ℚ) := by
    intro h hc
    refine h ?_
    have hz : (2 : ℚ) ^ (w - q) * 2 ^ q = 2 ^ w := by
      rw [← zpow_add₀ (by norm_num : (2 : ℚ) ≠ 0)]; congr 1; ring
    have : sgn s * ((r : ℚ) * 2 ^ q) = (sgn s * sgn s) * (n * (2 ^ (w - q) * 2 ^ q)) := by
      rw [← hc]; ring
    rw [this, hss, hz]; ring
  rw [e1, e2]
  by_cases hwq : q ≤ w
  · obtain ⟨k, hk⟩ : ∃ k : ℤ, sgn s * ((n : ℚ) * 2 ^ (w - q)) = k := by
      refine ⟨(if s then -1 else 1) * (n * 2 ^ (w - q).toNat), ?_⟩
      have : (2 : ℚ) ^ (w - q) = ((2 ^ (w - q).toNat : Nat) : ℚ) := by
        rw [← two_zpow_nat, show (((w - q).toNat : Nat) : ℤ) = w - q by omega]
      rw [this]; unfold sgn
      split <;> push_cast <;> ring
    rw [hk] at e3 ⊢
    obtain ⟨h1, h2⟩ := hr.nearest k
    refine ⟨by gcongr, fun he hne => h2 (mul_right_cancel₀ hpos.ne' he) ?_⟩
    intro hkr; exact e3 hne (by rw [hkr]; push_cast; rfl)
  · have hy := hy (by omega)
    have hz : |sgn s * ((n : ℚ) * 2 ^ (w - q))| < 2 ^ 52 := by
      rw [abs_sgn_mul, abs_mul, abs_of_pos (two_zpow_pos (w - q))]
      have h1 : |(n : ℚ)| < 2 ^ 53 := by exact_mod_cast hn
      have h2 : (2 : ℚ) ^ (w - q) ≤ 2 ^ (-1 : ℤ) := by
        apply zpow_le_zpow_right₀ (by norm_num); omega
      calc |(n : ℚ)| * 2 ^ (w - q) < 2 ^ 53 * 2 ^ (w - q) := by gcongr
        _ ≤ 2 ^ 53 * 2 ^ (-1 : ℤ) := by gcongr
        _ = 2 ^ 52 := by norm_num
    have h1 : |(r : ℚ) - y| ≤ |((2 ^ 52 : ℤ) : ℚ) - y| := (hr.nearest (2 ^ 52)).1
    have h2 : |((2 ^ 52 : ℤ) : ℚ) - y| = y - 2 ^ 52 := by
      rw [abs_sub_comm, abs_of_nonneg] <;> push_cast <;> linarith
    have h3 : y - 2 ^ 52 < |sgn s * ((n : ℚ) * 2 ^ (w - q)) - y| := by
      have h4 := neg_abs_le (sgn s * ((n : ℚ) * 2 ^ (w - q)) - y)
      have h5 := le_abs_self (sgn s * ((n : ℚ) * 2 ^ (w - q)))
      linarith
    have h6 : |(r : ℚ) - y| < |sgn s * ((n : ℚ) * 2 ^ (w - q)) - y| := by linarith
    refine ⟨by gcongr, fun he _ => ?_⟩
    have := mul_right_cancel₀ hpos.ne' he
    linarith

/-- A value y · 2^lastPlace whose rounding is roundMant: what packRound makes of it, against every value that
binary64 can hold. -/
theorem packRound_nearest_of (s : Bool) (m : Nat) (e : Int) (hm : m ≠ 0) (y : ℚ)
    (hr : IsRound (roundMant m e) y) (hy : lastPlace m e ≠ -1074 → 2 ^ 52 ≤ y)
    (hf : isFinite (packRound s m e) = true) (z : F64) :
    |fVal (packRound s m e) - sgn s * (y * 2 ^ lastPlace m e)| ≤ |fVal z - sgn s * (y * 2 ^ lastPlace m e)| ∧
    (|fVal (packRound s m e) - sgn s * (y * 2 ^ lastPlace m e)| = |fVal z - sgn s * (y * 2 ^ lastPlace m e)| →
      fVal z ≠ fVal (packRound s m e) → fMant (packRound s m e) % 2 = 0) := by
  obtain ⟨h, _⟩ | ⟨_, _, hv, hm2⟩ := packRound_cases s m e hm
  · rw [h] at hf; cases hf
  · obtain ⟨n, w, hn, hw, hz⟩ := fVal_int z
    obtain ⟨h1, h2⟩ := rounded_nearest s (roundMant m e) y (lastPlace m e) hr hy n w hn hw
    rw [hv, hz]
    exact ⟨h1, fun a b => hm2 (h2 a b)⟩

/-- The same, of a value that binary64 can hold: it is packed without rounding. -/
theorem packRound_exact_of (s : Bool) (m : Nat) (e : Int) (hm : m ≠ 0) (y : ℚ)
    (hr : IsRound (roundMant m e) y) (hy : lastPlace m e ≠ -1074 → 2 ^ 52 ≤ y) (n w : ℤ) (hn : |n| < 2 ^ 53)
    (hw : -1074 ≤ w) (hw2 : w ≤ 971) (h : sgn s * (y * 2 ^ lastPlace m e) = (n : ℚ) * 2 ^ w) :
    isFinite (packRound s m e) = true ∧ fVal (packRound s m e) = sgn s * (y * 2 ^ lastPlace m e) := by
  obtain ⟨h1, _⟩ := rounded_nearest s (roundMant m e) y (lastPlace m e) hr hy n w hn hw
  rw [← h, sub_self, abs_zero] at h1
  have hv : sgn s * ((roundMant m e : ℚ) * 2 ^ (lastPlace m e)) = sgn s * (y * 2 ^ (lastPlace m e)) := by
    have := abs_nonpos_iff.mp h1
    linarith
  have hge : lastPlace m e ≠ -1074 → 2 ^ 52 ≤ roundMant m e := fun hc =>
    hr.ge_of_ge (2 ^ 52) (by have := hy hc; push_cast; linarith)
  obtain ⟨_, _, hbig⟩ | ⟨hf, _, hv2, _⟩ := packRound_cases s m e hm
  · exfalso
    have habs : (roundMant m e : ℚ) * 2 ^ (lastPlace m e) < 2 ^ 53 * 2 ^ (971 : ℤ) := by
      have h3 : (roundMant m e : ℚ) * 2 ^ (lastPlace m e) = |(n : ℚ) * 2 ^ w| := by
        rw [← h, ← hv, abs_sgn_mul, abs_of_nonneg (by positivity)]
      rw [h3, abs_mul, abs_of_pos (two_zpow_pos w)]
      have h4 : |(n : ℚ)| < 2 ^ 53 := by exact_mod_cast hn
      calc |(n : ℚ)| * 2 ^ w < 2 ^ 53 * 2 ^ w := by gcongr
        _ ≤ 2 ^ 53 * 2 ^ (971 : ℤ) := by gcongr; norm_num
    have hle := roundMant_le m e hm
    have hlp : 971 ≤ lastPlace m e ∧ (lastPlace m e = 971 → 2 ^ 53 ≤ roundMant m e) := by
      have := lastPlace_ge m e
      constructor <;> omega
    rcases eq_or_lt_of_le hlp.1 with h5 | h5
    · have h6 : (2 : ℚ) ^ 53 ≤ roundMant m e := by exact_mod_cast hlp.2 h5.symm
      rw [← h5] at habs
      exact absurd (lt_of_mul_lt_mul_right habs (two_zpow_pos 971).le) (not_lt.mpr h6)
    · have h6 : (2 : ℚ) ^ 52 ≤ roundMant m e := by exact_mod_cast hge (by omega)
      have h7 : (2 : ℚ) ^ (972 : ℤ) ≤ 2 ^ (lastPlace m e) := by
        apply zpow_le_zpow_right₀ (by norm_num); omega
      have h8 : (2 : ℚ) ^ 52 * 2 ^ (972 : ℤ) ≤ (roundMant m e : ℚ) * 2 ^ (lastPlace m e) := by gcongr
      have h9 : (2 : ℚ) ^ 53 * 2 ^ (971 : ℤ) = 2 ^ 52 * 2 ^ (972 : ℤ) := by
        rw [show (972 : ℤ) = 1 + 971 by norm_num, zpow_add₀ (by norm_num : (2 : ℚ) ≠ 0)]
        generalize (2 : ℚ) ^ (971 : ℤ) = t
        ring
      exact absurd (lt_of_lt_of_le habs (h9 ▸ h8)) (lt_irrefl _)
  · exact ⟨hf, by rw [hv2, hv]⟩

theorem exact_inUnits (m : Nat) (e : Int) : (m : ℚ) * 2 ^ e = inUnits m e * 2 ^ (lastPlace m e) := by
  unfold inUnits
  rw [mul_assoc, ← zpow_add₀ (by norm_num : (2 : ℚ) ≠ 0)]; congr 2; ring

/-- The rounding of packRound against every value that binary64 can hold. -/
theorem packRound_nearest (s : Bool) (m : Nat) (e : Int) (hf : isFinite (packRound s m e) = true) (z : F64) :
    |fVal (packRound s m e) - sgn s * ((m : ℚ) * 2 ^ e)| ≤ |fVal z - sgn s * ((m : ℚ) * 2 ^ e)| ∧
    (|fVal (packRound s m e) - sgn s * ((m : ℚ) * 2 ^ e)| = |fVal z - sgn s * ((m : ℚ) * 2 ^ e)| →
      fVal z ≠ fVal (packRound s m e) → fMant (packRound s m e) % 2 = 0) := by
  by_cases hm : m = 0
  · subst hm
    rw [packRound_zero, fZero_val]
    refine ⟨by simp, fun _ _ => by cases s <;> decide⟩
  · rw [exact_inUnits]
    exact packRound_nearest_of s m e hm _ (roundMant_isRound m e) (inUnits_ge m e hm) hf z

/-- A value that binary64 can hold is packed without rounding. -/
theorem packRound_exact (s : Bool) (m : Nat) (e : Int) (n w : ℤ) (hn : |n| < 2 ^ 53) (hw : -1074 ≤ w)
    (hw2 : w ≤ 971) (h : sgn s * ((m : ℚ) * 2 ^ e) = (n : ℚ) * 2 ^ w) :
    isFinite (packRound s m e) = true ∧ fVal (packRound s m e) = sgn s * ((m : ℚ) * 2 ^ e) := by
  by_cases hm : m = 0
  · subst hm
    rw [packRound_zero, fZero_val]
    exact ⟨fZero_finite s, by simp⟩
  · rw [exact_inUnits] at h ⊢
    exact packRound_exact_of s m e hm _ (roundMant_isRound m e) (inUnits_ge m e hm) n w hn hw hw2 h

end Sys2Proof.Machine
end

