-- ==== Sys2Proof/Laws/FloatOps.lean ====
section
/-! SUPPORT. What each operation of binary64 answers on finite operands, as rational arithmetic (R16): the
nearest value, the exact one where binary64 can hold it, and the sign. -/

namespace Sys2Proof.Machine

theorem not_nan_of_finite {x : F64} (h : isFinite x = true) : isNaN x = false := by
  simp only [isFinite, bne_iff_ne] at h
  simp [isNaN, h]

theorem not_inf_of_finite {x : F64} (h : isFinite x = true) : isInf x = false := by
  simp only [isFinite, bne_iff_ne] at h
  simp [isInf, h]

theorem fNeg_toNat (x : F64) : (fNeg x).toNat = if x.toNat < 2 ^ 63 then x.toNat + 2 ^ 63 else x.toNat - 2 ^ 63 := by
  have hx := x.isLt
  have h : fNeg x = x + BitVec.ofNat 64 (2 ^ 63) := by
    unfold fNeg
    have : ∀ y : BitVec 1, y ^^^ 1#1 = y + 1#1 := by decide
    apply BitVec.eq_of_getLsbD_eq
    intro i hi
    rw [BitVec.getLsbD_xor, BitVec.getLsbD_add (by omega)]
    simp only [BitVec.getLsbD_ofNat]
    rcases Nat.lt_or_ge i 63 with h2 | h2
    · have hc : BitVec.carry i x (BitVec.ofNat 64 (2 ^ 63)) false = false := by
        rw [BitVec.carry]
        have h3 : (BitVec.ofNat 64 (2 ^ 63)).toNat % 2 ^ i = 0 := by
          rw [BitVec.toNat_ofNat]
          refine Nat.mod_eq_zero_of_dvd ?_
          exact (Nat.dvd_mod_iff (pow_dvd_pow 2 hi.le)).mpr (pow_dvd_pow 2 (by omega))
        rw [h3]
        have := Nat.mod_lt x.toNat (Nat.two_pow_pos i)
        simp; omega
      rw [hc]; simp
    · have : i = 63 := by omega
      subst this
      have hc : BitVec.carry 63 x (BitVec.ofNat 64 (2 ^ 63)) false = false := by
        rw [BitVec.carry]
        simp; omega
      rw [hc]; simp
  rw [h, BitVec.toNat_add]
  simp only [BitVec.toNat_ofNat]
  split <;> omega

theorem fNeg_exp (x : F64) : fExp (fNeg x) = fExp x := by
  have hx := x.isLt
  unfold fExp; rw [fNeg_toNat]; split <;> omega

theorem fNeg_frac (x : F64) : fFrac (fNeg x) = fFrac x := by
  have hx := x.isLt
  unfold fFrac; rw [fNeg_toNat]; split <;> omega

theorem fNeg_sign (x : F64) : fSign (fNeg x) = !fSign x := by
  have hx := x.isLt
  unfold fSign
  rw [BitVec.msb_eq_decide, BitVec.msb_eq_decide, fNeg_toNat, ← decide_not, decide_eq_decide]
  split <;> norm_num <;> omega

@[simp] theorem fNeg_finite (x : F64) : isFinite (fNeg x) = isFinite x := by simp [isFinite, fNeg_exp]

theorem fNeg_val (x : F64) : fVal (fNeg x) = - fVal x := by
  have h1 : fMant (fNeg x) = fMant x := by unfold fMant; rw [fNeg_exp, fNeg_frac]
  have h2 : fUlp (fNeg x) = fUlp x := by unfold fUlp; rw [fNeg_exp]
  rw [fVal_eq, fVal_eq, h1, h2, fNeg_sign]
  cases fSign x <;> simp [sgn]

/-- The aligned significand is the value in units of the place. -/
theorem fAligned_val (x : F64) (u : Nat) (hu : u ≤ fUlp x) :
    (fAligned x u : ℚ) * 2 ^ ((u : ℤ) - 1075) = fVal x := by
  have h : (2 : ℚ) ^ ((fUlp x : ℤ) - 1075) = ((2 ^ (fUlp x - u) : Nat) : ℚ) * 2 ^ ((u : ℤ) - 1075) := by
    rw [← two_zpow_nat, ← zpow_add₀ (by norm_num : (2 : ℚ) ≠ 0)]
    congr 1; omega
  unfold fAligned fVal
  rw [h]
  split <;> push_cast <;> ring

theorem sgn_natAbs (r : Int) : sgn (decide (r < 0)) * (r.natAbs : ℚ) = r := by
  unfold sgn
  rcases lt_or_ge r 0 with h | h
  · have : ((r.natAbs : Nat) : ℚ) = ((-r : ℤ) : ℚ) := by
      rw [← Int.cast_natCast, Int.ofNat_natAbs_of_nonpos h.le]
    rw [this]; simp [h]
  · have : ((r.natAbs : Nat) : ℚ) = ((r : ℤ) : ℚ) := by
      rw [← Int.cast_natCast, Int.natAbs_of_nonneg h]
    rw [this]; simp [not_lt.mpr h]

/-- A whole number below 2^53 is a binary64. -/
theorem fOfInt_exact (n : Int) (hn : |n| < 2 ^ 53) : isFinite (fOfInt n) = true ∧ fVal (fOfInt n) = n := by
  have h : sgn (decide (n < 0)) * ((n.natAbs : ℚ) * 2 ^ (0 : ℤ)) = (n : ℚ) := by
    rw [zpow_zero, mul_one, sgn_natAbs]
  obtain ⟨h1, h2⟩ := packRound_exact (decide (n < 0)) n.natAbs 0 n 0 hn (by norm_num) (by norm_num)
    (by rw [h, zpow_zero, mul_one])
  exact ⟨h1, by unfold fOfInt; rw [h2, h]⟩

theorem fOfInt_sign (n : Int) : fSign (fOfInt n) = decide (n < 0) := packRound_sign _ _ _

/-- A finite sum is the rounding of the exact one. -/
theorem fAdd_cases (x y : F64) (hx : isFinite x = true) (hy : isFinite y = true) :
    (fAdd x y = fZero (fSign x && fSign y) ∧ fVal x + fVal y = 0) ∨
    ∃ (s : Bool) (m : Nat) (e : Int), fAdd x y = packRound s m e ∧
      sgn s * ((m : ℚ) * 2 ^ e) = fVal x + fVal y := by
  have hxu := fAligned_val x (min (fUlp x) (fUlp y)) (min_le_left _ _)
  have hyu := fAligned_val y (min (fUlp x) (fUlp y)) (min_le_right _ _)
  unfold fAdd
  rw [not_nan_of_finite hx, not_nan_of_finite hy, not_inf_of_finite hx, not_inf_of_finite hy]
  simp only [Bool.or_self, Bool.false_eq_true, if_false]
  split
  · rename_i h
    refine .inl ⟨rfl, ?_⟩
    have : ((fAligned x (min (fUlp x) (fUlp y)) + fAligned y (min (fUlp x) (fUlp y)) : ℤ) : ℚ) = 0 := by
      rw [h]; rfl
    push_cast at this
    rw [← hxu, ← hyu, ← add_mul, this, zero_mul]
  · refine .inr ⟨_, _, _, rfl, ?_⟩
    rw [← mul_assoc, sgn_natAbs, ← hxu, ← hyu]; push_cast; ring

theorem fMul_eq (x y : F64) (hx : isFinite x = true) (hy : isFinite y = true) :
    fMul x y = packRound (fSign x != fSign y) (fMant x * fMant y) ((fUlp x : Int) + fUlp y - 2150) ∧
    sgn (fSign x != fSign y) * (((fMant x * fMant y : Nat) : ℚ) * 2 ^ ((fUlp x : Int) + fUlp y - 2150)) =
      fVal x * fVal y := by
  constructor
  · unfold fMul
    rw [not_nan_of_finite hx, not_nan_of_finite hy, not_inf_of_finite hx, not_inf_of_finite hy]
    simp
  · rw [fVal_eq, fVal_eq, sgn_xor,
      show ((fUlp x : Int) + fUlp y - 2150) = ((fUlp x : Int) - 1075) + ((fUlp y : Int) - 1075) by ring,
      zpow_add₀ (by norm_num : (2 : ℚ) ≠ 0)]
    push_cast; ring

theorem fDiv_eq (x y : F64) (hx : isFinite x = true) (hy : isFinite y = true) (h0 : isZero y = false) :
    fDiv x y = packRound (fSign x != fSign y) (divMant (fMant x) (fMant y))
      ((fUlp x : Int) - fUlp y - (divShift : Int) - 1) := by
  unfold fDiv
  rw [not_nan_of_finite hx, not_nan_of_finite hy, not_inf_of_finite hx, not_inf_of_finite hy, h0]
  simp

theorem fMant_pos {y : F64} (h0 : isZero y = false) : 0 < fMant y := by
  unfold fMant; unfold isZero at h0
  split
  · rename_i h; rw [h] at h0; simp at h0; omega
  · positivity

/-- The exact quotient in the units of divMant. -/
def divExact (m d : Nat) : ℚ := 2 * ((m * 2 ^ divShift : Nat) : ℚ) / (d : ℚ)

theorem fDiv_val (x y : F64) (h0 : isZero y = false) :
    sgn (fSign x != fSign y) * (divExact (fMant x) (fMant y) * 2 ^ ((fUlp x : Int) - fUlp y - (divShift : Int) - 1)) =
      fVal x / fVal y := by
  have hm : (fMant y : ℚ) ≠ 0 := by exact_mod_cast (fMant_pos h0).ne'
  have hs : sgn (fSign y) ≠ 0 := by unfold sgn; split <;> norm_num
  have hss := sgn_mul_self (fSign y)
  have hu := (two_zpow_pos ((fUlp y : ℤ) - 1075)).ne'
  rw [fVal_eq, fVal_eq, sgn_xor, eq_div_iff (mul_ne_zero hs (mul_ne_zero hm hu))]
  have e1 : (2 : ℚ) ^ ((fUlp x : Int) - fUlp y - (divShift : Int) - 1) * 2 ^ ((fUlp y : ℤ) - 1075) *
      (2 * ((2 ^ divShift : Nat) : ℚ)) = 2 ^ ((fUlp x : ℤ) - 1075) := by
    rw [← two_zpow_nat, ← zpow_add₀ (by norm_num : (2 : ℚ) ≠ 0), ← zpow_one_add₀ (by norm_num : (2 : ℚ) ≠ 0),
      ← zpow_add₀ (by norm_num : (2 : ℚ) ≠ 0)]
    congr 1; ring
  have e2 : divExact (fMant x) (fMant y) * (fMant y : ℚ) = 2 * ((2 ^ divShift : Nat) : ℚ) * fMant x := by
    unfold divExact; rw [div_mul_cancel₀ _ hm]; push_cast; ring
  calc _ = (sgn (fSign y) * sgn (fSign y)) * sgn (fSign x) * (divExact (fMant x) (fMant y) * (fMant y : ℚ)) *
        (2 ^ ((fUlp x : Int) - fUlp y - (divShift : Int) - 1) * 2 ^ ((fUlp y : ℤ) - 1075)) := by ring
    _ = sgn (fSign x) * (fMant x * (2 ^ ((fUlp x : Int) - fUlp y - (divShift : Int) - 1) *
        2 ^ ((fUlp y : ℤ) - 1075) * (2 * ((2 ^ divShift : Nat) : ℚ)))) := by rw [hss, e2]; ring
    _ = _ := by rw [e1]

/-- The exact quotient lies strictly between the even neighbours of an odd divMant, and is divMant when that
is even. -/
theorem divExact_between (m d : Nat) (hd : 0 < d) :
    (divExact m d = divMant m d) ∨
    (divMant m d % 2 = 1 ∧ (divMant m d : ℚ) - 1 < divExact m d ∧ divExact m d < (divMant m d : ℚ) + 1) := by
  have hdq : (0 : ℚ) < d := by exact_mod_cast hd
  unfold divMant divExact
  generalize m * 2 ^ divShift = t
  have hdm := Nat.div_add_mod t d
  have hlt := Nat.mod_lt t hd
  split
  · rename_i h
    left
    rw [div_eq_iff hdq.ne']
    have h2 : t = d * (t / d) := by omega
    have h3 : (t : ℚ) = ((d * (t / d) : Nat) : ℚ) := congrArg Nat.cast h2
    push_cast at h3 ⊢; linarith
  · rename_i h
    right
    refine ⟨by omega, ?_, ?_⟩
    · rw [lt_div_iff₀ hdq]
      have h2 : 2 * (t / d) * d < 2 * t := by rw [Nat.mul_assoc, Nat.mul_comm (t / d) d]; omega
      have h3 : ((2 * (t / d) * d : Nat) : ℚ) < ((2 * t : Nat) : ℚ) := by exact_mod_cast h2
      push_cast at h3 ⊢; linarith
    · rw [div_lt_iff₀ hdq]
      have h2 : 2 * t < (2 * (t / d) + 2) * d := by
        have e : (2 * (t / d) + 2) * d = 2 * (d * (t / d)) + 2 * d := by ring
        rw [e]; omega
      have h3 : ((2 * t : Nat) : ℚ) < (((2 * (t / d) + 2) * d : Nat) : ℚ) := by exact_mod_cast h2
      push_cast at h3 ⊢; linarith

/-- Rounding away at least two bits of an odd number rounds the whole open interval about it alike. -/
theorem roundShift_sticky (m k : Nat) (hk : 2 ≤ k) (hm : m % 2 = 1) (v : ℚ) (h1 : (m : ℚ) - 1 < v)
    (h2 : v < (m : ℚ) + 1) : IsRound (roundShift m k) (v / ((2 ^ k : Nat) : ℚ)) := by
  obtain ⟨h3, _⟩ := roundShift_isRound m k
  have hP : (0 : ℚ) < ((2 ^ k : Nat) : ℚ) := by positivity
  generalize roundShift m k = r at *
  obtain ⟨P, hPk⟩ : ∃ P, 2 ^ k = 4 * P := ⟨2 ^ (k - 2), by
    rw [show 4 = 2 ^ 2 by rfl, ← pow_add]; congr 1; omega⟩
  rw [hPk] at h3 hP ⊢
  have h3 : ((r : ℚ) - 1 / 2) * ((4 * P : Nat) : ℚ) ≤ m ∧ (m : ℚ) ≤ ((r : ℚ) + 1 / 2) * ((4 * P : Nat) : ℚ) := by
    rw [abs_le] at h3
    rw [← le_div_iff₀ hP, ← div_le_iff₀ hP]
    constructor <;> linarith
  have a1 : (4 * (P * r) : ℤ) - 2 * P ≤ m := by
    have : ((4 * (P * r) : ℤ) - 2 * P : ℚ) ≤ (m : ℤ) := by push_cast at h3 ⊢; linarith
    exact_mod_cast this
  have a2 : (m : ℤ) ≤ 4 * ((P : ℤ) * r) + 2 * P := by
    have : ((m : ℤ) : ℚ) ≤ ((4 * (P * r) + 2 * P : ℤ) : ℚ) := by push_cast at h3 ⊢; linarith
    exact_mod_cast this
  have b1 : 4 * ((P : ℤ) * r) - 2 * P + 1 ≤ m := by omega
  have b2 : (m : ℤ) + 1 ≤ 4 * ((P : ℤ) * r) + 2 * P := by omega
  have c1 : ((4 * (P * r) - 2 * P + 1 : ℤ) : ℚ) ≤ ((m : ℤ) : ℚ) := by exact_mod_cast b1
  have c2 : (((m : ℤ) + 1 : ℤ) : ℚ) ≤ ((4 * (P * r) + 2 * P : ℤ) : ℚ) := by exact_mod_cast b2
  push_cast at c1 c2 hP
  have key : |(r : ℚ) - v / ((4 * P : Nat) : ℚ)| < 1 / 2 := by
    rw [abs_lt]
    push_cast
    constructor
    · rw [lt_sub_iff_add_lt, ← lt_sub_iff_add_lt', div_lt_iff₀ hP]; linarith
    · rw [sub_lt_iff_lt_add, ← sub_lt_iff_lt_add', lt_div_iff₀ hP]; linarith
  exact ⟨key.le, fun h => absurd h key.ne⟩

theorem divMant_large (m d : Nat) (hm : 0 < m) (hd : 0 < d) (hd2 : d < 2 ^ 53) : 2 ^ 68 ≤ divMant m d := by
  have h : 2 ^ 67 ≤ m * 2 ^ divShift / d := by
    rw [Nat.le_div_iff_mul_le hd]
    calc 2 ^ 67 * d ≤ 2 ^ 67 * 2 ^ 53 := Nat.mul_le_mul_left _ hd2.le
      _ = 1 * 2 ^ divShift := by unfold divShift; norm_num
      _ ≤ m * 2 ^ divShift := Nat.mul_le_mul_right _ hm
  unfold divMant
  generalize m * 2 ^ divShift / d = q at *
  omega

/-- What packRound rounds of a quotient, and its exact value. -/
theorem fDiv_rounding (x y : F64) (h0 : isZero y = false) (hm : 0 < fMant x) (e : Int) :
    ∃ v : ℚ, divMant (fMant x) (fMant y) ≠ 0 ∧ IsRound (roundMant (divMant (fMant x) (fMant y)) e) v ∧
      (lastPlace (divMant (fMant x) (fMant y)) e ≠ -1074 → 2 ^ 52 ≤ v) ∧
      divExact (fMant x) (fMant y) * 2 ^ e = v * 2 ^ lastPlace (divMant (fMant x) (fMant y)) e := by
  have hd := fMant_pos h0
  have hbig := divMant_large _ _ hm hd (fMant_lt y)
  have hbt := divExact_between (fMant x) (fMant y) hd
  generalize divMant (fMant x) (fMant y) = m at *
  generalize divExact (fMant x) (fMant y) = v at *
  have hlog : 68 ≤ Nat.log2 m := (Nat.le_log2 (by omega)).mpr hbig
  have hlp : e + (Nat.log2 m : Int) - 52 ≤ lastPlace m e := le_max_left _ _
  obtain ⟨k, hk⟩ : ∃ k : Nat, lastPlace m e = e + k := ⟨(lastPlace m e - e).toNat, by omega⟩
  have hrm : roundMant m e = roundShift m k := by
    unfold roundMant; rw [if_neg (by omega)]; congr 1; omega
  refine ⟨v / ((2 ^ k : Nat) : ℚ), by omega, ?_, ?_, ?_⟩
  · rw [hrm]
    obtain h | ⟨h1, h2, h3⟩ := hbt
    · rw [h]; exact roundShift_isRound m k
    · exact roundShift_sticky m k (by omega) h1 v h2 h3
  · intro hne
    have hkl : Nat.log2 m = 52 + k := by
      unfold lastPlace at hne hk
      rcases le_total (e + (Nat.log2 m : Int) - 52) (-1074) with h | h
      · rw [max_eq_right h] at hne; exact absurd rfl hne
      · rw [max_eq_left h] at hk; omega
    have hm2 : 2 ^ 52 * 2 ^ k ≤ m := by
      rw [← pow_add, ← hkl]; exact Nat.log2_self_le (by omega)
    rw [le_div_iff₀ (by positivity)]
    obtain h | ⟨h1, h2, _⟩ := hbt
    · rw [h]; exact_mod_cast hm2
    · have hm3 : 2 ^ 52 * 2 ^ k + 1 ≤ m := by omega
      have : (((2 ^ 52 * 2 ^ k + 1 : Nat)) : ℚ) ≤ m := by exact_mod_cast hm3
      push_cast at this ⊢
      linarith
  · rw [hk, zpow_add₀ (by norm_num : (2 : ℚ) ≠ 0), two_zpow_nat]
    have : ((2 ^ k : Nat) : ℚ) ≠ 0 := by positivity
    field_simp

theorem divMant_zero (d : Nat) : divMant 0 d = 0 := by simp [divMant]

theorem fVal_of_mant_zero {x : F64} (h : fMant x = 0) : fVal x = 0 := by rw [fVal_eq, h]; simp

/-- The rounding of a finite quotient against every value that binary64 can hold. -/
theorem fDiv_nearest (x y : F64) (hx : isFinite x = true) (hy : isFinite y = true) (h0 : isZero y = false)
    (hf : isFinite (fDiv x y) = true) (z : F64) :
    |fVal (fDiv x y) - fVal x / fVal y| ≤ |fVal z - fVal x / fVal y| ∧
    (|fVal (fDiv x y) - fVal x / fVal y| = |fVal z - fVal x / fVal y| →
      fVal z ≠ fVal (fDiv x y) → fMant (fDiv x y) % 2 = 0) := by
  rw [fDiv_eq x y hx hy h0] at hf ⊢
  rcases Nat.eq_zero_or_pos (fMant x) with hm | hm
  · rw [hm, divMant_zero, packRound_zero, fZero_val, fVal_of_mant_zero hm, zero_div]
    exact ⟨by simp, fun _ _ => by cases fSign x <;> cases fSign y <;> decide⟩
  · obtain ⟨v, h1, h2, h3, h4⟩ := fDiv_rounding x y h0 hm ((fUlp x : Int) - fUlp y - (divShift : Int) - 1)
    rw [← fDiv_val x y h0, h4]
    exact packRound_nearest_of _ _ _ h1 v h2 h3 hf z

theorem fAdd_nearest (x y : F64) (hx : isFinite x = true) (hy : isFinite y = true)
    (hf : isFinite (fAdd x y) = true) (z : F64) :
    |fVal (fAdd x y) - (fVal x + fVal y)| ≤ |fVal z - (fVal x + fVal y)| ∧
    (|fVal (fAdd x y) - (fVal x + fVal y)| = |fVal z - (fVal x + fVal y)| →
      fVal z ≠ fVal (fAdd x y) → fMant (fAdd x y) % 2 = 0) := by
  obtain ⟨h1, h2⟩ | ⟨s, m, e, h1, h2⟩ := fAdd_cases x y hx hy
  · rw [h1, h2, fZero_val]
    exact ⟨by simp, fun _ _ => by cases fSign x <;> cases fSign y <;> decide⟩
  · rw [h1] at hf ⊢; rw [← h2]; exact packRound_nearest s m e hf z

theorem fSub_nearest (x y : F64) (hx : isFinite x = true) (hy : isFinite y = true)
    (hf : isFinite (fSub x y) = true) (z : F64) :
    |fVal (fSub x y) - (fVal x - fVal y)| ≤ |fVal z - (fVal x - fVal y)| ∧
    (|fVal (fSub x y) - (fVal x - fVal y)| = |fVal z - (fVal x - fVal y)| →
      fVal z ≠ fVal (fSub x y) → fMant (fSub x y) % 2 = 0) := by
  rw [sub_eq_add_neg (fVal x), ← fNeg_val]
  exact fAdd_nearest x (fNeg y) hx (by rw [fNeg_finite]; exact hy) hf z

theorem fMul_nearest (x y : F64) (hx : isFinite x = true) (hy : isFinite y = true)
    (hf : isFinite (fMul x y) = true) (z : F64) :
    |fVal (fMul x y) - fVal x * fVal y| ≤ |fVal z - fVal x * fVal y| ∧
    (|fVal (fMul x y) - fVal x * fVal y| = |fVal z - fVal x * fVal y| →
      fVal z ≠ fVal (fMul x y) → fMant (fMul x y) % 2 = 0) := by
  obtain ⟨h1, h2⟩ := fMul_eq x y hx hy
  rw [h1] at hf ⊢; rw [← h2]; exact packRound_nearest _ _ _ hf z

/-- A sum that binary64 can hold is exact. -/
theorem fAdd_exact (x y : F64) (hx : isFinite x = true) (hy : isFinite y = true) (n w : ℤ) (hn : |n| < 2 ^ 53)
    (hw : -1074 ≤ w) (hw2 : w ≤ 971) (h : fVal x + fVal y = (n : ℚ) * 2 ^ w) :
    isFinite (fAdd x y) = true ∧ fVal (fAdd x y) = fVal x + fVal y := by
  obtain ⟨h1, h2⟩ | ⟨s, m, e, h1, h2⟩ := fAdd_cases x y hx hy
  · rw [h1, h2]; exact ⟨fZero_finite _, fZero_val _⟩
  · rw [h1, ← h2]; exact packRound_exact s m e n w hn hw hw2 (by rw [h2, h])

theorem fSub_exact (x y : F64) (hx : isFinite x = true) (hy : isFinite y = true) (n w : ℤ) (hn : |n| < 2 ^ 53)
    (hw : -1074 ≤ w) (hw2 : w ≤ 971) (h : fVal x - fVal y = (n : ℚ) * 2 ^ w) :
    isFinite (fSub x y) = true ∧ fVal (fSub x y) = fVal x - fVal y := by
  rw [sub_eq_add_neg, ← fNeg_val] at h ⊢
  exact fAdd_exact x (fNeg y) hx (by rw [fNeg_finite]; exact hy) n w hn hw hw2 h

theorem fMul_exact (x y : F64) (hx : isFinite x = true) (hy : isFinite y = true) (n w : ℤ) (hn : |n| < 2 ^ 53)
    (hw : -1074 ≤ w) (hw2 : w ≤ 971) (h : fVal x * fVal y = (n : ℚ) * 2 ^ w) :
    isFinite (fMul x y) = true ∧ fVal (fMul x y) = fVal x * fVal y := by
  obtain ⟨h1, h2⟩ := fMul_eq x y hx hy
  rw [h1, ← h2]; exact packRound_exact _ _ _ n w hn hw hw2 (by rw [h2, h])

theorem fDiv_exact (x y : F64) (hx : isFinite x = true) (hy : isFinite y = true) (h0 : isZero y = false)
    (n w : ℤ) (hn : |n| < 2 ^ 53) (hw : -1074 ≤ w) (hw2 : w ≤ 971) (h : fVal x / fVal y = (n : ℚ) * 2 ^ w) :
    isFinite (fDiv x y) = true ∧ fVal (fDiv x y) = fVal x / fVal y := by
  rw [fDiv_eq x y hx hy h0]
  rcases Nat.eq_zero_or_pos (fMant x) with hm | hm
  · rw [hm, divMant_zero, packRound_zero, fZero_val, fVal_of_mant_zero hm, zero_div]
    exact ⟨fZero_finite _, rfl⟩
  · obtain ⟨v, h1, h2, h3, h4⟩ := fDiv_rounding x y h0 hm ((fUlp x : Int) - fUlp y - (divShift : Int) - 1)
    rw [← fDiv_val x y h0, h4] at h ⊢
    exact packRound_exact_of _ _ _ h1 v h2 h3 n w hn hw hw2 h

theorem fMul_sign (x y : F64) (hx : isFinite x = true) (hy : isFinite y = true) :
    fSign (fMul x y) = (fSign x != fSign y) := by rw [(fMul_eq x y hx hy).1, packRound_sign]

theorem fDiv_sign (x y : F64) (hx : isFinite x = true) (hy : isFinite y = true) (h0 : isZero y = false) :
    fSign (fDiv x y) = (fSign x != fSign y) := by rw [fDiv_eq x y hx hy h0, packRound_sign]

/-- A literal below 2^53 is that whole number. -/
theorem lit_val (n : Nat) (h : n < 2^53) : fVal (lit n) = n := by
  have := (fOfInt_exact n (by rw [abs_of_nonneg (by positivity)]; exact_mod_cast h)).2
  unfold lit; rw [this]; push_cast; rfl

theorem lit_finite (n : Nat) (h : n < 2^53) : isFinite (lit n) = true :=
  (fOfInt_exact n (by rw [abs_of_nonneg (by positivity)]; exact_mod_cast h)).1

/-- An exact sum, with its value and a dyadic bound. -/
theorem fAdd_dyadic {x y : F64} {a b : ℚ} (hx : isFinite x = true ∧ fVal x = a) (hy : isFinite y = true ∧ fVal y = b)
   (n : ℤ) (k : ℕ) (hk : k ≤ 1000) (hn : |n| < 2^53) (h : a + b = n / 2^k) : isFinite (fAdd x y) = true ∧ fVal (fAdd x y) = a + b := by
  obtain ⟨hx, rfl⟩ := hx; obtain ⟨hy, rfl⟩ := hy
  exact fAdd_exact x y hx hy n (-k) hn (by omega) (by omega) (by rw [h, zpow_neg, zpow_natCast]; rfl)

theorem fSub_dyadic {x y : F64} {a b : ℚ} (hx : isFinite x = true ∧ fVal x = a) (hy : isFinite y = true ∧ fVal y = b)
   (n : ℤ) (k : ℕ) (hk : k ≤ 1000) (hn : |n| < 2^53) (h : a - b = n / 2^k) : isFinite (fSub x y) = true ∧ fVal (fSub x y) = a - b := by
  obtain ⟨hx, rfl⟩ := hx; obtain ⟨hy, rfl⟩ := hy
  exact fSub_exact x y hx hy n (-k) hn (by omega) (by omega) (by rw [h, zpow_neg, zpow_natCast]; rfl)

theorem fMul_dyadic {x y : F64} {a b : ℚ} (hx : isFinite x = true ∧ fVal x = a) (hy : isFinite y = true ∧ fVal y = b)
   (n : ℤ) (k : ℕ) (hk : k ≤ 1000) (hn : |n| < 2^53) (h : a * b = n / 2^k) : isFinite (fMul x y) = true ∧ fVal (fMul x y) = a * b := by
  obtain ⟨hx, rfl⟩ := hx; obtain ⟨hy, rfl⟩ := hy
  exact fMul_exact x y hx hy n (-k) hn (by omega) (by omega) (by rw [h, zpow_neg, zpow_natCast]; rfl)

theorem isZero_of_val {y : F64} (h : fVal y ≠ 0) : isZero y = false := by
  by_contra hc
  simp only [Bool.not_eq_false] at hc
  apply h; apply fVal_of_mant_zero
  unfold isZero at hc; simp at hc
  unfold fMant; simp [hc]

/-- An exact quotient by a literal. -/
theorem fDiv_dyadic {x : F64} {a : ℚ} (hx : isFinite x = true ∧ fVal x = a) (d : ℕ) (hd : d < 2^53) (hd0 : 0 < d)
   (n : ℤ) (k : ℕ) (hk : k ≤ 1000) (hn : |n| < 2^53) (h : a / d = n / 2^k) : isFinite (fDiv x (lit d)) = true ∧ fVal (fDiv x (lit d)) = a / d := by
  obtain ⟨hx, rfl⟩ := hx
  have hv := lit_val d hd
  have h0 : isZero (lit d) = false := isZero_of_val (by rw [hv]; exact_mod_cast hd0.ne')
  have := fDiv_exact x (lit d) hx (lit_finite d hd) h0 n (-k) hn (by omega) (by omega) (by rw [hv, h, zpow_neg, zpow_natCast]; rfl)
  rw [hv] at this; exact this

/-- Two finite values of one sign and one value are the same pattern. -/
theorem fVal_injective {x y : F64} (hx : isFinite x = true) (hy : isFinite y = true) (hs : fSign x = fSign y) (hv : fVal x = fVal y) : x = y := by
  have h1 : (fMant x : ℚ) * 2 ^ ((fUlp x : ℤ) - 1075) = fMant y * 2 ^ ((fUlp y : ℤ) - 1075) := by
    rw [fVal_eq, fVal_eq, hs] at hv
    exact mul_left_cancel₀ (by unfold sgn; split <;> norm_num) hv
  have key : ∀ x y : F64, (fMant x : ℚ) * 2 ^ ((fUlp x : ℤ) - 1075) = fMant y * 2 ^ ((fUlp y : ℤ) - 1075) → fUlp x < fUlp y → False := by
    intro x y h1 hlt
    have e : (2 : ℚ) ^ ((fUlp y : ℤ) - 1075) = ((2 ^ (fUlp y - fUlp x) : ℕ) : ℚ) * 2 ^ ((fUlp x : ℤ) - 1075) := by
      rw [← two_zpow_nat, ← zpow_add₀ (by norm_num : (2 : ℚ) ≠ 0)]; congr 1; omega
    rw [e, ← mul_assoc] at h1
    have h2 := mul_right_cancel₀ (two_zpow_pos _).ne' h1
    have h3 : fMant x = fMant y * 2 ^ (fUlp y - fUlp x) := by exact_mod_cast h2
    have h4 := fMant_lt x
    have h5 : 2 ^ 52 ≤ fMant y := by
      have := fUlp_ge x
      unfold fMant; unfold fUlp at *; split <;> omega
    have h6 : 2 ^ 1 ≤ 2 ^ (fUlp y - fUlp x) := Nat.pow_le_pow_right (by norm_num) (by omega)
    have := Nat.mul_le_mul h5 h6
    omega
  have hu : fUlp x = fUlp y := by
    rcases lt_trichotomy (fUlp x) (fUlp y) with h | h | h
    · exact absurd (key x y h1 h) id
    · exact h
    · exact absurd (key y x h1.symm h) id
  rw [hu] at h1
  have hm : fMant x = fMant y := by exact_mod_cast mul_right_cancel₀ (two_zpow_pos _).ne' h1
  have hxl := x.isLt
  have hyl := y.isLt
  apply BitVec.eq_of_toNat_eq
  unfold fSign at hs
  rw [BitVec.msb_eq_decide, BitVec.msb_eq_decide, decide_eq_decide] at hs
  unfold fMant fFrac at hm
  unfold fUlp at hu
  unfold fExp at hm hu
  unfold isFinite fExp at hx hy
  simp only [bne_iff_ne] at hx hy
  split at hm <;> split at hm <;> omega

/-- The guard's test as a number (R16, R161). -/
theorem truncIsZero_iff (x : F64) : truncIsZero x = true ↔ isFinite x = true ∧ |fVal x| < 1 := by
  have hm := fMant_lt x
  have hu := fUlp_ge x
  unfold truncIsZero
  rw [decide_eq_true_iff]
  have habs : |fVal x| = (fMant x : ℚ) * 2 ^ ((fUlp x : ℤ) - 1075) := by
    rw [fVal_eq, abs_sgn_mul, abs_of_nonneg (by positivity)]
  constructor
  · intro h
    refine ⟨by unfold isFinite; simp; omega, ?_⟩
    rw [habs]
    have h1 : fUlp x ≤ 1022 := by unfold fUlp; omega
    calc (fMant x : ℚ) * 2 ^ ((fUlp x : ℤ) - 1075) ≤ fMant x * 2 ^ (-53 : ℤ) := by
          gcongr
          · norm_num
          · omega
      _ < 2 ^ 53 * 2 ^ (-53 : ℤ) := by
          gcongr
          exact_mod_cast hm
      _ = 1 := by norm_num
  · rintro ⟨_, h⟩
    by_contra hc
    rw [habs] at h
    have h1 : fUlp x = fExp x := by unfold fUlp; omega
    have h2 : 2 ^ 52 ≤ fMant x := by unfold fMant; rw [if_neg (by omega)]; omega
    have : (2 ^ 52 : ℚ) * 2 ^ (-52 : ℤ) ≤ (fMant x : ℚ) * 2 ^ ((fUlp x : ℤ) - 1075) := by
      gcongr
      · exact_mod_cast h2
      · norm_num
      · omega
    norm_num at this h
    linarith

/-- A NaN of any pattern is not finite. -/
theorem fNaN_not_finite (b : Bool) (p : BitVec 52) : isFinite (fNaN b p) = false := by
  have hp := p.isLt
  unfold isFinite fExp fNaN
  simp only [BitVec.toNat_ofNat]
  have : signWeight b = 0 ∨ signWeight b = 2 ^ 63 := by cases b <;> simp [signWeight]
  simp only [bne_eq_false_iff_eq]
  omega

/-- A result that leaves the engine stays no finite value. -/
theorem settleNaN_not_finite (k j : Nat) (x : F64) (h : isFinite x = false) : isFinite (settleNaN k j x) = false := by
  unfold settleNaN; split
  · exact fNaN_not_finite _ _
  · exact h

/-- What is not finite. -/
theorem not_finite_cases (x : F64) : isFinite x = false ↔ isNaN x = true ∨ isInf x = true := by
  simp [isFinite, isNaN, isInf]; tauto

/-- A sum with an operand that is not finite (R16). -/
theorem fAdd_not_finite (x y : F64) (h : isFinite x = false) : isFinite (fAdd x y) = false := by
  unfold fAdd
  split
  · exact qNaN_not_finite
  · rename_i h1
    simp at h1
    have hi : isInf x = true := by have := (not_finite_cases x).mp h; rw [h1.1] at this; simpa using this
    rw [if_pos hi]
    split
    · exact qNaN_not_finite
    · exact h

/-- A quotient of an operand that is not finite, or by zero (R16). -/
theorem fDiv_not_finite (x y : F64) (h : isFinite x = false ∨ isZero y = true) : isFinite (fDiv x y) = false := by
  unfold fDiv
  split
  · exact qNaN_not_finite
  · rename_i h1
    simp at h1
    split
    · split
      · exact qNaN_not_finite
      · exact fInf_not_finite _
    · rename_i h2
      have hz : isZero y = true := by
        obtain h | h := h
        · have := (not_finite_cases x).mp h; simp [h1.1, h2] at this
        · exact h
      have : isInf y = false := by simp [isZero, isInf] at *; omega
      rw [this]; simp only [Bool.false_eq_true, if_false]
      rw [if_pos hz]
      split
      · exact qNaN_not_finite
      · exact fInf_not_finite _

end Sys2Proof.Machine
end

