-- ==== Sys2Proof/Laws/Step.lean ====
section
/-! SUPPORT. Everything each multi-step meaning and the sampler can answer, said once: an inversion lemma for
INIT, SENSE, the sampler and a transaction on its own. -/

namespace Sys2Proof.Machine

/-- How a step of INIT answers a next state. -/
theorem execInit_next (t p h f : BitVec 3) (s u : State) (hx : execInit t p h f s = .next u) :
    (s.hphase.inInit = false ∧ u = initEntry (cfgOf t p h f) s) ∨
    (∃ d, s.hphase = .initChip ∧ answerOf (memReadFrame s.par.regChipId 1 s) s = .ok d ∧
      u = initGotChip (keepOf s.bus d) (recordTxn (memReadFrame s.par.regChipId 1 s) s)) ∨
    (∃ d, s.hphase = .initVariant ∧ answerOf (memReadFrame s.par.regVariant 1 s) s = .ok d ∧
      u = initGotVariant (keepOf s.bus d) (recordTxn (memReadFrame s.par.regVariant 1 s) s)) ∨
    (∃ var d, s.hphase = .initCal1 var ∧ answerOf (memReadFrame s.par.regCal1 s.par.lenCal1 s) s = .ok d ∧
      u = { recordTxn (memReadFrame s.par.regCal1 s.par.lenCal1 s) s with
        hphase := .initCal2 var (keepOf s.bus d) }) ∨
    (∃ var w1 d, s.hphase = .initCal2 var w1 ∧
      answerOf (memReadFrame s.par.regCal2 s.par.lenCal2 s) s = .ok d ∧
      u = initCommit (cfgOf t p h f) var w1 (keepOf s.bus d)
        (recordTxn (memReadFrame s.par.regCal2 s.par.lenCal2 s) s)) ∨
    (∃ txn a n e, s.hphase.inInit = true ∧ answerOf (memReadFrame a n s) s = .err e ∧
      u = abortInit txn e (abortTransport e (recordTxn (memReadFrame a n s) s))) := by
  unfold execInit at hx
  cases hp : s.hphase with
  | initChip =>
    simp only [hp] at hx
    obtain ⟨_, h1⟩ | ⟨d, ha, h1⟩ | ⟨e, ha, h1⟩ := initRead_cases s txnChipId s.par.regChipId 1 initGotChip <;>
      rw [h1] at hx <;> cases hx
    · exact .inr (.inl ⟨d, rfl, ha, rfl⟩)
    · exact .inr (.inr (.inr (.inr (.inr ⟨_, _, _, e, rfl, ha, rfl⟩))))
  | initVariant =>
    simp only [hp] at hx
    obtain ⟨_, h1⟩ | ⟨d, ha, h1⟩ | ⟨e, ha, h1⟩ :=
      initRead_cases s txnVariant s.par.regVariant 1 initGotVariant <;> rw [h1] at hx <;> cases hx
    · exact .inr (.inr (.inl ⟨d, rfl, ha, rfl⟩))
    · exact .inr (.inr (.inr (.inr (.inr ⟨_, _, _, e, rfl, ha, rfl⟩))))
  | initCal1 var =>
    simp only [hp] at hx
    obtain ⟨_, h1⟩ | ⟨d, ha, h1⟩ | ⟨e, ha, h1⟩ :=
      initRead_cases s txnCal1 s.par.regCal1 s.par.lenCal1
        fun w1 s1 => { s1 with hphase := .initCal2 var w1 } <;> rw [h1] at hx <;> cases hx
    · exact .inr (.inr (.inr (.inl ⟨var, d, rfl, ha, rfl⟩)))
    · exact .inr (.inr (.inr (.inr (.inr ⟨_, _, _, e, rfl, ha, rfl⟩))))
  | initCal2 var w1 =>
    simp only [hp] at hx
    obtain ⟨_, h1⟩ | ⟨d, ha, h1⟩ | ⟨e, ha, h1⟩ :=
      initRead_cases s txnCal2 s.par.regCal2 s.par.lenCal2
        fun w2 s1 => initCommit (cfgOf t p h f) var w1 w2 s1 <;> rw [h1] at hx <;> cases hx
    · exact .inr (.inr (.inr (.inr (.inl ⟨var, w1, d, rfl, ha, rfl⟩))))
    · exact .inr (.inr (.inr (.inr (.inr ⟨_, _, _, e, rfl, ha, rfl⟩))))
  | entry => simp only [hp] at hx; cases hx; exact .inl ⟨rfl, rfl⟩
  | senseCycle => simp only [hp] at hx; cases hx; exact .inl ⟨rfl, rfl⟩
  | startWait => simp only [hp] at hx; cases hx; exact .inl ⟨rfl, rfl⟩
  | stopWait => simp only [hp] at hx; cases hx; exact .inl ⟨rfl, rfl⟩

/-- A step of INIT answers a next state when its reads are in range (R264). -/
theorem execInit_completes (t p h f : BitVec 3) (s : State) (hr : s.par.readsInRange = true) :
    ∃ u, execInit t p h f s = .next u := by
  simp only [Params.readsInRange, Bool.and_eq_true] at hr
  obtain ⟨⟨⟨⟨⟨r1, r2⟩, r3⟩, r4⟩, _⟩, _⟩ := hr
  unfold execInit initRead
  cases hp : s.hphase <;> simp only [r1, r2, r3, r4, if_true]
  all_goals first
    | exact ⟨_, rfl⟩
    | (split <;> exact ⟨_, rfl⟩)

/-- How a step of SENSE answers a next state. -/
theorem execSense_next (s u : State) (hx : execSense s = .next u) :
    (s.hphase ≠ .senseCycle ∧ u = senseEntry s) ∨
    (s.hphase = .senseCycle ∧ s.lock = .host ∧
      (cycleStep .host s = .run u ∨
       (∃ m v, cycleStep .host s = .done m v ∧
          u = respond (fun k => .measured k m) { v with lock := .free }) ∨
       (∃ txn e v, cycleStep .host s = .abort txn e v ∧
          u = respond (fun k => .transport k v.par txn e) { v with lock := .free }))) := by
  unfold execSense at hx
  by_cases hp : s.hphase = .senseCycle
  · right
    simp only [hp, senseCycle] at hx
    cases hc : cycleStep .host s with
    | run v =>
      rw [hc] at hx; cases hx
      exact ⟨hp, (cycleStep_run _ _ _ hc).1, .inl rfl⟩
    | done m v =>
      rw [hc] at hx; simp only [release] at hx
      split at hx <;> cases hx
      exact ⟨hp, (cycleStep_done _ _ _ _ hc).1, .inr (.inl ⟨m, v, rfl, rfl⟩)⟩
    | abort txn e v =>
      rw [hc] at hx; simp only [release] at hx
      split at hx <;> cases hx
      exact ⟨hp, (cycleStep_abort _ _ _ _ _ hc).1, .inr (.inr ⟨txn, e, v, rfl, rfl⟩)⟩
    | stop r => rw [hc] at hx; cases hx
  · left
    refine ⟨hp, ?_⟩
    cases h : s.hphase <;> simp_all

/-- How a step of the sampler answers a next state (R223). -/
theorem samplerStep_next (a : Bool) (s u : State) (hx : samplerStep a s = .next u) :
    (s.sPhase = .idle ∧ u = s) ∨
    (s.sPhase = .measuring ∧ s.lock = .sampler ∧
      (cycleStep .sampler s = .run u ∨
       (∃ m v, cycleStep .sampler s = .done m v ∧ u = handOver m { v with lock := .free }) ∨
       (∃ txn e v, cycleStep .sampler s = .abort txn e v ∧
          u = terminate (some ⟨.transportError, txn, e⟩) { v with lock := .free }))) ∨
    (s.sPhase = .measuring ∧ s.lock ≠ .sampler ∧ s.sCancel = true ∧ u = terminate none s) ∨
    (s.sPhase = .measuring ∧ s.lock = .free ∧ s.sCancel = false ∧ u = acquire .sampler s) ∨
    (s.sPhase = .measuring ∧ s.lock = .host ∧ s.sCancel = false ∧ u = s) ∨
    (s.sPhase = .publishing ∧ u = samplerPublishing a s) ∨
    (s.sPhase = .waiting ∧ s.sCancel = true ∧ u = terminateWaiting s) ∨
    (s.sPhase = .waiting ∧ s.sCancel = false ∧ u = s) := by
  unfold samplerStep at hx
  cases hp : s.sPhase <;> simp only [hp] at hx
  · cases hx; exact .inl ⟨rfl, rfl⟩
  · right
    unfold samplerMeasuring at hx
    by_cases hl : s.lock = .sampler
    · left
      rw [if_pos hl] at hx
      refine ⟨rfl, hl, ?_⟩
      unfold samplerCycle at hx
      cases hc : cycleStep .sampler s with
      | run v => rw [hc] at hx; cases hx; exact .inl rfl
      | done m v =>
        rw [hc] at hx; simp only [release] at hx
        split at hx <;> cases hx
        exact .inr (.inl ⟨m, v, rfl, rfl⟩)
      | abort txn e v =>
        rw [hc] at hx; simp only [release] at hx
        split at hx <;> cases hx
        exact .inr (.inr ⟨txn, e, v, rfl, rfl⟩)
      | stop r => rw [hc] at hx; cases hx
    · right
      rw [if_neg hl] at hx
      cases hcan : s.sCancel <;> simp only [hcan] at hx
      · right
        by_cases hf : s.lock = .free
        · simp [hf] at hx; exact .inl ⟨rfl, hf, rfl, hx.symm⟩
        · simp [hf] at hx
          refine .inr (.inl ⟨rfl, ?_, rfl, hx.symm⟩)
          cases h : s.lock <;> simp_all
      · simp at hx; exact .inl ⟨rfl, hl, rfl, hx.symm⟩
  · cases hx; exact .inr (.inr (.inr (.inr (.inr (.inl ⟨rfl, rfl⟩)))))
  · right; right; right; right; right; right
    cases hcan : s.sCancel <;> simp [hcan] at hx
    · exact .inr ⟨rfl, rfl, hx.symm⟩
    · exact .inl ⟨rfl, rfl, hx.symm⟩

/-- A transaction on its own: one transaction, and what it returned. -/
theorem busOp_next (kind : BusKind) (f : BusFrame) (keep : List Byte → List Byte) (s u : State)
    (hx : busOp kind (transact f keep) s = .next u) :
    s.bus = kind ∧ mayEmit s = true ∧
    ((∃ d, answerOf f s = .ok d ∧ u = { recordTxn f s with xfer := .ok (keep d) }) ∨
     (∃ e, answerOf f s = .err e ∧ u = { abortTransport e (recordTxn f s) with xfer := .err e })) := by
  unfold busOp at hx
  split at hx
  · cases hx
  · rename_i hb
    split at hx
    · cases hx
    · rename_i hm
      cases hx
      refine ⟨not_not.mp hb, by simpa using hm, ?_⟩
      cases ha : answerOf f s with
      | ok d => exact .inl ⟨d, rfl, by rw [transact_ok s f keep d ha]⟩
      | err e => exact .inr ⟨e, rfl, by rw [transact_err s f keep e ha]⟩

/-- How a bus transaction's instruction answers a next state. -/
theorem execBus_next (i : Instr) (s u : State) (hi : (∃ a n, i = .busRdI2c a n) ∨ (∃ a n, i = .busRdSpi a n) ∨
    (∃ ps, i = .busWrI2c ps) ∨ (∃ ps, i = .busWrSpi ps)) (hx : exec i s = .next u) :
    mayEmit s = true ∧ ∃ f x,
      ((∃ d, answerOf f s = .ok d) ∧ u = { recordTxn f s with xfer := x }) ∨
      (∃ e, answerOf f s = .err e ∧ u = { abortTransport e (recordTxn f s) with xfer := x }) := by
  obtain ⟨a, n, rfl⟩ | ⟨a, n, rfl⟩ | ⟨ps, rfl⟩ | ⟨ps, rfl⟩ := hi
  · simp only [exec, execBusRdI2c] at hx
    split at hx
    · obtain ⟨_, hm, ⟨d, ha, hu⟩ | ⟨e, ha, hu⟩⟩ := busOp_next _ (i2cReadFrame a n) id s u hx
      · exact ⟨hm, _, _, .inl ⟨⟨d, ha⟩, hu⟩⟩
      · exact ⟨hm, _, _, .inr ⟨e, ha, hu⟩⟩
    · cases hx
  · simp only [exec, execBusRdSpi] at hx
    split at hx
    · obtain ⟨_, hm, ⟨d, ha, hu⟩ | ⟨e, ha, hu⟩⟩ :=
        busOp_next _ (spiReadFrame s.par.spiFill a n) (List.drop 1) s u hx
      · exact ⟨hm, _, _, .inl ⟨⟨d, ha⟩, hu⟩⟩
      · exact ⟨hm, _, _, .inr ⟨e, ha, hu⟩⟩
    · cases hx
  · simp only [exec, execBusWrI2c] at hx
    obtain ⟨_, hm, ⟨d, ha, hu⟩ | ⟨e, ha, hu⟩⟩ := busOp_next _ (i2cWriteFrame ps) id s u hx
    · exact ⟨hm, _, _, .inl ⟨⟨d, ha⟩, hu⟩⟩
    · exact ⟨hm, _, _, .inr ⟨e, ha, hu⟩⟩
  · simp only [exec, execBusWrSpi] at hx
    obtain ⟨_, hm, ⟨d, ha, hu⟩ | ⟨e, ha, hu⟩⟩ := busOp_next _ (spiWriteFrame ps) id s u hx
    · exact ⟨hm, _, _, .inl ⟨⟨d, ha⟩, hu⟩⟩
    · exact ⟨hm, _, _, .inr ⟨e, ha, hu⟩⟩

/-- How a step of the host agent answers a next state (R39, R82). -/
theorem hostStep_next (s u : State) (hx : hostStep s = .next u) :
    (s.cmdBusy = false ∧ s.env.cmdIn = [] ∧ u = s) ∨
    ∃ s0, s0.cmdBusy = true ∧
      ((s.cmdBusy = true ∧ s0 = s) ∨
       (s.cmdBusy = false ∧ ∃ w rest, s.env.cmdIn = w :: rest ∧ s0 = acceptCmd w rest s)) ∧
      ((∃ e, decodeCmd s0.cmd = .error e ∧ u = respondCode .illegalCommand s0) ∨
       (∃ i, decodeCmd s0.cmd = .ok i ∧ i.isCommand = true ∧ exec i s0 = .next u)) := by
  have key : ∀ s0 : State, hostRun s0 = .next u →
      (∃ e, decodeCmd s0.cmd = .error e ∧ u = respondCode .illegalCommand s0) ∨
      (∃ i, decodeCmd s0.cmd = .ok i ∧ i.isCommand = true ∧ exec i s0 = .next u) := by
    intro s0 h0
    unfold hostRun at h0
    cases hd : decodeCmd s0.cmd with
    | ok i => rw [hd] at h0; exact .inr ⟨i, rfl, decodeCmd_isCommand _ _ hd, h0⟩
    | error e => rw [hd] at h0; cases h0; exact .inl ⟨e, rfl, rfl⟩
  unfold hostStep at hx
  cases hb : s.cmdBusy
  · simp only [hb, Bool.false_eq_true, if_false] at hx
    cases hc : s.env.cmdIn with
    | nil => rw [hc] at hx; cases hx; exact .inl ⟨rfl, rfl, rfl⟩
    | cons w rest =>
      rw [hc] at hx
      exact .inr ⟨_, rfl, .inr ⟨rfl, w, rest, rfl, rfl⟩, key _ hx⟩
  · simp only [hb, if_true] at hx
    exact .inr ⟨s, hb, .inl ⟨rfl, rfl⟩, key s hx⟩

/-- An illegal consumer word is answered at once, whether or not a TAKE waits (R88). -/
theorem consumerStep_illegal (s : State) (b : Byte) (rest : List Byte) (e : DecodeError)
    (hc : s.env.consIn = b :: rest) (hd : decodeCons b = .error e) :
    consumerStep s = .next (refuseCons rest s) := by
  simp only [consumerStep, hc, hd]

/-- The free consumer port takes a legal word and tries it (R88, R238). -/
theorem consumerStep_accept (s : State) (b : Byte) (rest : List Byte) (i : Instr) (hq : s.consReq = none)
    (hc : s.env.consIn = b :: rest) (hd : decodeCons b = .ok i) :
    consumerStep s = exec i (acceptCons b rest s) := by
  simp only [consumerStep, hc, hd, hq, consumerRun]

/-- The request that waits has its next try where no illegal word stands before it (R238). -/
theorem consumerStep_waiting (s : State) (r : Byte) (i : Instr) (hq : s.consReq = some r)
    (hc : ∀ b rest, s.env.consIn = b :: rest → ∃ j, decodeCons b = .ok j) (hd : decodeCons r = .ok i) :
    consumerStep s = exec i s := by
  cases hl : s.env.consIn with
  | nil => simp only [consumerStep, hl, hq, consumerRun, hd]
  | cons b rest =>
    obtain ⟨j, hj⟩ := hc b rest hl
    simp only [consumerStep, hl, hq, hj, consumerRun, hd]

/-- How a step of the consumer answers a next state (R88, R238). -/
theorem consumerStep_next (s u : State) (hx : consumerStep s = .next u) :
    u = s ∨ (∃ rest, u = refuseCons rest s) ∨ ∃ s0, (s0 = s ∨ ∃ b rest, s0 = acceptCons b rest s) ∧
      (u = respondCons (fun k => .blank k .illegalCommand) s0 ∨ execTake s0 = .next u) := by
  have key : ∀ (b : Byte) (s0 : State), consumerRun b s0 = .next u →
      u = respondCons (fun k => .blank k .illegalCommand) s0 ∨ execTake s0 = .next u := by
    intro b s0 h0
    unfold consumerRun at h0
    cases hd : decodeCons b with
    | ok i => rw [hd] at h0; rw [decodeCons_take b i hd] at h0; exact .inr h0
    | error e => rw [hd] at h0; cases h0; exact .inl rfl
  unfold consumerStep at hx
  split at hx
  · cases hx; exact .inl rfl
  · exact .inr (.inr ⟨s, .inl rfl, key _ s hx⟩)
  · rename_i b rest _
    split at hx
    · cases hx; exact .inr (.inl ⟨rest, rfl⟩)
    · exact .inr (.inr ⟨_, .inr ⟨b, rest, rfl⟩, key b _ hx⟩)
    · exact .inr (.inr ⟨s, .inl rfl, key _ s hx⟩)

/-- How a transaction of its own answers a next state. -/
theorem busStep_next (s u : State) (hx : busStep s = .next u) :
    (s.env.frameIn = [] ∧ u = s) ∨
    ∃ g rest s0, s.env.frameIn = g :: rest ∧ s0 = acceptFrame rest s ∧ mayEmit s = true ∧ ∃ f x,
      ((∃ d, answerOf f s0 = .ok d) ∧ u = { recordTxn f s0 with xfer := x }) ∨
      (∃ e, answerOf f s0 = .err e ∧ u = { abortTransport e (recordTxn f s0) with xfer := x }) := by
  unfold busStep at hx
  cases hf : s.env.frameIn with
  | nil => rw [hf] at hx; cases hx; exact .inl ⟨rfl, rfl⟩
  | cons g rest =>
    rw [hf] at hx
    simp only at hx
    cases hd : decodeFrame s.par.spiFill g with
    | error e => rw [hd] at hx; cases hx
    | ok i =>
      rw [hd] at hx
      obtain ⟨hm, h⟩ := execBus_next i _ u (decodeFrame_isBus _ _ _ hd) hx
      exact .inr ⟨g, rest, _, rfl, rfl, hm, h⟩

end Sys2Proof.Machine
end

