-- ==== Sys2Proof/Laws/Invariant.lean ====
section
/-! SUPPORT. The invariant under each shared update: which fields it reads, and that every piece a step is made
of keeps it. -/

namespace Sys2Proof.Machine

variable {s t : State}

/-- The invariant reads only these fields. -/
theorem Inv.congr (h : Inv s) (h1 : t.life = s.life) (h2 : t.seq = s.seq) (h3 : t.pwait = s.pwait)
    (h4 : t.cfg = s.cfg) (h5 : t.lock = s.lock) (h6 : t.cyc = s.cyc) (h7 : t.par = s.par)
    (h8 : t.tfineV = s.tfineV) (h9 : t.sActive = s.sActive) (h10 : t.sCancel = s.sCancel)
    (h11 : t.sPhase = s.sPhase) (h12 : t.sPending = s.sPending) (h13 : t.cmdBusy = s.cmdBusy)
    (h14 : t.cmd = s.cmd) (h15 : t.hphase = s.hphase) : Inv t := by
  obtain ⟨a1, a2, a3, a4, a5, a6, a7, a8, a9, a10, a11, a12, a13, a14, a15, a16⟩ := h
  constructor <;>
    simp only [h1, h2, h3, h4, h5, h6, h7, h8, h9, h10, h11, h12, h13, h14, h15] <;> assumption

theorem Inv.advance (h : Inv s) : Inv (advance s) := { h with }

theorem Inv.recordTxn (h : Inv s) (f : BusFrame) : Inv (recordTxn f s) := { h with }

theorem Inv.abortTransport (h : Inv s) (e : BusErr) : Inv (abortTransport e s) := { h with }

theorem Inv.acceptFrame (h : Inv s) (rest : List BusFrame) : Inv (acceptFrame rest s) := { h with }

theorem Inv.acceptCons (h : Inv s) (b : Byte) (rest : List Byte) : Inv (acceptCons b rest s) := { h with }

theorem Inv.refuseCons (h : Inv s) (rest : List Byte) : Inv (refuseCons rest s) := { h with }

theorem Inv.respondCons (h : Inv s) (f : Nat → Resp) : Inv (respondCons f s) := { h with }

/-- With the command port free no command is inside its pseudocode. -/
theorem Inv.entry_of_idle (h : Inv s) (hb : s.cmdBusy = false) : s.hphase = .entry := by
  by_contra hc; have := (h.place hc).1; simp [hb] at this

theorem Inv.acceptCmd (h : Inv s) (hb : s.cmdBusy = false) (w : Word) (rest : List Word) :
    Inv (acceptCmd w rest s) :=
  have he := h.entry_of_idle hb
  { h with
    host_iff := ⟨fun hl => (by have := h.host_iff.mp hl; rw [he] at this; cases this), fun hl => by cases hl⟩
    inactive_of_sense := fun hl => by cases hl
    unready_of_init := fun hl => by cases hl
    ready_of_start := fun hl => by cases hl
    place := fun hl => absurd rfl hl }

/-- A response outside SENSE's cycle keeps the invariant. -/
theorem Inv.respond (h : Inv s) (f : Nat → Resp) (hs : s.hphase ≠ .senseCycle) : Inv (respond f s) :=
  { h with
    host_iff := ⟨fun hl => absurd (h.host_iff.mp hl) hs, fun hl => by cases hl⟩
    inactive_of_sense := fun hl => by cases hl
    unready_of_init := fun hl => by cases hl
    ready_of_start := fun hl => by cases hl
    place := fun hl => absurd rfl hl }

/-- Moving a command to another place outside SENSE's cycle. -/
theorem Inv.setPlace (h : Inv s) (p : HostPhase) (hs : s.hphase ≠ .senseCycle) (hp : p ≠ .senseCycle)
    (hu : p.inInit = true → s.life ≠ .ready) (hw : p = .startWait → s.life = .ready)
    (hpl : p ≠ .entry → s.cmdBusy = true ∧ ∃ i, decodeCmd s.cmd = .ok i ∧ placeFits p i = true ∧
      ∀ t p h f, i = .init t p h f → cfgInvalid (cfgOf t p h f) = false) :
    Inv { s with hphase := p } :=
  { h with
    host_iff := ⟨fun hl => absurd (h.host_iff.mp hl) hs, fun hl => absurd hl hp⟩
    inactive_of_sense := fun hl => absurd hl hp
    unready_of_init := hu
    ready_of_start := hw
    place := hpl }

theorem Inv.lifeFailed (h : Inv s) (hl : s.life ≠ .ready) : Inv { s with life := .failed } :=
  { h with
    ready_of_lock := fun hh => absurd (h.ready_of_lock hh) hl
    ready_of_active := fun hh => absurd (h.ready_of_active hh) hl
    ready_of_tfine := fun hh => absurd (h.ready_of_tfine hh) hl
    cfg_of_ready := fun hh => by cases hh
    unready_of_init := fun _ hh => by cases hh
    ready_of_start := fun hh => absurd (h.ready_of_start hh) hl }

theorem Inv.commit (h : Inv s) (c : AcqCfg) (cal : Cal) (var : Byte) (hp : s.hphase.inInit = true)
    (hc : cfgOk c = true) :
    Inv { s with
      cal := cal, cfg := c, variant := var, life := .ready, hphase := .entry, cmdBusy := false } :=
  have hs : s.hphase ≠ .senseCycle := fun hh => by rw [hh] at hp; cases hp
  { h with
    ready_of_lock := fun _ => rfl
    ready_of_active := fun _ => rfl
    ready_of_tfine := fun _ => rfl
    cfg_of_ready := fun _ => hc
    host_iff := ⟨fun hl => absurd (h.host_iff.mp hl) hs, fun hl => by cases hl⟩
    inactive_of_sense := fun hl => by cases hl
    unready_of_init := fun hh => by cases hh
    ready_of_start := fun hl => by cases hl
    place := fun hh => absurd rfl hh }

theorem Inv.setCancel (h : Inv s) (ha : s.sActive = true) : Inv { s with sCancel := true } :=
  { h with active_of_cancel := fun _ => ha }

theorem Inv.launch (h : Inv s) (ms : BitVec 24) (hs : s.hphase ≠ .senseCycle) (hl : s.life = .ready) :
    Inv (launch ms s) :=
  { h with
    idle_iff := by simp
    measuring_of_lock := fun _ => rfl
    inactive_of_sense := fun hh => absurd hh hs
    ready_of_active := fun _ => hl
    active_of_cancel := fun hh => by cases hh
    pending_iff := by simp }

theorem Inv.setTfine (h : Inv s) (x : F64) (hl : s.life = .ready) :
    Inv { s with tfine := x, tfineV := true } :=
  { h with ready_of_tfine := fun _ => hl }

theorem Inv.senseAcquire (h : Inv s) (hb : s.cmdBusy = true) (hd : decodeCmd s.cmd = .ok .sense)
    (hr : s.life = .ready) (ha : s.sActive = false) (hf : s.lock = .free) :
    Inv { acquire .host s with hphase := .senseCycle } :=
  have hseq := h.sleep_of_free hf
  { h with
    sleep_of_free := fun _ => hseq
    measuring_of_lock := fun hh => by cases hh
    host_iff := ⟨fun _ => rfl, fun _ => rfl⟩
    inactive_of_sense := fun _ => ha
    ready_of_lock := fun _ => hr
    unready_of_init := fun hh => by cases hh
    ready_of_start := fun hh => by cases hh
    place := fun _ => ⟨hb, _, hd, rfl, fun _ _ _ _ hh => by cases hh⟩
    polled_of_data := fun hh => by
      rw [show ({ acquire .host s with hphase := .senseCycle } : State).seq = s.seq from rfl, hseq] at hh
      cases hh }

theorem Inv.samplerAcquire (h : Inv s) (hm : s.sPhase = .measuring) (hf : s.lock = .free) :
    Inv (acquire .sampler s) :=
  have hseq := h.sleep_of_free hf
  have hact : s.sActive = true := by
    cases hq : s.sActive
    · have := h.idle_iff.mpr hq; rw [hm] at this; cases this
    · rfl
  { h with
    sleep_of_free := fun _ => hseq
    measuring_of_lock := fun _ => hm
    host_iff := ⟨fun hh => (by cases hh), fun hh => by rw [h.host_iff.mpr hh] at hf; cases hf⟩
    ready_of_lock := fun _ => h.ready_of_active hact
    polled_of_data := fun hh => by
      rw [show (acquire .sampler s).seq = s.seq from rfl, hseq] at hh; cases hh }

theorem Inv.terminate (h : Inv s) (err : Option SErr) (hl : s.lock ≠ .sampler) : Inv (terminate err s) :=
  { h with
    idle_iff := by simp
    measuring_of_lock := fun hh => absurd hh hl
    inactive_of_sense := fun _ => rfl
    ready_of_active := fun hh => by cases hh
    active_of_cancel := fun hh => by cases hh
    pending_iff := by simp }

theorem Inv.publish (h : Inv s) (hp : s.sPhase = .publishing) : Inv (publish s) :=
  have hact : s.sActive = true := by
    cases hq : s.sActive
    · have := h.idle_iff.mpr hq; rw [hp] at this; cases this
    · rfl
  { h with
    idle_iff := by simp [hact]
    measuring_of_lock := fun hh => by rw [h.measuring_of_lock hh] at hp; cases hp
    pending_iff := by simp }

theorem Inv.nextCycle (h : Inv s) (hp : s.sPhase = .waiting) : Inv (nextCycle s) :=
  have hact : s.sActive = true := by
    cases hq : s.sActive
    · have := h.idle_iff.mpr hq; rw [hp] at this; cases this
    · rfl
  { h with
    idle_iff := by simp [Machine.nextCycle, hact]
    measuring_of_lock := fun _ => rfl
    pending_iff := by
      have := h.pending_iff
      rw [hp] at this
      show s.sPending.isSome = true ↔ Phase.measuring = .publishing
      simpa using this }

theorem Inv.endPollDelay (h : Inv s) : Inv (endPollDelay s) :=
  { h with polling_of_wait := fun hh => by cases hh }

theorem Inv.polled (h : Inv s) (st : Byte) (hs : s.seq = .polling) (hw : s.pwait = false) :
    Inv (polled st s) := by
  have hl : s.lock ≠ .free := fun hf => by have := h.sleep_of_free hf; rw [hs] at this; cases this
  unfold Machine.polled
  split
  · rename_i hd
    exact { h with
      sleep_of_free := fun hf => absurd hf hl
      polling_of_wait := fun hh => by rw [show s.pwait = true from hh] at hw; cases hw
      polled_of_data := fun _ => ⟨st, rfl, hd⟩ }
  · exact { h with
      polling_of_wait := fun _ => hs
      polled_of_data := fun hh => by rw [show s.seq = .dataReady from hh] at hs; cases hs }

/-- A cycle that goes on keeps the invariant. -/
theorem Inv.cycleRun (h : Inv s) (o : Owner) (ho : o ≠ .free) (hc : cycleStep o s = .run t) : Inv t := by
  obtain ⟨hl, ⟨hs, _, rfl⟩ | ⟨hs, rfl⟩ | ⟨hs, hp, rfl⟩ | ⟨hs, hp, d, ha, rfl⟩⟩ := cycleStep_run _ _ _ hc
  · have hw : s.pwait = false := by
      cases hq : s.pwait
      · rfl
      · have := h.polling_of_wait hq; rw [hs] at this; cases this
    exact { h.recordTxn (memWriteFrame (triggerPairs s.par s.cfg) s) with
      sleep_of_free := fun hf => absurd (hl.symm.trans hf) ho
      polling_of_wait := fun hh => by rw [show s.pwait = true from hh] at hw; cases hw
      polled_of_data := fun hh => by cases hh }
  · exact { h with
      sleep_of_free := fun hf => absurd (hl.symm.trans hf) ho
      polling_of_wait := fun hh => by cases hh
      polled_of_data := fun hh => by cases hh }
  · exact h
  · exact (h.recordTxn _).polled _ hs hp

/-- What the last step of a cycle leaves, whether it returns a Measurement or aborts. -/
theorem cycleStep_last (h : Inv s) (o : Owner)
    (hc : (∃ m, cycleStep o s = .done m t) ∨ ∃ txn e, cycleStep o s = .abort txn e t) :
    t.seq = .sleep ∧ t.pwait = false ∧ t.lock = s.lock ∧ t.life = s.life ∧ t.cfg = s.cfg ∧ t.par = s.par ∧
    t.tfineV = s.tfineV ∧ t.sActive = s.sActive ∧ t.sCancel = s.sCancel ∧ t.sPhase = s.sPhase ∧
    t.sPending = s.sPending ∧ t.cmdBusy = s.cmdBusy ∧ t.cmd = s.cmd ∧ t.hphase = s.hphase := by
  obtain ⟨m, hc⟩ | ⟨txn, e, hc⟩ := hc
  · obtain ⟨_, hs, d, _, _, rfl⟩ := cycleStep_done _ _ _ _ hc
    have hw : s.pwait = false := by
      cases hq : s.pwait
      · rfl
      · have := h.polling_of_wait hq; rw [hs] at this; cases this
    simp [hw]
  · obtain ⟨_, _, _, rfl⟩ := cycleStep_abort _ _ _ _ _ hc
    simp

/-- The last step of a cycle with the release, but for what depends on the owner. -/
theorem Inv.cycleLast (h : Inv s) (o : Owner)
    (hc : (∃ m, cycleStep o s = .done m t) ∨ ∃ txn e, cycleStep o s = .abort txn e t)
    (hs : s.hphase ≠ .senseCycle) : Inv { t with lock := .free } := by
  obtain ⟨q1, q2, q3, q4, q5, q6, q7, q8, q9, q10, q11, q12, q13, q14⟩ := cycleStep_last h o hc
  exact {
    idle_iff := by show t.sPhase = .idle ↔ t.sActive = false; rw [q10, q8]; exact h.idle_iff
    sleep_of_free := fun _ => q1
    polling_of_wait := fun hh => by rw [show t.pwait = true from hh] at q2; cases q2
    measuring_of_lock := fun hh => by cases hh
    host_iff := ⟨fun hh => (by cases hh), fun hh => absurd (q14.symm.trans hh) hs⟩
    inactive_of_sense := fun hh => absurd (q14.symm.trans hh) hs
    ready_of_lock := fun hh => absurd rfl hh
    ready_of_active := fun hh => q4.trans (h.ready_of_active (q8.symm.trans hh))
    active_of_cancel := fun hh => q8.trans (h.active_of_cancel (q9.symm.trans hh))
    pending_iff := by
      show t.sPending.isSome = true ↔ t.sPhase = .publishing; rw [q10, q11]; exact h.pending_iff
    ready_of_tfine := fun hh => q4.trans (h.ready_of_tfine (q7.symm.trans hh))
    cfg_of_ready := fun hh => by
      show cfgOk t.cfg = true; rw [q5]; exact h.cfg_of_ready (q4.symm.trans hh)
    unready_of_init := fun hh => by
      show t.life ≠ .ready; rw [q4]; exact h.unready_of_init (by rw [← q14]; exact hh)
    ready_of_start := fun hh => q4.trans (h.ready_of_start (q14.symm.trans hh))
    place := by
      show t.hphase ≠ .entry → t.cmdBusy = true ∧ ∃ i, decodeCmd t.cmd = .ok i ∧
        placeFits t.hphase i = true ∧ _
      rw [q14, q12, q13]; exact h.place
    polled_of_data := fun hh => by rw [show t.seq = .dataReady from hh] at q1; cases q1 }

/-- The last step of SENSE's cycle, with the release and the response. -/
theorem Inv.senseLast (h : Inv s) (f : Nat → Resp)
    (hc : (∃ m, cycleStep .host s = .done m t) ∨ ∃ txn e, cycleStep .host s = .abort txn e t) :
    Inv (Machine.respond f { t with lock := .free }) := by
  obtain ⟨q1, q2, q3, q4, q5, q6, q7, q8, q9, q10, q11, q12, q13, q14⟩ := cycleStep_last h .host hc
  exact {
    idle_iff := by show t.sPhase = .idle ↔ t.sActive = false; rw [q10, q8]; exact h.idle_iff
    sleep_of_free := fun _ => q1
    polling_of_wait := fun hh => by rw [show t.pwait = true from hh] at q2; cases q2
    measuring_of_lock := fun hh => by cases hh
    host_iff := ⟨fun hh => (by cases hh), fun hh => by cases hh⟩
    inactive_of_sense := fun hh => by cases hh
    ready_of_lock := fun hh => absurd rfl hh
    ready_of_active := fun hh => q4.trans (h.ready_of_active (q8.symm.trans hh))
    active_of_cancel := fun hh => q8.trans (h.active_of_cancel (q9.symm.trans hh))
    pending_iff := by
      show t.sPending.isSome = true ↔ t.sPhase = .publishing; rw [q10, q11]; exact h.pending_iff
    ready_of_tfine := fun hh => q4.trans (h.ready_of_tfine (q7.symm.trans hh))
    cfg_of_ready := fun hh => by
      show cfgOk t.cfg = true; rw [q5]; exact h.cfg_of_ready (q4.symm.trans hh)
    unready_of_init := fun hh => by cases hh
    ready_of_start := fun hh => by cases hh
    place := fun hh => absurd rfl hh
    polled_of_data := fun hh => by rw [show t.seq = .dataReady from hh] at q1; cases q1 }

theorem Inv.handOver (h : Inv s) (m : Measurement) (ha : s.sActive = true) (hl : s.lock ≠ .sampler) :
    Inv (handOver m s) :=
  { h with
    idle_iff := by simp [ha]
    measuring_of_lock := fun hh => absurd hh hl
    pending_iff := by simp }

end Sys2Proof.Machine
end

