-- ==== Sys2Proof/Laws/Frames.lean ====
section
/-! SUPPORT. What a step leaves alone: one frame for a step of a cycle, one for a command, one for the sampler
and one for TAKE; and no step of an agent writes the scheduler's fields. -/

namespace Sys2Proof.Machine

variable {s t : State}

/-- The registers no step of a cycle writes. -/
def CycleKeeps (s t : State) : Prop :=
  t.lock = s.lock ∧ t.life = s.life ∧ t.cfg = s.cfg ∧ t.cal = s.cal ∧ t.variant = s.variant ∧ t.bus = s.bus ∧
  t.par = s.par ∧ t.mbox = s.mbox ∧ t.sPending = s.sPending ∧ t.sPhase = s.sPhase ∧ t.sActive = s.sActive ∧
  t.sErr = s.sErr ∧ t.sInterval = s.sInterval ∧ t.sCancel = s.sCancel ∧ t.cresp = s.cresp ∧
  t.hphase = s.hphase ∧ t.tfine = s.tfine ∧ t.tfineV = s.tfineV

/-- At most one more transaction stands in the history. -/
def HistoryGrows (s t : State) : Prop :=
  t.env.hist = s.env.hist ∨ ∃ f ans, t.env.hist = ⟨f, ans⟩ :: s.env.hist

/-- How SEQ may move in one step (R189). -/
def SeqMoves (s t : State) : Prop :=
  t.seq = s.seq ∨ (s.seq = .sleep ∧ t.seq = .triggered) ∨ (s.seq = .triggered ∧ t.seq = .polling) ∨
  (s.seq = .polling ∧ t.seq = .dataReady) ∨ (s.seq = .dataReady ∧ t.seq = .sleep) ∨
  (t.seq = .sleep ∧ ∃ f, t.env.hist = ⟨f, .err t.buserr⟩ :: s.env.hist)

/-- A step of a cycle, whichever way it goes. -/
def CycleStepIs (o : Owner) (s t : State) : Prop :=
  cycleStep o s = .run t ∨ (∃ m, cycleStep o s = .done m t) ∨ ∃ txn e, cycleStep o s = .abort txn e t

/-- The frame of a step of a cycle. -/
theorem cycleStep_frame (o : Owner) (hc : CycleStepIs o s t) :
    CycleKeeps s t ∧ HistoryGrows s t ∧ SeqMoves s t := by
  obtain hc | ⟨m, hc⟩ | ⟨txn, e, hc⟩ := hc
  · obtain ⟨_, ⟨h1, _, rfl⟩ | ⟨h1, rfl⟩ | ⟨_, _, rfl⟩ | ⟨h1, _, d, _, rfl⟩⟩ := cycleStep_run _ _ _ hc
    · exact ⟨by simp [CycleKeeps], .inr ⟨_, _, rfl⟩, .inr (.inl ⟨h1, rfl⟩)⟩
    · exact ⟨by simp [CycleKeeps], .inl rfl, .inr (.inr (.inl ⟨h1, rfl⟩))⟩
    · exact ⟨by simp [CycleKeeps], .inl rfl, .inl rfl⟩
    · unfold polled
      split
      · exact ⟨by simp [CycleKeeps], .inr ⟨_, _, rfl⟩, .inr (.inr (.inr (.inl ⟨h1, rfl⟩)))⟩
      · exact ⟨by simp [CycleKeeps], .inr ⟨_, _, rfl⟩, .inl rfl⟩
  · obtain ⟨_, h1, d, _, _, rfl⟩ := cycleStep_done _ _ _ _ hc
    exact ⟨by simp [CycleKeeps], .inr ⟨_, _, rfl⟩, .inr (.inr (.inr (.inr (.inl ⟨h1, rfl⟩))))⟩
  · obtain ⟨_, _, ha, rfl⟩ := cycleStep_abort _ _ _ _ _ hc
    refine ⟨by simp [CycleKeeps], .inr ⟨_, _, rfl⟩, .inr (.inr (.inr (.inr (.inr ⟨rfl, cycleFrame s, ?_⟩))))⟩
    show (⟨cycleFrame s, answerOf (cycleFrame s) s⟩ :: s.env.hist : List BusEvent) =
      ⟨cycleFrame s, .err e⟩ :: s.env.hist
    rw [ha]

/-- What a command of the command port can do to the registers it shares with the sampler and the consumer, to
the history and to SEQ. -/
def CommandEffect (s t : State) : Prop :=
  t.bus = s.bus ∧ t.par = s.par ∧ t.mbox = s.mbox ∧ t.cresp = s.cresp ∧
  (t.lock = s.lock ∨ (s.lock = .free ∧ t.lock = .host) ∨ (s.lock = .host ∧ t.lock = .free)) ∧
  ((t.sPhase = s.sPhase ∧ t.sActive = s.sActive ∧ t.sPending = s.sPending ∧ t.sErr = s.sErr ∧
      t.sInterval = s.sInterval ∧ (t.sCancel = s.sCancel ∨ t.sCancel = true)) ∨
    (s.sActive = false ∧ t.sActive = true ∧ t.sPhase = .measuring ∧ t.sPending = none)) ∧
  (t.env.hist = s.env.hist ∨
    ((∃ f ans, t.env.hist = ⟨f, ans⟩ :: s.env.hist) ∧ (s.lock = .host ∨ s.hphase.inInit = true))) ∧
  ((t.life = s.life ∧ t.cfg = s.cfg ∧ t.cal = s.cal ∧ t.variant = s.variant) ∨
    s.life ≠ .ready ∨ s.hphase.inInit = true) ∧
  SeqMoves s t

/-- The frame of every command of the command port. -/
theorem execCommand_frame (i : Instr) (hi : i.isCommand = true) (hx : exec i s = .next t) :
    CommandEffect s t := by
  cases i with
  | init c p hh f =>
    obtain ⟨hni, rfl⟩ | ⟨d, hp, ha, rfl⟩ | ⟨d, hp, ha, rfl⟩ | ⟨var, d, hp, ha, rfl⟩ |
      ⟨var, w1, d, hp, ha, rfl⟩ | ⟨txn, a, n, e, hp, ha, rfl⟩ := execInit_next _ _ _ _ _ _ hx
    · unfold initEntry initFail
      by_cases h1 : s.life = .ready
      · rw [if_pos h1]; simp [CommandEffect, SeqMoves]
      · rw [if_neg h1]; split <;> simp [CommandEffect, SeqMoves, h1]
    · unfold initGotChip initFail
      split <;> simp [CommandEffect, SeqMoves, hp, HostPhase.inInit]
    · unfold initGotVariant initFail
      split <;> simp [CommandEffect, SeqMoves, hp, HostPhase.inInit]
    · simp [CommandEffect, SeqMoves, hp, HostPhase.inInit]
    · simp [CommandEffect, SeqMoves, hp, HostPhase.inInit, initCommit]
    · simp [CommandEffect, SeqMoves, hp, abortInit]
  | sense =>
    obtain ⟨hns, rfl⟩ | ⟨hp, hl, hc⟩ := execSense_next _ _ hx
    · unfold senseEntry
      split
      · simp [CommandEffect, SeqMoves]
      · split
        · simp [CommandEffect, SeqMoves]
        · split
          · rename_i hf; simp [CommandEffect, SeqMoves, hf]
          · simp [CommandEffect, SeqMoves]
    · have hf : ∃ v, CycleStepIs .host s v ∧
          (t = v ∨ ∃ f, t = respond f { v with lock := .free }) := by
        obtain hc | ⟨m, v, hc, rfl⟩ | ⟨txn, e, v, hc, rfl⟩ := hc
        · exact ⟨t, .inl hc, .inl rfl⟩
        · exact ⟨v, .inr (.inl ⟨_, hc⟩), .inr ⟨_, rfl⟩⟩
        · exact ⟨v, .inr (.inr ⟨_, _, hc⟩), .inr ⟨_, rfl⟩⟩
      obtain ⟨v, hv, hvt⟩ := hf
      obtain ⟨⟨k1, k2, k3, k4, k5, k6, k7, k8, k9, k10, k11, k12, k13, k14, k15, k16, _⟩, hg, hs⟩ :=
        cycleStep_frame _ hv
      obtain rfl | ⟨f, rfl⟩ := hvt
      · exact ⟨k6, k7, k8, k15, .inl k1, .inl ⟨k10, k11, k9, k12, k13, .inl k14⟩,
          hg.imp id fun h => ⟨h, .inl hl⟩, .inl ⟨k2, k3, k4, k5⟩, hs⟩
      · exact ⟨k6, k7, k8, k15, .inr (.inr ⟨hl, rfl⟩), .inl ⟨k10, k11, k9, k12, k13, .inl k14⟩,
          hg.imp id fun h => ⟨h, .inl hl⟩, .inl ⟨k2, k3, k4, k5⟩, hs⟩
  | start ms =>
    simp only [exec, execStart] at hx
    split at hx <;> cases hx
    · split
      · simp [CommandEffect, SeqMoves]
      · rename_i h1; simp [CommandEffect, SeqMoves, startLaunch, h1]
    · unfold startEntry
      split
      · simp [CommandEffect, SeqMoves]
      · split
        · simp [CommandEffect, SeqMoves]
        · rename_i h1; simp [CommandEffect, SeqMoves, startLaunch, h1]
  | stop =>
    simp only [exec, execStop] at hx
    split at hx <;> cases hx
    · split <;> simp [CommandEffect, SeqMoves]
    · unfold stopEntry; split <;> simp [CommandEffect, SeqMoves]
  | status => cases hx; simp [CommandEffect, SeqMoves]
  | compT r => simp only [exec, execCompT] at hx; split at hx <;> cases hx <;> simp [CommandEffect, SeqMoves]
  | compP r =>
    simp only [exec, execCompP, withTfine] at hx
    (repeat' split at hx) <;> cases hx <;> simp [CommandEffect, SeqMoves]
  | compH r =>
    simp only [exec, execCompH, withTfine] at hx
    (repeat' split at hx) <;> cases hx <;> simp [CommandEffect, SeqMoves]
  | take => cases hi
  | busRdI2c => cases hi
  | busRdSpi => cases hi
  | busWrI2c => cases hi
  | busWrSpi => cases hi

/-- What the host agent's step can do: nothing, or a command's effect on a state that differs in the ports
only. -/
theorem hostStep_frame (hx : hostStep s = .next t) : CommandEffect s t := by
  obtain ⟨_, _, rfl⟩ | ⟨s0, hb, h0, h1⟩ := hostStep_next _ _ hx
  · simp [CommandEffect, SeqMoves]
  · have key : CommandEffect s0 t := by
      obtain ⟨e, he, rfl⟩ | ⟨i, hd, hi, hx⟩ := h1
      · simp [CommandEffect, SeqMoves]
      · exact execCommand_frame i hi hx
    obtain ⟨_, rfl⟩ | ⟨_, w, rest, _, rfl⟩ := h0
    · exact key
    · obtain ⟨k1, k2, k3, k4, k5, k6, k7, k8, k9⟩ := key
      have hn : (acceptCmd w rest s).hphase.inInit = false := rfl
      rw [hn] at k7 k8
      refine ⟨k1, k2, k3, k4, k5, k6, ?_, ?_, k9⟩
      · obtain h | ⟨h, hl | hl⟩ := k7
        · exact .inl h
        · exact .inr ⟨h, .inl hl⟩
        · cases hl
      · obtain h | h | h := k8
        · exact .inl h
        · exact .inr (.inl h)
        · cases h

/-- The frame of the consumer's step: only MBOX, the consumer response and the ports. -/
theorem consumerStep_frame (hx : consumerStep s = .next t) :
    t.env.hist = s.env.hist ∧ t.seq = s.seq ∧ t.lock = s.lock ∧ t.life = s.life ∧ t.cfg = s.cfg ∧
    t.cal = s.cal ∧ t.variant = s.variant ∧ t.bus = s.bus ∧ t.par = s.par ∧ t.sPhase = s.sPhase ∧
    t.sActive = s.sActive ∧ t.sCancel = s.sCancel ∧ t.sPending = s.sPending ∧ t.sErr = s.sErr ∧
    t.sInterval = s.sInterval ∧
    (t.mbox = s.mbox ∨ ∃ m, s.mbox = some m ∧ t.mbox = none ∧ ∃ k, t.cresp = Resp.measured k m) := by
  obtain rfl | ⟨rest, rfl⟩ | ⟨s0, h0, h1⟩ := consumerStep_next _ _ hx
  · simp
  · simp [refuseCons]
  · obtain rfl | hx := h1
    · obtain rfl | ⟨b, rest, rfl⟩ := h0 <;> simp [acceptCons]
    · unfold execTake at hx
      split at hx
      · rename_i m hm
        cases hx
        obtain rfl | ⟨b, rest, rfl⟩ := h0
        · simpa using .inr ⟨m, hm, _, rfl⟩
        · refine ⟨rfl, rfl, rfl, rfl, rfl, rfl, rfl, rfl, rfl, rfl, rfl, rfl, rfl, rfl, rfl, ?_⟩
          exact .inr ⟨m, hm, rfl, _, rfl⟩
      · split at hx <;> cases hx <;> obtain rfl | ⟨b, rest, rfl⟩ := h0 <;> simp [acceptCons]

/-- The scheduler's fields are as they were. -/
def SchedKeeps (s t : State) : Prop :=
  t.env.sched = s.env.sched ∧ t.env.tick = s.env.tick ∧ t.env.turn = s.env.turn ∧
    t.env.patience = s.env.patience

theorem SchedKeeps.trans {u : State} (h : SchedKeeps s t) (k : SchedKeeps t u) : SchedKeeps s u :=
  ⟨k.1.trans h.1, k.2.1.trans h.2.1, k.2.2.1.trans h.2.2.1, k.2.2.2.trans h.2.2.2⟩

/-- A step of a cycle keeps the scheduler's fields. -/
theorem cycleStep_sched (o : Owner) (hc : CycleStepIs o s t) : SchedKeeps s t := by
  obtain hc | ⟨m, hc⟩ | ⟨txn, e, hc⟩ := hc
  · obtain ⟨_, ⟨_, _, rfl⟩ | ⟨_, rfl⟩ | ⟨_, _, rfl⟩ | ⟨_, _, d, _, rfl⟩⟩ := cycleStep_run _ _ _ hc
    · exact ⟨rfl, rfl, rfl, rfl⟩
    · exact ⟨rfl, rfl, rfl, rfl⟩
    · exact ⟨rfl, rfl, rfl, rfl⟩
    · unfold polled; split <;> exact ⟨rfl, rfl, rfl, rfl⟩
  · obtain ⟨_, _, d, _, _, rfl⟩ := cycleStep_done _ _ _ _ hc
    exact ⟨rfl, rfl, rfl, rfl⟩
  · obtain ⟨_, _, _, rfl⟩ := cycleStep_abort _ _ _ _ _ hc
    exact ⟨rfl, rfl, rfl, rfl⟩

/-- So does every command of the command port. -/
theorem execCommand_sched (i : Instr) (hi : i.isCommand = true) (hx : exec i s = .next t) : SchedKeeps s t := by
  cases i with
  | init c p hh f =>
    obtain ⟨_, rfl⟩ | ⟨d, _, _, rfl⟩ | ⟨d, _, _, rfl⟩ | ⟨var, d, _, _, rfl⟩ | ⟨var, w1, d, _, _, rfl⟩ |
      ⟨txn, a, n, e, _, _, rfl⟩ := execInit_next _ _ _ _ _ _ hx
    · unfold initEntry; (repeat' split) <;> exact ⟨rfl, rfl, rfl, rfl⟩
    · unfold initGotChip; split <;> exact ⟨rfl, rfl, rfl, rfl⟩
    · unfold initGotVariant; split <;> exact ⟨rfl, rfl, rfl, rfl⟩
    · exact ⟨rfl, rfl, rfl, rfl⟩
    · exact ⟨rfl, rfl, rfl, rfl⟩
    · exact ⟨rfl, rfl, rfl, rfl⟩
  | sense =>
    obtain ⟨_, rfl⟩ | ⟨_, _, hc | ⟨m, v, hc, rfl⟩ | ⟨txn, e, v, hc, rfl⟩⟩ := execSense_next _ _ hx
    · unfold senseEntry; (repeat' split) <;> exact ⟨rfl, rfl, rfl, rfl⟩
    · exact cycleStep_sched _ (.inl hc)
    · exact (cycleStep_sched _ (.inr (.inl ⟨_, hc⟩))).trans ⟨rfl, rfl, rfl, rfl⟩
    · exact (cycleStep_sched _ (.inr (.inr ⟨_, _, hc⟩))).trans ⟨rfl, rfl, rfl, rfl⟩
  | start ms =>
    simp only [exec, execStart] at hx
    split at hx <;> cases hx
    · split <;> exact ⟨rfl, rfl, rfl, rfl⟩
    · unfold startEntry; (repeat' split) <;> exact ⟨rfl, rfl, rfl, rfl⟩
  | stop =>
    simp only [exec, execStop] at hx
    split at hx <;> cases hx
    · split <;> exact ⟨rfl, rfl, rfl, rfl⟩
    · unfold stopEntry; split <;> exact ⟨rfl, rfl, rfl, rfl⟩
  | status => cases hx; exact ⟨rfl, rfl, rfl, rfl⟩
  | compT r => simp only [exec, execCompT] at hx; split at hx <;> cases hx <;> exact ⟨rfl, rfl, rfl, rfl⟩
  | compP r =>
    simp only [exec, execCompP, withTfine] at hx
    (repeat' split at hx) <;> cases hx <;> exact ⟨rfl, rfl, rfl, rfl⟩
  | compH r =>
    simp only [exec, execCompH, withTfine] at hx
    (repeat' split at hx) <;> cases hx <;> exact ⟨rfl, rfl, rfl, rfl⟩
  | take => cases hi
  | busRdI2c => cases hi
  | busRdSpi => cases hi
  | busWrI2c => cases hi
  | busWrSpi => cases hi

/-- No agent's step writes the scheduler's fields. -/
theorem agentStep_sched (ev : Event) (hx : agentStep ev s = .next t) : SchedKeeps s t := by
  cases ev with
  | host =>
    obtain ⟨_, _, rfl⟩ | ⟨s0, _, h0, h1⟩ := hostStep_next _ _ hx
    · exact ⟨rfl, rfl, rfl, rfl⟩
    · have k0 : SchedKeeps s s0 := by
        obtain ⟨_, rfl⟩ | ⟨_, w, rest, _, rfl⟩ := h0 <;> exact ⟨rfl, rfl, rfl, rfl⟩
      obtain ⟨e, _, rfl⟩ | ⟨i, _, hi, hx⟩ := h1
      · exact k0.trans ⟨rfl, rfl, rfl, rfl⟩
      · exact k0.trans (execCommand_sched i hi hx)
  | sampler a =>
    obtain ⟨_, rfl⟩ | ⟨_, _, hc | ⟨m, v, hc, rfl⟩ | ⟨t, e, v, hc, rfl⟩⟩ | ⟨_, _, _, rfl⟩ | ⟨_, _, _, rfl⟩ |
      ⟨_, _, _, rfl⟩ | ⟨_, rfl⟩ | ⟨_, _, rfl⟩ | ⟨_, _, rfl⟩ := samplerStep_next _ _ _ hx
    · exact ⟨rfl, rfl, rfl, rfl⟩
    · exact cycleStep_sched _ (.inl hc)
    · exact (cycleStep_sched _ (.inr (.inl ⟨_, hc⟩))).trans ⟨rfl, rfl, rfl, rfl⟩
    · exact (cycleStep_sched _ (.inr (.inr ⟨_, _, hc⟩))).trans ⟨rfl, rfl, rfl, rfl⟩
    · exact ⟨rfl, rfl, rfl, rfl⟩
    · exact ⟨rfl, rfl, rfl, rfl⟩
    · exact ⟨rfl, rfl, rfl, rfl⟩
    · unfold samplerPublishing; (repeat' split) <;> exact ⟨rfl, rfl, rfl, rfl⟩
    · exact ⟨rfl, rfl, rfl, rfl⟩
    · exact ⟨rfl, rfl, rfl, rfl⟩
  | consumer =>
    obtain rfl | ⟨rest, rfl⟩ | ⟨s0, h0, h1⟩ := consumerStep_next _ _ hx
    · exact ⟨rfl, rfl, rfl, rfl⟩
    · exact ⟨rfl, rfl, rfl, rfl⟩
    · have k0 : SchedKeeps s s0 := by obtain rfl | ⟨b, rest, rfl⟩ := h0 <;> exact ⟨rfl, rfl, rfl, rfl⟩
      refine k0.trans ?_
      obtain rfl | hx := h1
      · exact ⟨rfl, rfl, rfl, rfl⟩
      · unfold execTake at hx
        (repeat' split at hx) <;> cases hx <;> exact ⟨rfl, rfl, rfl, rfl⟩
  | pollTimer => cases hx; unfold pollTimerStep; split <;> exact ⟨rfl, rfl, rfl, rfl⟩
  | intervalTimer => cases hx; unfold intervalTimerStep; split <;> exact ⟨rfl, rfl, rfl, rfl⟩
  | busPort =>
    obtain ⟨_, rfl⟩ | ⟨g, rest, s0, _, rfl, _, f, x, ⟨_, rfl⟩ | ⟨e, _, rfl⟩⟩ := busStep_next _ _ hx <;>
      exact ⟨rfl, rfl, rfl, rfl⟩

end Sys2Proof.Machine
end

