-- ==== Sys2Proof/Laws/PerInstr.lean ====
section
/-! SUPPORT. One family of statements per instruction: the encoder's word keeps to the row of the opcode table,
mask and match, that the spec gives the instruction (R81, R88 to R91). -/

namespace Sys2Proof.Laws.EncodedRow

/-- The word the opcode table speaks of: the command word, the consumer word, or the first byte sent. -/
def rowWord : Packet → Nat
  | .cmd w  => w.toNat
  | .cons b => b.toNat
  | .bus f  => (f.out.headD 0).toNat

/-- The mask and the match of the instruction's row. -/
def row : Instr → Nat × Nat
  | .init _ _ _ _  => (0xFFF000FF, 0x00000001)
  | .sense         => (0xFFFFFFFF, 0x00000002)
  | .start _       => (0x000000FF, 0x00000003)
  | .stop          => (0xFFFFFFFF, 0x00000004)
  | .status        => (0xFFFFFFFF, 0x00000005)
  | .compT _       => (0xF00000FF, 0x00000010)
  | .compP _       => (0xF00000FF, 0x00000011)
  | .compH _       => (0xFF0000FF, 0x00000012)
  | .take          => (0xFF, 0x01)
  | .busRdI2c _ _  => (0x00, 0x00)
  | .busRdSpi _ _  => (0x80, 0x80)
  | .busWrI2c _    => (0x00, 0x00)
  | .busWrSpi _    => (0x80, 0x00)

/-- A well-formed instruction is encoded within its row. -/
def Statement (i : Instr) : Prop :=
  i.wf = true → ∀ fill : Byte, rowWord (encode fill i) &&& (row i).1 = (row i).2

theorem masked (w m v : BitVec 32) (h : w &&& m = v) : w.toNat &&& m.toNat = v.toNat := by
  rw [← h, BitVec.toNat_and]

theorem masked8 (w m v : BitVec 8) (h : w &&& m = v) : w.toNat &&& m.toNat = v.toNat := by
  rw [← h, BitVec.toNat_and]

theorem init (t p h f : BitVec 3) : Statement (.init t p h f) := fun _ _ =>
  masked (encodeInit t p h f) 0xFFF000FF#32 0x00000001#32 (by
    rw [show 0xFFF000FF#32 = (0xFFF#12 ++ 0#3 ++ 0#3 ++ 0#3 ++ 0#3 ++ 0xFF#8 : BitVec 32) by decide, encodeInit,
      BitVec.and_append, BitVec.and_append, BitVec.and_append, BitVec.and_append, BitVec.and_append]
    simp)

theorem sense : Statement .sense := fun _ _ =>
  masked 0x00000002#32 0xFFFFFFFF#32 0x00000002#32 (by decide)

theorem start (ms : BitVec 24) : Statement (.start ms) := fun _ _ =>
  masked (ms ++ 0x03#8 : BitVec 32) 0x000000FF#32 0x00000003#32 (by
    rw [show 0x000000FF#32 = (0#24 ++ 0xFF#8 : BitVec 32) by decide, BitVec.and_append]; simp)

theorem stop : Statement .stop := fun _ _ =>
  masked 0x00000004#32 0xFFFFFFFF#32 0x00000004#32 (by decide)

theorem status : Statement .status := fun _ _ =>
  masked 0x00000005#32 0xFFFFFFFF#32 0x00000005#32 (by decide)

theorem compT (raw : BitVec 20) : Statement (.compT raw) := fun _ _ =>
  masked (0#4 ++ raw ++ 0x10#8 : BitVec 32) 0xF00000FF#32 0x00000010#32 (by
    rw [show 0xF00000FF#32 = (0xF#4 ++ 0#20 ++ 0xFF#8 : BitVec 32) by decide,
      BitVec.and_append, BitVec.and_append]
    simp)

theorem compP (raw : BitVec 20) : Statement (.compP raw) := fun _ _ =>
  masked (0#4 ++ raw ++ 0x11#8 : BitVec 32) 0xF00000FF#32 0x00000011#32 (by
    rw [show 0xF00000FF#32 = (0xF#4 ++ 0#20 ++ 0xFF#8 : BitVec 32) by decide,
      BitVec.and_append, BitVec.and_append]
    simp)

theorem compH (raw : BitVec 16) : Statement (.compH raw) := fun _ _ =>
  masked (0#8 ++ raw ++ 0x12#8 : BitVec 32) 0xFF0000FF#32 0x00000012#32 (by
    rw [show 0xFF0000FF#32 = (0xFF#8 ++ 0#16 ++ 0xFF#8 : BitVec 32) by decide,
      BitVec.and_append, BitVec.and_append]
    simp)

theorem take : Statement .take := fun _ _ => masked8 0x01#8 0xFF#8 0x01#8 (by decide)

theorem busRdI2c (a : Byte) (n : Nat) : Statement (.busRdI2c a n) := fun _ _ => Nat.and_zero _

theorem spi_read_first (a : BitVec 7) : (1#1 ++ a : BitVec 8) &&& 0x80#8 = 0x80#8 := by revert a; decide

theorem busRdSpi (a : BitVec 7) (n : Nat) : Statement (.busRdSpi a n) := fun _ _ =>
  masked8 _ 0x80#8 0x80#8 (spi_read_first a)

theorem busWrI2c (ps : List (Byte × Byte)) : Statement (.busWrI2c ps) := fun _ _ => Nat.and_zero _

theorem spi_write_first (a : BitVec 7) : (0#1 ++ a : BitVec 8) &&& 0x80#8 = 0x00#8 := by revert a; decide

theorem busWrSpi (ps : List (BitVec 7 × Byte)) : Statement (.busWrSpi ps) := by
  intro h _
  cases ps with
  | nil      => cases h
  | cons q r => exact masked8 _ 0x80#8 0x00#8 (spi_write_first q.1)

end Sys2Proof.Laws.EncodedRow
end

