-- ==== Sys2Proof/Tests/Slice0.lean ====
section
/-! SUPPORT. The model's own tests: the WellFormed smoke, words written out from the encodings of
30_encoding.md, single steps against the derived vectors of 95_test_vectors.md, and for every statement with
hypotheses a witness that meets them. -/

namespace Sys2Proof.Tests

open Sys2Proof.Machine

/-! Small states. -/

/-- Reset on an I2C bus. -/
def onI2c : State := { State.reset with bus := .i2c }

/-- A READY block on an I2C bus with `INIT.DEFAULT`'s configuration and the example calibration. -/
def ready : State := { onI2c with life := .ready, cfg := ⟨3, 3, 3, 2⟩, cal := exampleCal }

/-- The same with a run in MEASURING before M1. -/
def running : State := { ready with sActive := true, sPhase := .measuring, sInterval := 1000 }

/-- A Measurement. -/
def sample : Measurement := ⟨1, 2, some 3⟩

/-- A run that waits for its interval, with a stop request. -/
def stopping : State := { running with sPhase := .waiting, sCancel := true, timer := some 1000 }

/-- A run that is to publish. -/
def publishing : State := { running with sPhase := .publishing, sPending := some sample }

/-- SENSE in its cycle, LOCK held, before T1. -/
def sensing : State := { ready with lock := .host, cmdBusy := true, cmd := 2, hphase := .senseCycle }

/-- The sampler in its cycle, LOCK held, before T1. -/
def sampling : State := { running with lock := .sampler }

/-- INIT.DEFAULT accepted, before its reads. -/
def initing : State := { onI2c with cmdBusy := true, cmd := 0x0004DB01, hphase := .initChip }

/-- A state with the next answers of the oracle. -/
def answers (l : List BusAnswer) (s : State) : State := { s with env := { s.env with busIn := l } }

/-- A state with the scheduler's next choice. -/
def choose (e : Event) (s : State) : State := { s with env := { s.env with sched := [e] } }

/-- A state whose command port waits with a word. -/
def word (w : Word) (s : State) : State := { s with env := { s.env with cmdIn := [w] } }

/-- A state whose consumer is about to present words. -/
def consumes (l : List Byte) (s : State) : State := { s with env := { s.env with consIn := l } }

/-- A TAKE that waits for the run (R238 case b). -/
def taking : State := { running with consReq := some 0x01 }

/-- The step ends in a next state. -/
def isNext : Out → Bool
  | .next _ => true
  | _       => false

/-- The next state; reset where there is none. -/
def after : Out → State
  | .next t => t
  | _       => State.reset

theorem next_of_isNext {o : Out} (h : isNext o = true) : o = .next (after o) := by
  cases o with
  | next t    => rfl
  | fault r   => cases h
  | refused r => cases h

/-- Window 1 of the example calibration (R132). -/
def win1 : List Byte :=
  [0xD3, 0x66, 0x03, 0x00, 0x7D, 0x8E, 0x3F, 0xD7, 0x58, 0x00, 0xA9, 0x1B, 0x98, 0xFF, 0x27, 0x1E, 0x00, 0x00,
    0x2D, 0xFA, 0xB4, 0xF3, 0x1E]

/-- Window 2 of the example calibration (R132). -/
def win2 : List Byte := [0x3F, 0x27, 0x30, 0x00, 0x2D, 0x14, 0x78, 0x9C, 0x5B, 0x66, 0xB4, 0xE0, 0xE2, 0x12]

/-- The data block of V-E2E-1. -/
def block : List Byte := [0x55, 0x73, 0x00, 0x79, 0xCF, 0x00, 0x55, 0xF0]

/-! WellFormed: an ill-formed term for each check, refused. -/

theorem test_wf_osrs_t : (Instr.init 6 0 0 0).wf = false := by decide
theorem test_wf_osrs_p : (Instr.init 1 7 0 0).wf = false := by decide
theorem test_wf_osrs_h : (Instr.init 1 0 6 0).wf = false := by decide
theorem test_wf_empty_read : (Instr.busRdI2c 0x10 0).wf = false := by decide
theorem test_wf_long_read : (Instr.busRdI2c 0xFF 2).wf = false := by decide
theorem test_wf_empty_read_spi : (Instr.busRdSpi 0x10 0).wf = false := by decide
theorem test_wf_long_read_spi : (Instr.busRdSpi 0x7F 130).wf = false := by decide
theorem test_wf_empty_write : (Instr.busWrI2c []).wf = false := by decide
theorem test_wf_empty_write_spi : (Instr.busWrSpi []).wf = false := by decide
theorem test_wf_edges : (Instr.init 5 5 5 7).wf = true ∧ (Instr.busRdI2c 0xFF 1).wf = true ∧
    (Instr.busRdI2c 0x00 256).wf = true ∧ (Instr.busRdSpi 0x7F 129).wf = true := by decide

/-! Decoding, one word or frame for each constructor (V-ENC, V-FRM), and what is refused. -/

theorem test_decode_init : decodeCmd 0b0000_0000_0000_010_011_011_011_00000001 = .ok (.init 3 3 3 2) := by decide
theorem test_decode_init_fields : decodeCmd 0b0000_0000_0000_111_001_100_010_00000001 = .ok (.init 2 4 1 7) := by
  decide
theorem test_decode_sense : decodeCmd 0x00000002 = .ok .sense := by decide
theorem test_decode_start : decodeCmd 0xFFFFFF03 = .ok (.start 16777215) := by decide
theorem test_decode_stop : decodeCmd 0x00000004 = .ok .stop := by decide
theorem test_decode_status : decodeCmd 0x00000005 = .ok .status := by decide
theorem test_decode_compT : decodeCmd 0x0FFFFF10 = .ok (.compT 1048575) := by decide
theorem test_decode_compP : decodeCmd 0x05573011 = .ok (.compP 350000) := by decide
theorem test_decode_compH : decodeCmd 0x00FFFF12 = .ok (.compH 65535) := by decide
theorem test_decode_take : decodeCons 0x01 = .ok .take := by decide
theorem test_decode_busRdI2c : decodeFrame 0 ⟨.i2c, [0x8A], 23⟩ = .ok (.busRdI2c 0x8A 23) := by decide
theorem test_decode_busRdSpi : decodeFrame 0 ⟨.spi, [0x9D, 0x00], 2⟩ = .ok (.busRdSpi 0x1D 1) := by decide
theorem test_decode_busWrI2c :
    decodeFrame 0 ⟨.i2c, [0x74, 0x6C, 0x72, 0x03], 0⟩ = .ok (.busWrI2c [(0x74, 0x6C), (0x72, 0x03)]) := by decide
theorem test_decode_busWrSpi : decodeFrame 0 ⟨.spi, [0x74, 0x01], 0⟩ = .ok (.busWrSpi [(0x74, 0x01)]) := by decide

theorem test_decode_refused : decodeCmd 0x00000601 = .error .reservedOversampling ∧
    decodeCmd 0x00003001 = .error .reservedOversampling ∧ decodeCmd 0x0001C001 = .error .reservedOversampling ∧
    decodeCmd 0x00100001 = .error .mustBeZero ∧ decodeCmd 0x80000004 = .error .mustBeZero ∧
    decodeCmd 0x10000010 = .error .mustBeZero ∧ decodeCmd 0x01000012 = .error .mustBeZero ∧
    decodeCmd 0x00000000 = .error .unknownOpcode ∧ decodeCmd 0x00000006 = .error .unknownOpcode ∧
    decodeCmd 0x0000000F = .error .unknownOpcode ∧ decodeCmd 0x00000013 = .error .unknownOpcode := by decide
theorem test_decode_cons_refused : decodeCons 0x00 = .error .unknownConsumerWord ∧
    decodeCons 0x02 = .error .unknownConsumerWord ∧ decodeCons 0xFF = .error .unknownConsumerWord := by decide
theorem test_decode_frame_refused : decodeFrame 0 ⟨.i2c, [0x74], 0⟩ = .error .malformedFrame ∧
    decodeFrame 0 ⟨.spi, [0x9D, 0x01], 2⟩ = .error .malformedFrame ∧
    decodeFrame 0 ⟨.spi, [0x74, 0x01, 0xF2, 0x00], 0⟩ = .error .malformedFrame ∧
    decodeFrame 0 ⟨.i2c, [0xFF], 2⟩ = .error .malformedFrame := by decide

/-! The host's two questions, on a word of each row it can tell apart (log 3). -/

theorem test_table_words : decodeTableWord 32 0x0004DB01 = some (.init 3 3 3 2) ∧
    decodeTableWord 32 0x00000002 = some .sense ∧ decodeTableWord 32 0x00000003 = some (.start 0) ∧
    decodeTableWord 32 0x00000004 = some .stop ∧ decodeTableWord 32 0x00000005 = some .status ∧
    decodeTableWord 32 0x00000010 = some (.compT 0) ∧ decodeTableWord 32 0x00000011 = some (.compP 0) ∧
    decodeTableWord 32 0x00000012 = some (.compH 0) ∧ decodeTableWord 8 0x01 = some .take ∧
    decodeTableWord 8 0x80 = some (.busRdSpi 0 1) ∧ decodeTableWord 8 0x00 = some (.busWrSpi [(0, 0)]) ∧
    decodeTableWord 0 0 = some (.busRdI2c 0 1) ∧ decodeTableWord 16 0 = some (.busWrI2c [(0, 0)]) := by
  decide +kernel

theorem test_table_words_run : ∀ q ∈ [(32, 0x0004DB01), (32, 2), (32, 3), (32, 4), (32, 5), (32, 0x10), (32, 0x11),
    (32, 0x12), (8, 0x01)], isNext (step (State.reset.withFetchWord q.1 q.2)) = true := by decide +kernel

/-- The oracle's answer is a free value, but a transaction runs on either answer. -/
theorem test_table_frame_runs : isNext (step (answers [.ok [0, 0]] (State.reset.withFetchWord 8 0x80))) = true ∧
    isNext (step (answers [.ok []] (State.reset.withFetchWord 8 0x00))) = true ∧
    isNext (step (answers [.ok [0]] (State.reset.withFetchWord 0 0))) = true ∧
    isNext (step (answers [.err .base] (State.reset.withFetchWord 16 0))) = true := by decide +kernel

/-! Single steps. -/

/-- V-INIT-3: INVALID_CONFIG, FAILED, no transaction. -/
theorem test_init_invalid : (after (exec (.init 0 1 0 0) onI2c)).resp.code = .invalidConfig ∧
    (after (exec (.init 0 1 0 0) onI2c)).life = .failed ∧
    (after (exec (.init 0 1 0 0) onI2c)).env.hist = [] := by decide +kernel

/-- V-INIT-1: the five steps of INIT.DEFAULT. -/
theorem test_init_default :
    let t := after (execSteps (.init 3 3 3 2) 5
      (answers [.ok [0x61], .ok [0x00], .ok win1, .ok win2] onI2c))
    t.life = .ready ∧ t.cal = exampleCal ∧ t.cfg = ⟨3, 3, 3, 2⟩ ∧ t.variant = 0x00 ∧ t.resp.code = .ok ∧
      (t.env.hist.map fun x => x.frame.out) = [[0xE1], [0x8A], [0xF0], [0xD0]] := by decide +kernel

/-- V-CYC-1 and V-E2E-1: the last step of SENSE. -/
theorem test_sense_done :
    let t := after (exec .sense (answers [.ok block] { sensing with seq := .dataReady, devmode := .forced }))
    t.resp.t = 0x403901B1CDF00000 ∧ t.resp.p = 0x40F8798C77EDADBF ∧ t.resp.h = 0x4048E1DA3AE1766C ∧
      t.resp.hv = true ∧ t.lock = .free ∧ t.seq = .sleep ∧ t.devmode = .sleep := by decide +kernel

/-- V-CYC-3: a bus error at the trigger write. -/
theorem test_sense_abort (e : BusErr) :
    let t := after (exec .sense (answers [.err e] sensing))
    t.resp.code = .transportError ∧ t.resp.detail = 0x10 ∧ t.resp.buserr = e ∧ t.lock = .free :=
  ⟨rfl, rfl, rfl, rfl⟩

/-- V-FRM-10. -/
theorem test_sense_trigger :
    ((after (exec .sense (answers [.err .base] sensing))).env.hist.map fun x => x.frame.out) =
      [[0x74, 0x6C, 0x72, 0x03, 0x75, 0x08, 0x74, 0x6D]] := by decide +kernel

/-- START: the launch (R230), and V-ERR-2. -/
theorem test_start : (after (exec (.start 1000) ready)).sActive = true ∧
    (after (exec (.start 1000) ready)).sInterval = 1000 ∧ (after (exec (.start 1000) ready)).resp.code = .ok ∧
    (after (exec (.start 1000) onI2c)).resp.code = .notInitialized := by decide +kernel

/-- START while a run is active waits with a stop request (R231). -/
theorem test_start_restart : (after (exec (.start 5) running)).sCancel = true ∧
    (after (exec (.start 5) running)).hphase = .startWait ∧
    (after (exec (.start 5) running)).sInterval = 1000 := by decide +kernel

/-- STOP: V-ERR-8, and with a run active (R233). -/
theorem test_stop : (after (exec .stop onI2c)).resp.code = .ok ∧ (after (exec .stop running)).sCancel = true ∧
    (after (exec .stop running)).hphase = .stopWait := by decide +kernel

/-- V-STAT-5 and V-STAT-9. -/
theorem test_status : (after (exec .status running)).resp.stat = 0x00000051 ∧
    (after (exec .status { running with sPhase := .waiting, mbox := some sample })).resp.stat = 0x000000F1 := by
  decide +kernel

/-- V-STAT-10. -/
theorem test_status_err :
    let t := after (exec .status { ready with sErr := some ⟨.transportError, 0x11, .base⟩, devmode := .forced })
    t.resp.stat = 0x00010301 ∧ t.resp.detail = 0x11 ∧ t.resp.aux = 0x00 := by decide +kernel

/-- V-T-1, and V-ERR-3. -/
theorem test_compT : (after (exec (.compT 498928) ready)).tfine = 0x40FF421E416C0000 ∧
    (after (exec (.compT 498928) ready)).resp.t = 0x403901B1CDF00000 ∧
    (after (exec (.compT 498928) onI2c)).resp.code = .notInitialized := by decide +kernel

/-- V-T-7: a negative zero. -/
theorem test_compT_zero :
    (after (exec (.compT 419248) { ready with cal := { exampleCal with t2 := -1, t3 := -1 } })).resp.t =
      0x8000000000000000 := by decide +kernel

/-- V-P-2, and V-ERR-6. -/
theorem test_compP :
    (after (exec (.compP 350000) { ready with tfine := 0x40FF421E416C0000, tfineV := true })).resp.p =
      0x40F8798C77EDADBF ∧
    (after (exec (.compP 350000) ready)).resp.code = .tfineUnset := by decide +kernel

/-- V-P-9: a unit divisor. -/
theorem test_compP_divisor :
    (after (exec (.compP 350000) { ready with
      tfine := 0x40FF421E416C0000, tfineV := true, par := { Config.params with pdiv := 100 } })).resp.p =
      0x408F53E6FFE88C7A := by decide +kernel

/-- V-H-3 and V-H-5. -/
theorem test_compH :
    let s := { ready with tfine := 0x40FF421E416C0000, tfineV := true }
    (after (exec (.compH 25000) s)).resp.h = 0x40515559CB154FAA ∧
      (after (exec (.compH 65535) s)).resp.h = 0x4059000000000000 ∧
      (after (exec (.compH 65535) s)).resp.hv = true := by decide +kernel

/-- V-H-8: a negative zero passes the clamp. -/
theorem test_compH_zero :
    (after (exec (.compH 0) { ready with
      tfine := 0x40FF421E416C0000, tfineV := true, cal := { exampleCal with h2 := 0, h6 := 0 } })).resp.h =
      0x8000000000000000 := by decide +kernel

/-- TAKE on a full mailbox empties it (R238 case a). -/
theorem test_take : (after (exec .take { running with mbox := some sample })).mbox = none ∧
    (after (exec .take { running with mbox := some sample })).cresp.t = 1 ∧
    (after (exec .take { running with mbox := some sample })).cresp.h = 3 := by decide +kernel

/-- R88: an illegal consumer word is answered at once while a TAKE waits, which goes on waiting. -/
theorem test_illegal_while_taking :
    let t := after (agentStep .consumer (consumes [0x02] taking))
    t.cresp.code = .illegalCommand ∧ t.consReq = some 0x01 ∧ t.env.consIn = [] ∧
      (after (agentStep .consumer { t with mbox := some sample })).cresp.t = 1 := by decide +kernel

/-- R311: at the timer's turn a poll delay ends. -/
theorem test_turn_ends_the_delay :
    let s := { sensing with seq := .polling, pwait := true, timer := some 10, env := { Env.reset with turn := 9 } }
    nextEvent s = .pollTimer ∧ (after (step s)).pwait = false ∧ (after (step s)).env.turn = 10 := by decide +kernel

/-- V-ERR-11 and V-ERR-12. -/
theorem test_take_ended : (after (exec .take ready)).cresp.code = .cancelled ∧
    (after (exec .take { ready with sErr := some ⟨.transportError, 0x12, .base⟩ })).cresp.code = .transportError ∧
    (after (exec .take { ready with sErr := some ⟨.transportError, 0x12, .base⟩ })).cresp.detail = 0x12 := by
  decide +kernel

/-- V-FRM-5 and V-FRM-6, I2C. -/
theorem test_busRdI2c :
    let t := after (exec (.busRdI2c 0x1F 2) (answers [.ok [0xAB, 0xCD]] { onI2c with lock := .host }))
    t.xfer = .ok [0xAB, 0xCD] ∧ t.env.hist = [⟨⟨.i2c, [0x1F], 2⟩, .ok [0xAB, 0xCD]⟩] := by decide +kernel

/-- V-FRM-5, SPI: the dummy byte is discarded. -/
theorem test_busRdSpi :
    let t := after (exec (.busRdSpi 0x1D 1) (answers [.ok [0xEE, 0x80]] { onI2c with bus := .spi, lock := .host }))
    t.xfer = .ok [0x80] ∧ t.env.hist = [⟨⟨.spi, [0x9D, 0x00], 2⟩, .ok [0xEE, 0x80]⟩] := by decide +kernel

/-- V-FRM-7, I2C, with a bus error. -/
theorem test_busWrI2c (e : BusErr) :
    let t := after (exec (.busWrI2c [(0x74, 0x35)]) (answers [.err e] { onI2c with lock := .host }))
    t.xfer = .err e ∧ t.buserr = e ∧ t.env.hist = [⟨⟨.i2c, [0x74, 0x35], 0⟩, .err e⟩] := ⟨rfl, rfl, rfl⟩

/-- V-FRM-9, SPI: bit 7 of the address is cleared. -/
theorem test_busWrSpi :
    (memWriteFrame [(0xF4, 0x01)] { onI2c with bus := .spi }).out = [0x74, 0x01] ∧
    (after (exec (.busWrSpi [(0x74, 0x01)]) (answers [.ok []]
      { onI2c with bus := .spi, lock := .host }))).xfer = .ok [] := by decide +kernel

/-! Witnesses: for every statement with hypotheses, a concrete state and operands that meet them together. -/

theorem witness_DecodeOfEncode : (Instr.init 5 5 5 7).wf = true ∧ (Instr.busRdI2c 0xFF 1).wf = true ∧
    (Instr.busRdSpi 0x7F 129).wf = true ∧ (Instr.busWrSpi [(0x7F, 0xFF)]).wf = true := by decide

theorem witness_EncodeOfDecode : decode 0 (.cmd 0x000F6D01) = .ok (.init 5 5 5 7) ∧
    decode 0 (.cons 0x01) = .ok .take ∧ decode 0 (.bus ⟨.spi, [0xFF, 0x00], 2⟩) = .ok (.busRdSpi 0x7F 1) := by
  decide

theorem witness_IllegalCommandWords : (word 0x00100001 onI2c).cmdBusy = false ∧
    (word 0x00100001 onI2c).env.cmdIn = [0x00100001] ∧
    decodeCmd 0x00100001 = .error .mustBeZero := by decide

theorem witness_ConsumerWords :
    (consumes [0x02] onI2c).env.consIn = [0x02] ∧ (consumes [0x02] onI2c).consReq = none ∧
    (consumes [0x02] taking).env.consIn = [0x02] ∧ (consumes [0x02] taking).consReq = some 0x01 ∧
    (0x02#8 ≠ 0x01#8) := by decide

theorem witness_StepRuns_word : nextEvent (choose .host (word 5 onI2c)) = .host ∧
    (choose .host (word 5 onI2c)).cmdBusy = false ∧ (choose .host (word 5 onI2c)).env.cmdIn = [5] ∧
    decodeCmd 5 = .ok .status := by decide

theorem witness_StepRuns_busy : nextEvent (choose .host sensing) = .host ∧
    (choose .host sensing).cmdBusy = true ∧ decodeCmd (choose .host sensing).cmd = .ok .sense := by decide

theorem witness_StepRuns_consumer :
    let s := choose .consumer onI2c
    let s1 := { s with env := { s.env with consIn := [0x01] } }
    let s2 := { s with consReq := some 0x01 }
    nextEvent s1 = .consumer ∧ s1.consReq = none ∧ s1.env.consIn = [0x01] ∧
      nextEvent s2 = .consumer ∧ s2.consReq = some 0x01 ∧ s2.env.consIn = [] ∧
      decodeCons 0x01 = .ok .take := by decide

theorem witness_StepRuns_frame :
    let s := choose .busPort onI2c
    let s1 := { s with env := { s.env with frameIn := [⟨.i2c, [0xFF], 1⟩] } }
    nextEvent s1 = .busPort ∧ s1.env.frameIn = [⟨.i2c, [0xFF], 1⟩] ∧
      decodeFrame s1.par.spiFill ⟨.i2c, [0xFF], 1⟩ = .ok (.busRdI2c 0xFF 1) := by decide

theorem witness_PlacedInstruction : (Instr.start 0xFFFFFF).wf = true ∧ (Instr.init 5 5 5 7).wf = true := by decide

theorem witness_StatusByteFlags : Config.params.measuringBit = 5 ∧ Config.params.newdataBit = 7 ∧
    Config.params.newdataPol = .high ∧ ({ Config.params with newdataPol := .low } : Params).newdataPol = .low ∧
    (0xFF#8).toNat / 32 % 2 = (0xA0#8).toNat / 32 % 2 ∧ (0xFF#8).toNat / 128 = (0xA0#8).toNat / 128 := by decide

theorem witness_CalibrationUnused : ∀ i, i < 23 → i ∉ [3, 9, 16, 17] →
    byteAt (List.replicate 23 0) i = byteAt ((List.range 23).map fun k => if k ∈ [3, 9, 16, 17] then 0xFF else 0) i := by
  decide +kernel

theorem witness_RawSampleAssembly : ([0x12, 0x34, 0x5F, 0xAB, 0xCD, 0xE0, 0x9A, 0xBC] : List Byte).length = 8 := by
  decide

theorem witness_Arithmetic : isFinite (lit 1) = true ∧ isFinite (lit 3) = true ∧ isZero (lit 3) = false ∧
    isFinite (fAdd (lit 1) (lit 3)) = true ∧ isFinite (fSub (lit 1) (lit 3)) = true ∧
    isFinite (fMul (lit 1) (lit 3)) = true ∧ isFinite (fDiv (lit 1) (lit 3)) = true := by decide +kernel

theorem witness_TempZeroSigns : (419248#20).toNat = 16 * exampleCal.t1.toNat ∧ (0#20).toNat = 16 * calZero.t1.toNat ∧
    (1048560#20).toNat = 16 * ({ calZero with t1 := 65535 } : Cal).t1.toNat := by decide

theorem witness_HumidityClamp : fLt (lit 100) (lit 101) = true ∧ fLt (fOfInt (-1)) (fZero false) = true ∧
    fLt (lit 100) (lit 100) = false ∧ fLt (lit 100) (fZero false) = false := by decide +kernel

/-- A denominator below 1, one that is not, and one that is 0 with the guard off. -/
theorem witness_PressureGuard :
    let v1 := pressDenom 0x40FF421E416C0000 { exampleCal with p1 := 0 }
    let v2 := pressDenom 0x40FF421E416C0000 exampleCal
    Config.params.pform = .boschF64 ∧ Config.params.pguard = true ∧ Config.params.pdiv = 1 ∧
      (isFinite v1 = true ∧ |fVal v1| < 1) ∧ ¬ (isFinite v2 = true ∧ |fVal v2| < 1) ∧ isZero v1 = true ∧
      ({ Config.params with pguard := false } : Params).pguard = false ∧
      ({ Config.params with pdiv := 100 } : Params).pdiv ≠ 0 :=
  ⟨by decide, by decide, by decide, (truncIsZero_iff _).mp (by decide +kernel),
    fun h => absurd ((truncIsZero_iff _).mpr h) (by decide +kernel), by decide +kernel, by decide, by decide⟩

/-- V-P-8: with the guard off and p1 = 0 the result is a NaN. -/
theorem test_guard_off : isNaN (press { Config.params with pguard := false } 350000 0x40FF421E416C0000
    { exampleCal with p1 := 0 }) = true := by decide +kernel

theorem witness_Comp : ready.life = .ready ∧ ready.tfineV = false ∧
    ({ ready with tfineV := true } : State).tfineV = true ∧ onI2c.life ≠ .ready := by decide

theorem witness_InitSucceeds :
    let s := answers [.ok [0x61], .ok [0x01], .ok win1, .ok win2] onI2c
    s.life ≠ .ready ∧ s.hphase = .entry ∧ cfgInvalid ⟨3, 3, 3, 2⟩ = false ∧ s.par.readsInRange = true ∧
      win1.length = s.par.lenCal1 ∧ win2.length = s.par.lenCal2 ∧ 0x61 = s.par.chipId ∧ 0x01 ∈ s.par.variants ∧
      s.env.busIn = [.ok (inFrame s.bus 0 [0x61]), .ok (inFrame s.bus 0 [0x01]), .ok (inFrame s.bus 0 win1),
        .ok (inFrame s.bus 0 win2)] := by decide +kernel

theorem witness_InitCommits :
    let s := answers [.ok win2] { initing with hphase := .initCal2 0x00 win1 }
    s.hphase = .initCal2 0x00 win1 ∧ readInRange s.par.regCal2.toNat s.par.lenCal2 = true ∧
      answerOf (memReadFrame s.par.regCal2 s.par.lenCal2 s) s = .ok win2 := by decide +kernel

theorem witness_InitRefusesInvalidConfig : onI2c.life ≠ .ready ∧ onI2c.hphase = .entry ∧
    ((0 : BitVec 3) = 0 ∧ ((1 : BitVec 3) ≠ 0 ∨ (0 : BitVec 3) ≠ 0)) ∧
    ((1 : BitVec 3) ≠ 0 ∨ ((0 : BitVec 3) = 0 ∧ (0 : BitVec 3) = 0)) := by decide

theorem witness_InitRefusesUnsupportedDevice :
    let s := answers [.ok [0x60]] initing
    let s1 := answers [.ok [0x02]] { initing with hphase := .initVariant }
    (s.hphase = .initChip ∧ readInRange s.par.regChipId.toNat 1 = true ∧
      answerOf (memReadFrame s.par.regChipId 1 s) s = .ok [0x60] ∧ byteAt [0x60] 0 ≠ s.par.chipId ∧
      byteAt [0x61] 0 = s.par.chipId) ∧
    (s1.hphase = .initVariant ∧ readInRange s1.par.regVariant.toNat 1 = true ∧
      answerOf (memReadFrame s1.par.regVariant 1 s1) s1 = .ok [0x02] ∧ byteAt [0x02] 0 ∉ s1.par.variants ∧
      byteAt [0x01] 0 ∈ s1.par.variants) := by decide +kernel

theorem witness_InitAborts :
    let e := fun p => answers [.err .base] { initing with hphase := p }
    (∀ p ∈ [HostPhase.initChip, .initVariant, .initCal1 0, .initCal2 0 win1], (e p).hphase = p ∧
      answerOf (memReadFrame 0xD0 1 (e p)) (e p) = .err .base ∧ answerOf (memReadFrame 0xF0 1 (e p)) (e p) = .err .base ∧
      answerOf (memReadFrame 0x8A 23 (e p)) (e p) = .err .base ∧
      answerOf (memReadFrame 0xE1 14 (e p)) (e p) = .err .base) ∧
    Config.params.regChipId = 0xD0 ∧ Config.params.regVariant = 0xF0 ∧ Config.params.regCal1 = 0x8A ∧
    Config.params.regCal2 = 0xE1 ∧ Config.params.lenCal1 = 23 ∧ Config.params.lenCal2 = 14 ∧ readInRange 0xD0 1 = true ∧ readInRange 0xF0 1 = true ∧
    readInRange 0x8A 23 = true ∧ readInRange 0xE1 14 = true := by decide +kernel

theorem witness_InitOnlyOnce : ready.hphase = .entry ∧ ready.life = .ready ∧
    ({ onI2c with life := .failed } : State).hphase = .entry ∧
    ({ onI2c with life := .failed } : State).life = .failed ∧ cfgInvalid ⟨0, 0, 0, 7⟩ = false := by decide

theorem witness_SenseRefused : running.hphase = .entry ∧ running.life = .ready ∧ running.sActive = true := by decide

theorem witness_SenseTakesTheLock : onI2c.hphase = .entry ∧ onI2c.life ≠ .ready ∧ ready.hphase = .entry ∧
    ready.life = .ready ∧ ready.sActive = false ∧ ready.lock = .free ∧
    ({ ready with lock := .sampler } : State).lock ≠ .free := by decide

theorem witness_SenseReturns :
    let s := answers [.ok block] { sensing with seq := .dataReady }
    s.hphase = .senseCycle ∧ s.lock = .host ∧ s.seq = .dataReady ∧ readInRange s.par.regData.toNat s.par.lenData = true ∧
      answerOf (memReadFrame s.par.regData s.par.lenData s) s = .ok block := by decide +kernel

theorem witness_SenseRuns :
    let s := answers [.ok [], .ok [0xA0], .ok [0xA0], .ok [0x80], .ok block] { ready with cmdBusy := true, cmd := 2 }
    s.hphase = .entry ∧ s.life = .ready ∧ s.sActive = false ∧ s.lock = .free ∧ s.seq = .sleep ∧ s.cmdBusy = true ∧
      decodeCmd s.cmd = .ok .sense ∧ s.par.readsInRange = true ∧
      ([((0 : Byte), (0xA0 : Byte)), (0, 0xA0)].all fun q => !pollDone s.par q.2) = true ∧
      pollDone s.par 0x80 = true ∧ block.length = s.par.lenData ∧
      s.env.busIn = .ok [] :: ([((0 : Byte), (0xA0 : Byte)), (0, 0xA0)].map fun q => .ok (inFrame s.bus q.1 [q.2])) ++
        .ok (inFrame s.bus 0 [0x80]) :: .ok (inFrame s.bus 0 block) :: [] := by decide +kernel

theorem witness_CycleGoesOn :
    let s := answers [.ok []] sensing
    let s2 := answers [.ok [0x80]] { sensing with seq := .polling }
    s.lock = .host ∧ s.seq = .sleep ∧ answerOf (memWriteFrame (triggerPairs s.par s.cfg) s) s = .ok [] ∧
      ({ sensing with seq := .triggered } : State).seq = .triggered ∧
      s2.seq = .polling ∧ s2.pwait = false ∧ readInRange s2.par.regStatus.toNat 1 = true ∧
      answerOf (memReadFrame s2.par.regStatus 1 s2) s2 = .ok [0x80] ∧ pollDone s2.par (byteAt [0x80] 0) = true ∧
      pollDone s2.par (byteAt [0xA0] 0) = false ∧
      ({ sensing with seq := .polling, pwait := true } : State).pwait = true := by decide +kernel

theorem witness_CycleAborts :
    let h := fun q => answers [.err .base] { sensing with seq := q }
    let m := fun q => answers [.err .base] { sampling with seq := q, sCancel := true }
    (∀ q ∈ [Seq.sleep, .polling, .dataReady],
      ((h q).seq = q ∧ (h q).pwait = false ∧ (h q).hphase = .senseCycle ∧ (h q).lock = .host ∧
        answerOf (memWriteFrame (triggerPairs (h q).par (h q).cfg) (h q)) (h q) = .err .base ∧
        answerOf (memReadFrame (h q).par.regStatus 1 (h q)) (h q) = .err .base ∧
        answerOf (memReadFrame (h q).par.regData (h q).par.lenData (h q)) (h q) = .err .base) ∧
      ((m q).seq = q ∧ (m q).pwait = false ∧ (m q).sPhase = .measuring ∧ (m q).lock = .sampler ∧
        answerOf (memWriteFrame (triggerPairs (m q).par (m q).cfg) (m q)) (m q) = .err .base ∧
        answerOf (memReadFrame (m q).par.regStatus 1 (m q)) (m q) = .err .base ∧
        answerOf (memReadFrame (m q).par.regData (m q).par.lenData (m q)) (m q) = .err .base)) ∧
    readInRange Config.params.regStatus.toNat 1 = true ∧ readInRange Config.params.regData.toNat Config.params.lenData = true := by
  decide +kernel

theorem witness_SequencerTransitions :
    ∃ t, step (choose .host (answers [.ok []] sensing)) = .next t ∧ t.seq = .triggered :=
  ⟨_, next_of_isNext (by decide +kernel), by decide +kernel⟩

theorem witness_SamplerSteps :
    (running.sPhase = .measuring ∧ running.lock ≠ .sampler ∧ running.lock = .free ∧ running.sCancel = false) ∧
    ({ running with sCancel := true } : State).sCancel = true ∧ ({ running with lock := .host } : State).lock = .host ∧
    (let s := answers [.ok block] { sampling with seq := .dataReady };
      s.sPhase = .measuring ∧ s.lock = .sampler ∧ s.seq = .dataReady ∧
        readInRange s.par.regData.toNat s.par.lenData = true ∧ answerOf (memReadFrame s.par.regData s.par.lenData s) s = .ok block) ∧
    (sampling.sPhase = .measuring ∧ sampling.lock = .sampler ∧
      cycleStep .sampler { sampling with seq := .triggered } = .run { sampling with seq := .polling } ∧
      cycleStep .sampler (answers [.err .base] sampling) = .abort 0x10 .base (abortCycle (abortTransport .base
        (recordTxn (memWriteFrame (triggerPairs sampling.par sampling.cfg) sampling)
          (answers [.err .base] sampling))))) ∧
    (publishing.sPhase = .publishing ∧ publishing.mbox = none ∧ publishing.sCancel = false) ∧
    (let s := { publishing with sCancel := true, mbox := some sample };
      s.sPhase = .publishing ∧ s.sCancel = true ∧ s.mbox ≠ none) ∧
    (let s := { publishing with mbox := some sample };
      s.sPhase = .publishing ∧ s.sCancel = false ∧ s.mbox ≠ none) ∧
    (let s := { publishing with sCancel := true };
      s.sPhase = .publishing ∧ s.mbox = none ∧ s.sCancel = true) ∧
    (stopping.sPhase = .waiting ∧ stopping.sCancel = true) ∧
    (let s := { stopping with sCancel := false };
      s.sPhase = .waiting ∧ s.sCancel = false) ∧ ready.sPhase = .idle :=
  ⟨by decide, by decide, by decide, by decide +kernel, ⟨by decide, by decide, rfl, rfl⟩, by decide, by decide,
    by decide, by decide, by decide, by decide, by decide⟩

theorem witness_Start : ready.hphase = .entry ∧ ready.life = .ready ∧ ready.sActive = false ∧ onI2c.life ≠ .ready ∧
    running.hphase = .entry ∧ running.life = .ready ∧ running.sActive = true ∧
    ({ running with hphase := .startWait } : State).sActive = true ∧
    ({ ready with hphase := .startWait } : State).hphase = .startWait ∧
    ({ ready with hphase := .startWait } : State).sActive = false := by decide

theorem witness_Stop : onI2c.hphase = .entry ∧ onI2c.sActive = false ∧ running.hphase = .entry ∧
    running.sActive = true ∧ ({ running with hphase := .stopWait } : State).hphase = .stopWait ∧
    ({ ready with hphase := .stopWait } : State).sActive = false ∧
    (let s := { stopping with sCancel := false, cmdBusy := true, cmd := 4 };
      s.hphase = .entry ∧ s.cmdBusy = true ∧ decodeCmd s.cmd = .ok .stop ∧ s.sActive = true ∧
        s.sPhase = .waiting) := by decide

/-- A READY block without a command keeps the invariant whatever phase its sampler is in. -/
theorem inv_of (s : State) (h1 : s.sPhase = .idle ↔ s.sActive = false) (h2 : s.sPending.isSome = true ↔ s.sPhase = .publishing)
    (h3 : s.sCancel = true → s.sActive = true) (h4 : s.life = .ready) (h5 : cfgOk s.cfg = true)
    (h6 : s.lock = .free) (h7 : s.seq = .sleep) (h8 : s.pwait = false) (h9 : s.hphase = .entry) : Inv s where
  idle_iff := h1
  sleep_of_free := fun _ => h7
  polling_of_wait := fun h => by rw [h8] at h; cases h
  measuring_of_lock := fun h => by rw [h6] at h; cases h
  host_iff := by rw [h6, h9]; decide
  inactive_of_sense := fun h => by rw [h9] at h; cases h
  ready_of_lock := fun _ => h4
  ready_of_active := fun _ => h4
  active_of_cancel := h3
  pending_iff := h2
  ready_of_tfine := fun _ => h4
  cfg_of_ready := fun _ => h5
  unready_of_init := fun h => by rw [h9] at h; cases h
  ready_of_start := fun _ => h4
  place := fun h => absurd h9 h
  polled_of_data := fun h => by rw [h7] at h; cases h

theorem witness_EveryStepKeeps : ∃ s t, Inv s ∧ step s = .next t ∧ t.lock = .sampler :=
  ⟨choose (.sampler false) running, _, inv_of _ (by decide) (by decide) (by decide) (by decide) (by decide) (by decide)
    (by decide) (by decide) (by decide), next_of_isNext (by decide +kernel), by decide +kernel⟩

theorem witness_RunEndsCleanly : ∃ s t, Inv s ∧ step s = .next t ∧ s.sActive = true ∧ t.sActive = false :=
  ⟨choose (.sampler false) stopping, _, inv_of _ (by decide) (by decide) (by decide) (by decide) (by decide) (by decide)
    (by decide) (by decide) (by decide), next_of_isNext (by decide +kernel), by decide, by decide +kernel⟩

theorem witness_StopNeverWaits_publishing : ∃ s t, Inv s ∧ s.sCancel = true ∧ s.sPhase = .publishing ∧
    step s = .next t ∧ t.sPhase = .waiting :=
  ⟨choose (.sampler false) { publishing with sCancel := true }, _, inv_of _ (by decide) (by decide) (by decide)
    (by decide) (by decide) (by decide) (by decide) (by decide) (by decide), by decide, by decide,
    next_of_isNext (by decide +kernel), by decide +kernel⟩

theorem witness_StopNeverWaits_waiting : ∃ s t, s.sCancel = true ∧ s.sPhase = .waiting ∧
    samplerStep false s = .next t :=
  ⟨stopping, _, by decide, by decide, next_of_isNext (by decide +kernel)⟩

/-- A block whose ports wait with nothing and whose sampler has no step but the end of a stopped run. -/
def quiet (s : State) : Prop :=
  s.cmdBusy = false ∧ s.env.cmdIn = [] ∧ s.consReq = none ∧ s.env.consIn = [] ∧ s.env.frameIn = [] ∧
    (s.sPhase = .idle ∨ (s.sPhase = .waiting ∧ s.sCancel = true))

theorem quiet_step {s : State} (h : quiet s) : isNext (step s) = true ∧ quiet (after (step s)) := by
  obtain ⟨h1, h2, h3, h4, h5, h6⟩ : quiet (advance s) := h
  unfold step
  generalize advance s = s at *
  cases nextEvent _ with
  | host => simp [agentStep, hostStep, h1, h2, isNext, after, quiet, h3, h4, h5, h6]
  | sampler a =>
    obtain h6 | ⟨h6, h7⟩ := h6
    · simp [agentStep, samplerStep, isNext, after, quiet, h1, h2, h3, h4, h5, h6]
    · simp [agentStep, samplerStep, isNext, after, quiet, h1, h2, h3, h4, h5, h6, h7, terminateWaiting]
  | consumer => simp [agentStep, consumerStep, isNext, after, quiet, h1, h2, h3, h4, h5, h6]
  | pollTimer =>
    simp only [agentStep, pollTimerStep, isNext, after]
    split <;> exact ⟨trivial, h1, h2, h3, h4, h5, h6⟩
  | intervalTimer =>
    simp only [agentStep, intervalTimerStep, isNext, after]
    split
    · obtain h6 | ⟨_, h7⟩ := h6 <;> simp_all
    · exact ⟨trivial, h1, h2, h3, h4, h5, h6⟩
  | busPort => simp [agentStep, busStep, h5, isNext, after, quiet, h1, h2, h3, h4, h6]

/-- The run of the machine from a state. -/
def runFrom (s : State) : Nat → State
  | 0     => s
  | n + 1 => after (step (runFrom s n))

theorem isRun_of_quiet {s : State} (h : quiet s) : IsRun (runFrom s) := fun n =>
  have hq : ∀ n, quiet (runFrom s n) := fun n => by
    induction n with
    | zero => exact h
    | succ n ih => exact (quiet_step ih).2
  next_of_isNext (quiet_step (hq n)).1

/-- A run that begins inside an inter-poll delay. -/
theorem witness_EveryDelayEnds_poll : ∃ r, IsRun r ∧ (r 0).seq = .polling ∧ (r 0).pwait = true :=
  ⟨runFrom { onI2c with seq := .polling, pwait := true }, isRun_of_quiet (by unfold quiet; decide), rfl, rfl⟩

/-- A run that begins in WAITING, with a stop request. -/
theorem witness_StopNeverWaits_run : ∃ r, IsRun r ∧ Inv (r 0) ∧ (r 0).sCancel = true ∧ (r 0).sPhase = .waiting :=
  ⟨runFrom stopping, isRun_of_quiet (by unfold quiet; decide), inv_of _ (by decide) (by decide) (by decide) (by decide)
    (by decide) (by decide) (by decide) (by decide) (by decide), rfl, rfl⟩

theorem witness_RunsAreWeaklyFair : ∃ r, IsRun r := ⟨runFrom onI2c, isRun_of_quiet (by unfold quiet; decide)⟩

theorem witness_TakeCases : ({ running with mbox := some sample } : State).mbox = some sample ∧ running.mbox = none ∧
    running.sActive = true ∧ ready.mbox = none ∧ ready.sActive = false ∧ ready.sErr = none ∧
    ({ ready with sErr := some ⟨.transportError, 0x12, .base⟩ } : State).sErr = some ⟨.transportError, 0x12, .base⟩ := by
  decide

theorem witness_Mailbox_full :
    ∃ s t m, step s = .next t ∧ s.mbox = some m ∧ t.mbox = none :=
  ⟨choose .consumer { running with mbox := some sample, consReq := some 0x01 }, _, sample,
    next_of_isNext (by decide +kernel), by decide, by decide +kernel⟩

theorem witness_Mailbox_empty : ∃ s t, step s = .next t ∧ s.mbox = none ∧ t.mbox = some sample :=
  ⟨choose (.sampler false) publishing, _, next_of_isNext (by decide +kernel), by decide, by decide +kernel⟩

theorem witness_I2cReadFrame :
    let s := answers [.ok [0xAB]] { onI2c with lock := .host }
    1 ≤ 1 ∧ (0xFF : Byte).toNat + 1 ≤ 256 ∧ s.bus = .i2c ∧ mayEmit s = true ∧
      answerOf ⟨.i2c, [0xFF], 1⟩ s = .ok [0xAB] ∧
      answerOf ⟨.i2c, [0xFF], 1⟩ (answers [.err .base] s) = .err .base := by decide +kernel

theorem witness_SpiReadFrame :
    let s := answers [.ok [0, 0xAB]] { onI2c with bus := .spi, lock := .sampler }
    (0x7F : BitVec 7).toNat + 129 ≤ 256 ∧ (0x7F : BitVec 7).toNat + 1 ≤ 256 ∧ s.bus = .spi ∧ mayEmit s = true ∧
      answerOf ⟨.spi, [0xFF, 0x00], 2⟩ s = .ok [0, 0xAB] ∧
      answerOf ⟨.spi, [0xFF, 0x00], 2⟩ (answers [.err .base] s) = .err .base := by decide +kernel

theorem witness_WriteFrames :
    let s := answers [.ok []] { onI2c with hphase := .initChip }
    let s2 := answers [.ok []] { onI2c with bus := .spi, lock := .host }
    s.bus = .i2c ∧ mayEmit s = true ∧ answerOf ⟨.i2c, [0xFF, 0x01], 0⟩ s = .ok [] ∧
      answerOf ⟨.i2c, [0xFF, 0x01], 0⟩ (answers [.err .base] s) = .err .base ∧
      s2.bus = .spi ∧ mayEmit s2 = true ∧ answerOf ⟨.spi, [0x7F, 0x01], 0⟩ s2 = .ok [] ∧
      answerOf ⟨.spi, [0x7F, 0x01], 0⟩ (answers [.err .base] s2) = .err .base ∧
      (0x7F : Byte).toNat < 128 := by decide +kernel

theorem witness_TransportFaults :
    ((0xFF : Byte).toNat + 2 > 256 ∧ (0x7F : BitVec 7).toNat + 130 > 256) ∧
    ((0xFF : Byte).toNat + 1 ≤ 256 ∧ (0x7F : BitVec 7).toNat + 129 ≤ 256 ∧ onI2c.bus = .i2c ∧ mayEmit onI2c = false ∧
      ({ onI2c with bus := .spi } : State).bus = .spi ∧ mayEmit { onI2c with bus := .spi } = false) ∧
    (({ sensing with lock := .free } : State).hphase = .senseCycle ∧
      ({ sensing with lock := .free } : State).lock ≠ .host) ∧
    (let s := { sensing with seq := .dataReady, par := { Config.params with regData := 0xF9 } };
      s.hphase = .senseCycle ∧ s.lock = .host ∧ s.seq = .dataReady ∧ s.par.regData.toNat + s.par.lenData > 256) ∧
    (let s := { initing with hphase := .initCal1 0, par := { Config.params with regCal1 := 0xEA } };
      s.hphase = .initCal1 0 ∧ s.par.regCal1.toNat + s.par.lenCal1 > 256) ∧
    (let s := { initing with hphase := .initCal2 0 win1, par := { Config.params with regCal2 := 0xF3 } };
      s.hphase = .initCal2 0 win1 ∧ s.par.regCal2.toNat + s.par.lenCal2 > 256) ∧
    ({ Config.params with lenData := 0 } : Params).lenData = 0 := by decide +kernel

theorem witness_NoFault : Inv ready ∧ ready.par.readsInRange = true ∧ ready.env.frameIn = [] :=
  ⟨inv_of _ (by decide) (by decide) (by decide) (by decide) (by decide) (by decide) (by decide) (by decide) (by decide),
    by decide +kernel, by decide⟩

theorem witness_OneOwner : ∃ s t, step s = .next t ∧ t.env.hist ≠ s.env.hist :=
  ⟨choose (.sampler false) (answers [.ok []] sampling), _, next_of_isNext (by decide +kernel), by decide +kernel⟩

theorem witness_Immutable : ∃ s t, step s = .next t ∧ Inv s ∧ s.life = .ready :=
  ⟨choose .intervalTimer { stopping with sCancel := false }, _, next_of_isNext (by decide +kernel),
    inv_of _ (by decide) (by decide) (by decide) (by decide) (by decide) (by decide) (by decide) (by decide) (by decide),
    by decide⟩

end Sys2Proof.Tests
end

section
/-! PROOF. The status byte (R94) and the STATUS word (R96): which bits the flags and the poll predicate read, and
each field of the word as a number. -/

namespace Sys2Proof.Machine

/-! ## The status byte -/

theorem measuring_eq_bit5 {par : Params} (h : par.measuringBit = 5) (st : Byte) :
    measuring par st = decide (st.toNat / 32 % 2 = 1) := by
  rw [measuring, h]
  exact getLsbD_eq st 5

/-- Bit 7 is the top bit of the byte, so the quotient by 128 is the bit itself. -/
theorem getLsbD_seven_eq (st : Byte) : st.getLsbD 7 = decide (st.toNat / 128 = 1) := by
  have hst := st.isLt
  rw [getLsbD_eq, decide_eq_decide]
  omega

theorem newdata_high_eq_bit7 {par : Params} (h : par.newdataBit = 7) (hpol : par.newdataPol = .high) (st : Byte) :
    newdata par st = decide (st.toNat / 128 = 1) := by
  simp only [newdata, hpol, h, getLsbD_seven_eq]

theorem newdata_low_eq_not_bit7 {par : Params} (h : par.newdataBit = 7) (hpol : par.newdataPol = .low) (st : Byte) :
    newdata par st = decide (st.toNat / 128 = 0) := by
  have hst := st.isLt
  simp only [newdata, hpol, h, getLsbD_seven_eq]
  rw [← decide_not, decide_eq_decide]
  omega

theorem newdata_congr {par : Params} (h : par.newdataBit = 7) {st st' : Byte}
    (h7 : st.toNat / 128 = st'.toNat / 128) : newdata par st = newdata par st' := by
  cases hpol : par.newdataPol with
  | high => rw [newdata_high_eq_bit7 h hpol, newdata_high_eq_bit7 h hpol, h7]
  | low => rw [newdata_low_eq_not_bit7 h hpol, newdata_low_eq_not_bit7 h hpol, h7]

/-- The poll predicate reads the status byte through its two flags only (R194). -/
theorem pollDone_congr {par : Params} {st st' : Byte} (hm : measuring par st = measuring par st')
    (hn : newdata par st = newdata par st') : pollDone par st = pollDone par st' := by
  rw [pollDone, pollDone, hm, hn]

/-- Settles O9: each flag is its bit as a number, and the poll predicate depends on the flags alone. -/
theorem statusByteFlags : Obligations.StatusByteFlags := by
  intro par h5 h7 st
  refine ⟨measuring_eq_bit5 h5 st, fun hpol => newdata_high_eq_bit7 h7 hpol st,
    fun hpol => newdata_low_eq_not_bit7 h7 hpol st, fun st' hbit5 hbit7 => ?_⟩
  have hm : measuring par st = measuring par st' := by
    rw [measuring_eq_bit5 h5, measuring_eq_bit5 h5, hbit5]
  exact pollDone_congr hm (newdata_congr h7 hbit7)

/-! ## The STATUS word -/

/-- The fields of the STATUS word do not overlap: each range of bits gives back the field put there. -/
theorem statWord_fields (s : State) :
    (statWord s).toNat % 4 = (lifeBits s.life).toNat ∧
    (statWord s).toNat / 2 ^ 2 % 4 = (seqBits s.seq).toNat ∧
    (statWord s).toNat / 2 ^ 4 % 4 = (phaseBits s.sPhase).toNat ∧
    (statWord s).toNat / 2 ^ 6 % 2 = (BitVec.ofBool s.sActive).toNat ∧
    (statWord s).toNat / 2 ^ 7 % 2 = (BitVec.ofBool s.mbox.isSome).toNat ∧
    (statWord s).toNat / 2 ^ 8 % 2 = (devModeBit s.devmode).toNat ∧
    (statWord s).toNat / 2 ^ 9 % 2 = (BitVec.ofBool s.sErr.isSome).toNat ∧
    (statWord s).toNat / 2 ^ 10 % 2 ^ 6 = 0 ∧
    (statWord s).toNat / 2 ^ 16 % 2 ^ 8 = (sErrCode s.sErr).toNat ∧
    (statWord s).toNat / 2 ^ 24 = 0 := by
  have hlife := (lifeBits s.life).isLt
  have hseq := (seqBits s.seq).isLt
  have hphase := (phaseBits s.sPhase).isLt
  have hactive := (BitVec.ofBool s.sActive).isLt
  have hmbox := (BitVec.ofBool s.mbox.isSome).isLt
  have hdev := (devModeBit s.devmode).isLt
  have herr := (BitVec.ofBool s.sErr.isSome).isLt
  have hcode := (sErrCode s.sErr).isLt
  rw [statWord_toNat]
  refine ⟨?_, ?_, ?_, ?_, ?_, ?_, ?_, ?_, ?_, ?_⟩ <;> omega

theorem toNat_ofBool_eq_ite (b : Bool) : (BitVec.ofBool b).toNat = if b then 1 else 0 := by
  cases b <;> rfl

/-- Settles O11: the fields stand apart in the word, and each field's bits are the rule's number. -/
theorem statusWordFields : Obligations.StatusWordFields := by
  intro s
  obtain ⟨hlife, hseq, hphase, hactive, hmbox, hdev, herr, hzero, hcode, htop⟩ := statWord_fields s
  rw [hlife, hseq, hphase, hactive, hmbox, hdev, herr, hzero, hcode, htop]
  refine ⟨?life, ?seq, ?phase, toNat_ofBool_eq_ite _, toNat_ofBool_eq_ite _, ?dev, toNat_ofBool_eq_ite _, rfl,
    ?code, rfl⟩
  case life => cases s.life <;> rfl
  case seq => cases s.seq <;> rfl
  case phase => cases s.sPhase <;> rfl
  case dev => cases s.devmode <;> rfl
  case code => cases s.sErr <;> rfl

end Sys2Proof.Machine
end

section
/-! PROOF. The calibration coefficients (R132) and the raw values of a data block (R140 to R142): each operand form
as the number the pseudocode gives, then every coefficient and raw value by its form. -/

namespace Sys2Proof.Machine

/-! ## The operand forms as numbers -/

theorem byte_toInt (b : Byte) : b.toInt = sextNat 8 b.toNat := toInt_eq_sextNat b (by decide)

theorem le16_toInt (lo hi : Byte) : (le16 lo hi).toInt = sextNat 16 (lo.toNat + 256 * hi.toNat) := by
  rw [toInt_eq_sextNat _ (by decide), le16_toNat]

/-- A byte's high nibble, as R132 takes it for `h2`. -/
theorem nibble12_high_toNat (hi lo : Byte) :
    (nibble12 hi (lo.extractLsb 7 4)).toNat = 16 * hi.toNat + lo.toNat / 16 := by
  have hlo := lo.isLt
  rw [nibble12_toNat, toNat_extract_eq]
  omega

/-- A byte's low nibble, as R132 takes it for `h1`. -/
theorem nibble12_low_toNat (hi lo : Byte) :
    (nibble12 hi (lo.extractLsb 3 0)).toNat = 16 * hi.toNat + lo.toNat % 16 := by
  rw [nibble12_toNat, toNat_extract_eq]
  omega

/-! ## The calibration coefficients -/

/-- Settles O13: each coefficient is one of the operand forms of its window, and on the two corner cases and the
rule's example every byte is given, so that DECODE_CAL computes. -/
theorem decodeCalFormulas : Obligations.DecodeCalFormulas := by
  refine ⟨fun w1 w2 => ?formulas, ?zeros, ?ones, ?exampleWindows⟩
  case formulas =>
    exact
      ⟨-- window 1: t2, t3, p1 to p5, p7, p6, p8 to p10
        le16_toInt _ _, byte_toInt _, le16_toNat _ _, le16_toInt _ _, byte_toInt _, le16_toInt _ _, le16_toInt _ _,
        byte_toInt _, byte_toInt _, le16_toInt _ _, le16_toInt _ _, rfl,
        -- window 2: h2, h1, h3 to h7, t1, gh2, gh1, gh3
        nibble12_high_toNat _ _, nibble12_low_toNat _ _, byte_toInt _, byte_toInt _, byte_toInt _, rfl, byte_toInt _,
        le16_toNat _ _, le16_toInt _ _, byte_toInt _, byte_toInt _⟩
  case zeros => rfl
  case ones => rfl
  case exampleWindows => rfl

/-! ## The raw values of a data block -/

/-- Settles O15: the raw values are the 20-bit and the big-endian form of their bytes, and the rule's examples
compute. -/
theorem rawSampleAssembly : Obligations.RawSampleAssembly := by
  refine ⟨fun d => ⟨raw20_toNat _ _ _, raw20_toNat _ _ _, be16_toNat _ _⟩, ?typical, ?nibbles, ?ones⟩
  case typical => rintro d rfl; exact ⟨rfl, rfl, rfl⟩
  case nibbles => rintro d rfl; exact ⟨rfl, rfl, rfl⟩
  case ones => rintro d rfl; exact ⟨rfl, rfl, rfl⟩

end Sys2Proof.Machine
end

section
/-! PROOF. The humidity clamp (R166): the IEEE comparison is a strict order on the values that are no NaN, neither a
literal nor a zero is below a zero, and CLAMP_H by its three branches. -/

namespace Sys2Proof.Machine

/-! ## The IEEE comparison -/

theorem fLt_iff {x y : F64} : fLt x y = true ↔ isNaN x = false ∧ isNaN y = false ∧ fKey x < fKey y := by
  simp [fLt, and_assoc]

theorem fLt_eq_false_of_key_le {x y : F64} (h : fKey y ≤ fKey x) : fLt x y = false := by
  simp [fLt, h]

theorem fLt_irrefl (x : F64) : fLt x x = false := fLt_eq_false_of_key_le le_rfl

theorem fLt_trans {x y z : F64} (hxy : fLt x y = true) (hyz : fLt y z = true) : fLt x z = true := by
  obtain ⟨hx, -, hxy⟩ := fLt_iff.mp hxy
  obtain ⟨-, hz, hyz⟩ := fLt_iff.mp hyz
  exact fLt_iff.mpr ⟨hx, hz, hxy.trans hyz⟩

theorem fKey_fZero (s : Bool) : fKey (fZero s) = 0 := by cases s <;> decide

theorem fKey_lit_nonneg (n : Nat) : 0 ≤ fKey (lit n) := by
  have hsign : fSign (lit n) = false := by simp [lit, fOfInt_sign]
  simp [fKey, hsign]

/-- IEEE: −0 and +0 are equal, so neither is below the other. -/
theorem fZero_not_lt_fZero (s t : Bool) : fLt (fZero s) (fZero t) = false :=
  fLt_eq_false_of_key_le (by rw [fKey_fZero, fKey_fZero])

theorem lit_not_lt_fZero (n : Nat) (s : Bool) : fLt (lit n) (fZero s) = false :=
  fLt_eq_false_of_key_le (by rw [fKey_fZero]; exact fKey_lit_nonneg n)

/-- The two tests of CLAMP_H exclude each other, so their order does not matter. -/
theorem not_above_of_below_zero {x : F64} (h : fLt x (fZero false) = true) : fLt (lit 100) x = false := by
  refine Bool.eq_false_iff.mpr fun habove => ?_
  have hlit : fLt (lit 100) (fZero false) = true := fLt_trans habove h
  simp [lit_not_lt_fZero] at hlit

/-! ## The branches of CLAMP_H -/

theorem clampH_of_above {x : F64} (h : fLt (lit 100) x = true) : clampH x = lit 100 := by
  simp [clampH, h]

theorem clampH_of_below {x : F64} (h : fLt x (fZero false) = true) : clampH x = fZero false := by
  simp [clampH, h, not_above_of_below_zero h]

theorem clampH_of_within {x : F64} (hhi : fLt (lit 100) x = false) (hlo : fLt x (fZero false) = false) :
    clampH x = x := by
  simp [clampH, hhi, hlo]

/-- The result lies within the bounds, or is the NaN that was given: both comparisons are false for it. -/
theorem clampH_within (x : F64) : fLt (lit 100) (clampH x) = false ∧ fLt (clampH x) (fZero false) = false := by
  cases hhi : fLt (lit 100) x with
  | true =>
    rw [clampH_of_above hhi]
    exact ⟨fLt_irrefl _, lit_not_lt_fZero _ _⟩
  | false =>
    cases hlo : fLt x (fZero false) with
    | true =>
      rw [clampH_of_below hlo]
      exact ⟨lit_not_lt_fZero _ _, fLt_irrefl _⟩
    | false =>
      rw [clampH_of_within hhi hlo]
      exact ⟨hhi, hlo⟩

theorem clampH_fZero (s : Bool) : clampH (fZero s) = fZero s :=
  clampH_of_within (lit_not_lt_fZero _ _) (fZero_not_lt_fZero _ _)

/-- Settles O19: the branches of CLAMP_H, and the two zeros and 100.0 as values neither test moves. -/
theorem humidityClamp : Obligations.HumidityClamp := by
  refine ⟨fun _ => clampH_of_above, fun _ => clampH_of_below, fun _ => clampH_of_within, clampH_within,
    clampH_fZero true, clampH_fZero false, ?hundred⟩
  case hundred => exact clampH_of_within (fLt_irrefl _) (lit_not_lt_fZero _ _)

end Sys2Proof.Machine
end

section
/-! PROOF. SENSE (R186, R187): at its entry SENSE is its first step, and that step's test of S_ACTIVE ends the command
before LOCK is looked at. -/

namespace Sys2Proof.Machine

variable {s : State}

theorem exec_sense_of_entry (hp : s.hphase = .entry) : exec .sense s = .next (senseEntry s) := by
  simp only [exec, execSense, hp]

theorem senseEntry_of_active (hl : s.life = .ready) (ha : s.sActive = true) :
    senseEntry s = respondCode .alreadySampling s := by
  simp [senseEntry, hl, ha]

/-- Settles O32: the entry step answers the code, and an answer is the end of the command with that response. -/
theorem senseRefusedWhileSampling : Obligations.SenseRefusedWhileSampling := by
  intro s hp hl ha
  rw [exec_sense_of_entry hp, senseEntry_of_active hl ha, respondCode_eq_ended]

end Sys2Proof.Machine
end

section
/-! PROOF. STOP with no run active (R234): at its entry STOP is its first step, and with S_ACTIVE = 0 that step
responds OK and does not look at LIFE. -/

namespace Sys2Proof.Machine

variable {s : State}

theorem exec_stop_of_entry (hp : s.hphase = .entry) : exec .stop s = .next (stopEntry s) := by
  simp only [exec, execStop, hp]

theorem stopEntry_of_inactive (ha : s.sActive = false) : stopEntry s = respondCode .ok s := by
  simp [stopEntry, ha]

/-- Settles O43: the entry step answers OK, and an answer is the end of the command with that response. -/
theorem stopWithoutARun : Obligations.StopWithoutARun := by
  intro s hp ha
  rw [exec_stop_of_entry hp, stopEntry_of_inactive ha, respondCode_eq_ended]

end Sys2Proof.Machine
end

section
/-! PROOF. The encodings (30_encoding.md): the fields of a command word as numbers, decoder and encoder inverse to each
other port by port, and the words that are illegal (R82, R88). -/

namespace Sys2Proof

open Sys2Proof.Machine

/-! ## The fields of a command word -/

theorem extract_eq_of_toNat {w : Word} {hi lo : Nat} {v : BitVec (hi - lo + 1)}
    (h : w.toNat / 2 ^ lo % 2 ^ (hi - lo + 1) = v.toNat) : w.extractLsb hi lo = v :=
  BitVec.eq_of_toNat_eq ((toNat_extract_eq w hi lo).trans h)

theorem opcode_toNat (w : Word) : (w.extractLsb 7 0).toNat = w.toNat % 256 := by
  rw [toNat_extract_eq]; simp

/-- A field that ends at bit 31 is zero exactly when the word does not reach it. -/
theorem top_field_ne_zero_iff {w : Word} {lo : Nat} (hlo : lo ≤ 31) :
    w.extractLsb 31 lo ≠ 0 ↔ w.toNat / 2 ^ lo ≠ 0 := by
  have hlt : w.toNat / 2 ^ lo < 2 ^ (31 - lo + 1) := by
    rw [Nat.div_lt_iff_lt_mul (Nat.two_pow_pos lo), ← pow_add, show 31 - lo + 1 + lo = 32 by omega]
    exact w.isLt
  rw [ne_zero_iff_toNat, toNat_extract_eq, Nat.mod_eq_of_lt hlt]

theorem osrsOk_iff (c : BitVec 3) : osrsOk c = true ↔ c.toNat ≤ 5 := decide_eq_true_iff

theorem encodeInit_toNat (t p h f : BitVec 3) : (encodeInit t p h f).toNat =
    f.toNat * 2 ^ 17 + h.toNat * 2 ^ 14 + p.toNat * 2 ^ 11 + t.toNat * 2 ^ 8 + 1 := by
  simp only [encodeInit, toNat_append_eq, BitVec.toNat_ofNat]
  omega

/-! ## The rows of R81 -/

section Rows
variable {w : Word}

theorem decodeCmd_init (h : w.toNat % 256 = 0x01) : decodeCmd w = decodeInit w := by
  simp only [decodeCmd, opcode_toNat, h]

theorem decodeCmd_sense (h : w.toNat % 256 = 0x02) : decodeCmd w = decodePlain w .sense := by
  simp only [decodeCmd, opcode_toNat, h]

theorem decodeCmd_start (h : w.toNat % 256 = 0x03) : decodeCmd w = .ok (.start (w.extractLsb 31 8)) := by
  simp only [decodeCmd, opcode_toNat, h]

theorem decodeCmd_stop (h : w.toNat % 256 = 0x04) : decodeCmd w = decodePlain w .stop := by
  simp only [decodeCmd, opcode_toNat, h]

theorem decodeCmd_status (h : w.toNat % 256 = 0x05) : decodeCmd w = decodePlain w .status := by
  simp only [decodeCmd, opcode_toNat, h]

/-- The rows of COMP_T, COMP_P and COMP_H: zero bits above an operand. -/
def decodeRaw (w : Word) (top : Nat) (i : Instr) : Except DecodeError Instr :=
  if w.toNat / 2 ^ top ≠ 0 then .error .mustBeZero else .ok i

theorem decodeCmd_compT (h : w.toNat % 256 = 0x10) :
    decodeCmd w = decodeRaw w 28 (.compT (w.extractLsb 27 8)) := by
  simp only [decodeCmd, opcode_toNat, h, decodeRaw, top_field_ne_zero_iff (show 28 ≤ 31 by decide)]

theorem decodeCmd_compP (h : w.toNat % 256 = 0x11) :
    decodeCmd w = decodeRaw w 28 (.compP (w.extractLsb 27 8)) := by
  simp only [decodeCmd, opcode_toNat, h, decodeRaw, top_field_ne_zero_iff (show 28 ≤ 31 by decide)]

theorem decodeCmd_compH (h : w.toNat % 256 = 0x12) :
    decodeCmd w = decodeRaw w 24 (.compH (w.extractLsb 23 8)) := by
  simp only [decodeCmd, opcode_toNat, h, decodeRaw, top_field_ne_zero_iff (show 24 ≤ 31 by decide)]

theorem decodePlain_eq_raw (i : Instr) : decodePlain w i = decodeRaw w 8 i := by
  simp only [decodePlain, decodeRaw, top_field_ne_zero_iff (show 8 ≤ 31 by decide)]

/-- The opcodes of R81. -/
def opcodes : List Nat := [0x01, 0x02, 0x03, 0x04, 0x05, 0x10, 0x11, 0x12]

theorem decodeCmd_unknown (h : w.toNat % 256 ∉ opcodes) : decodeCmd w = .error .unknownOpcode := by
  rw [← opcode_toNat] at h
  unfold decodeCmd
  split <;> simp_all [opcodes]

theorem decodeRaw_ok_iff {top : Nat} {i j : Instr} :
    decodeRaw w top i = .ok j ↔ w.toNat / 2 ^ top = 0 ∧ i = j := by
  unfold decodeRaw
  split <;> simp_all

theorem decodeRaw_error_iff {top : Nat} {i : Instr} :
    (∃ e, decodeRaw w top i = .error e) ↔ w.toNat / 2 ^ top ≠ 0 := by
  unfold decodeRaw
  split <;> simp_all

/-- The oversampling codes of an INIT word are not reserved (R82, R84). -/
def codesOk (w : Word) : Prop :=
  w.toNat / 2 ^ 8 % 8 ≤ 5 ∧ w.toNat / 2 ^ 11 % 8 ≤ 5 ∧ w.toNat / 2 ^ 14 % 8 ≤ 5

theorem osrsOk_fields_iff :
    (osrsOk (w.extractLsb 10 8) && osrsOk (w.extractLsb 13 11) && osrsOk (w.extractLsb 16 14)) = true ↔ codesOk w := by
  rw [Bool.and_eq_true, Bool.and_eq_true, osrsOk_iff, osrsOk_iff, osrsOk_iff, toNat_extract_eq, toNat_extract_eq,
    toNat_extract_eq, and_assoc]
  rfl

theorem decodeInit_ok_iff {i : Instr} : decodeInit w = .ok i ↔ w.toNat / 2 ^ 20 = 0 ∧ codesOk w ∧
    .init (w.extractLsb 10 8) (w.extractLsb 13 11) (w.extractLsb 16 14) (w.extractLsb 19 17) = i := by
  have htop := top_field_ne_zero_iff (w := w) (show 20 ≤ 31 by decide)
  unfold decodeInit
  split
  next hz => exact iff_of_false nofun fun ⟨h, _⟩ => htop.mp hz h
  next hz =>
    rw [htop, not_not] at hz
    split
    next hc =>
      exact ⟨fun h => ⟨hz, osrsOk_fields_iff.mp hc, Except.ok.inj h⟩, fun ⟨_, _, hi⟩ => congrArg Except.ok hi⟩
    next hc => exact iff_of_false nofun fun ⟨_, h, _⟩ => hc (osrsOk_fields_iff.mpr h)

theorem decodeInit_error_iff : (∃ e, decodeInit w = .error e) ↔ w.toNat / 2 ^ 20 ≠ 0 ∨ ¬ codesOk w := by
  cases hd : decodeInit w with
  | ok i =>
    obtain ⟨hz, hc, -⟩ := decodeInit_ok_iff.mp hd
    exact iff_of_false nofun (not_or.mpr ⟨not_not.mpr hz, not_not.mpr hc⟩)
  | error e =>
    refine iff_of_true ⟨e, rfl⟩ ?_
    by_contra hn
    obtain ⟨hz, hc⟩ := not_or.mp hn
    have hok := decodeInit_ok_iff.mpr ⟨not_not.mp hz, not_not.mp hc, rfl⟩
    rw [hd] at hok
    cases hok

end Rows

/-! ## Command words: decoder and encoder -/

theorem decodeInit_encodeInit {t p h : BitVec 3} (f : BitVec 3)
    (hwf : (Instr.init t p h f).wf = true) : decodeInit (encodeInit t p h f) = .ok (.init t p h f) := by
  have hw := encodeInit_toNat t p h f
  have := t.isLt; have := p.isLt; have := h.isLt; have := f.isLt
  simp only [Instr.wf, Bool.and_eq_true, osrsOk_iff] at hwf
  obtain ⟨⟨ht, hp⟩, hh⟩ := hwf
  refine decodeInit_ok_iff.mpr ⟨by omega, ⟨by omega, by omega, by omega⟩, ?_⟩
  rw [extract_eq_of_toNat (v := t) (by omega), extract_eq_of_toNat (v := p) (by omega),
    extract_eq_of_toNat (v := h) (by omega), extract_eq_of_toNat (v := f) (by omega)]

theorem encode_of_decodeInit {fill : Byte} {w : Word} {i : Instr} (hop : w.toNat % 256 = 0x01)
    (h : decodeInit w = .ok i) : i.wf = true ∧ encode fill i = .cmd w := by
  obtain ⟨hz, ⟨h1, h2, h3⟩, rfl⟩ := decodeInit_ok_iff.mp h
  refine ⟨osrsOk_fields_iff.mpr ⟨h1, h2, h3⟩, congrArg Packet.cmd (BitVec.eq_of_toNat_eq ?_)⟩
  rw [encodeInit_toNat, toNat_extract_eq, toNat_extract_eq, toNat_extract_eq, toNat_extract_eq]
  omega

/-- A command word put together of an operand and an opcode, as a number. -/
theorem operandWord_toNat {z n : Nat} (v : BitVec n) (c : Byte) :
    (0#z ++ v ++ c).toNat = v.toNat * 2 ^ 8 + c.toNat := by
  rw [toNat_append_eq, toNat_append_eq, BitVec.toNat_zero, zero_mul, zero_add]

/-- A word without bits above its operand is its operand above its opcode. -/
theorem eq_operandWord {w : Word} {z hi c : Nat} (hz : z + (hi - 8 + 1) + 8 = 32) (hc : c < 256)
    (htop : w.toNat / 2 ^ (hi + 1) = 0) (hop : w.toNat % 256 = c) :
    (0#z ++ w.extractLsb hi 8 ++ BitVec.ofNat 8 c).cast hz = w := by
  have hlt : w.toNat / 2 ^ 8 < 2 ^ (hi - 8 + 1) := by
    rw [Nat.div_lt_iff_lt_mul (by decide), ← pow_add]
    exact ((Nat.div_eq_zero_iff_lt (Nat.two_pow_pos _)).mp htop).trans_le (Nat.pow_le_pow_right (by decide) (by omega))
  refine BitVec.eq_of_toNat_eq ?_
  rw [BitVec.toNat_cast, operandWord_toNat, toNat_extract_eq, Nat.mod_eq_of_lt hlt, BitVec.toNat_ofNat]
  omega

theorem decodeCmd_of_encode {fill : Byte} {i : Instr} {w : Word} (hwf : i.wf = true)
    (hw : encode fill i = .cmd w) : decodeCmd w = .ok i := by
  cases i with
  | init t p h f =>
    cases hw
    rw [decodeCmd_init (by rw [encodeInit_toNat]; omega), decodeInit_encodeInit f hwf]
  | sense => cases hw; rfl
  | start ms =>
    cases hw
    have hv : (ms ++ 0x03#8 : BitVec 32).toNat = ms.toNat * 2 ^ 8 + 3 := toNat_append_eq ms 0x03#8
    have := ms.isLt
    rw [decodeCmd_start (by omega), extract_eq_of_toNat (v := ms) (by omega)]
  | stop => cases hw; rfl
  | status => cases hw; rfl
  | compT raw =>
    cases hw
    have hv : (0#4 ++ raw ++ 0x10#8 : BitVec 32).toNat = raw.toNat * 2 ^ 8 + 0x10 := operandWord_toNat raw 0x10#8
    have := raw.isLt
    rw [decodeCmd_compT (by omega), decodeRaw_ok_iff, extract_eq_of_toNat (v := raw) (by omega)]
    exact ⟨by omega, rfl⟩
  | compP raw =>
    cases hw
    have hv : (0#4 ++ raw ++ 0x11#8 : BitVec 32).toNat = raw.toNat * 2 ^ 8 + 0x11 := operandWord_toNat raw 0x11#8
    have := raw.isLt
    rw [decodeCmd_compP (by omega), decodeRaw_ok_iff, extract_eq_of_toNat (v := raw) (by omega)]
    exact ⟨by omega, rfl⟩
  | compH raw =>
    cases hw
    have hv : (0#8 ++ raw ++ 0x12#8 : BitVec 32).toNat = raw.toNat * 2 ^ 8 + 0x12 := operandWord_toNat raw 0x12#8
    have := raw.isLt
    rw [decodeCmd_compH (by omega), decodeRaw_ok_iff, extract_eq_of_toNat (v := raw) (by omega)]
    exact ⟨by omega, rfl⟩
  | take => cases hw
  | busRdI2c => cases hw
  | busRdSpi => cases hw
  | busWrI2c => cases hw
  | busWrSpi => cases hw

theorem encode_of_decodeCmd {fill : Byte} {w : Word} {i : Instr} (h : decodeCmd w = .ok i) :
    i.wf = true ∧ encode fill i = .cmd w := by
  by_cases hop : w.toNat % 256 ∈ opcodes
  case neg => rw [decodeCmd_unknown hop] at h; cases h
  simp only [opcodes, List.mem_cons, List.not_mem_nil, or_false] at hop
  have hlt := w.isLt
  rcases hop with hop | hop | hop | hop | hop | hop | hop | hop
  case _ => exact encode_of_decodeInit hop (decodeCmd_init hop ▸ h)
  case _ =>
    rw [decodeCmd_sense hop, decodePlain_eq_raw, decodeRaw_ok_iff] at h
    obtain ⟨hz, rfl⟩ := h
    exact ⟨rfl, congrArg Packet.cmd (BitVec.eq_of_toNat_eq (show 0x02 = w.toNat by omega))⟩
  case _ =>
    cases (decodeCmd_start hop).symm.trans h
    have hv := toNat_append_eq (w.extractLsb 31 8) 0x03#8
    rw [toNat_extract_eq] at hv
    exact ⟨rfl, congrArg Packet.cmd (BitVec.eq_of_toNat_eq (hv.trans (show _ + 0x03 = w.toNat by omega)))⟩
  case _ =>
    rw [decodeCmd_stop hop, decodePlain_eq_raw, decodeRaw_ok_iff] at h
    obtain ⟨hz, rfl⟩ := h
    exact ⟨rfl, congrArg Packet.cmd (BitVec.eq_of_toNat_eq (show 0x04 = w.toNat by omega))⟩
  case _ =>
    rw [decodeCmd_status hop, decodePlain_eq_raw, decodeRaw_ok_iff] at h
    obtain ⟨hz, rfl⟩ := h
    exact ⟨rfl, congrArg Packet.cmd (BitVec.eq_of_toNat_eq (show 0x05 = w.toNat by omega))⟩
  case _ =>
    rw [decodeCmd_compT hop, decodeRaw_ok_iff] at h
    obtain ⟨hz, rfl⟩ := h
    exact ⟨rfl, congrArg Packet.cmd (eq_operandWord (z := 4) (by decide) (by decide) hz hop)⟩
  case _ =>
    rw [decodeCmd_compP hop, decodeRaw_ok_iff] at h
    obtain ⟨hz, rfl⟩ := h
    exact ⟨rfl, congrArg Packet.cmd (eq_operandWord (z := 4) (by decide) (by decide) hz hop)⟩
  case _ =>
    rw [decodeCmd_compH hop, decodeRaw_ok_iff] at h
    obtain ⟨hz, rfl⟩ := h
    exact ⟨rfl, congrArg Packet.cmd (eq_operandWord (z := 8) (by decide) (by decide) hz hop)⟩

/-! ## Bus frames: decoder and encoder -/

theorem decodeI2c_read {a : Byte} {n : Nat} (h : readInRange a.toNat n = true) :
    decodeI2c (i2cReadOut a) n = .ok (.busRdI2c a n) := by
  have hn : n ≠ 0 := by rintro rfl; cases h
  simp [decodeI2c, i2cReadOut, hn, h]

theorem decodeI2c_write {ps : List (Byte × Byte)} (h : ps ≠ []) :
    decodeI2c (i2cWriteOut ps) 0 = .ok (.busWrI2c ps) := by
  obtain ⟨q, qs, rfl⟩ := List.exists_cons_of_ne_nil h
  simp only [decodeI2c, if_true, pairUp_writeOut]

theorem decodeSpi_read {fill : Byte} {a : BitVec 7} {n : Nat} (h : readInRange a.toNat n = true) :
    decodeSpi fill (spiReadOut fill a n) (n + 1) = .ok (.busRdSpi a n) := by
  simp [decodeSpi, spiReadOut, spi_read_msb, spi_read_low, h]

theorem decodeSpi_write {fill : Byte} {ps : List (BitVec 7 × Byte)} (h : ps ≠ []) :
    decodeSpi fill (spiWriteOut ps) 0 = .ok (.busWrSpi ps) := by
  have hp := spiPairs_writeOut ps
  obtain ⟨q, qs, rfl⟩ := List.exists_cons_of_ne_nil h
  have hout : spiWriteOut (q :: qs) = (0#1 ++ q.1) :: q.2 :: spiWriteOut qs := rfl
  rw [hout] at hp ⊢
  simp only [decodeSpi, spi_addr_msb, Bool.false_eq_true, if_false, if_true, hp]

theorem encode_of_decodeI2c {fill : Byte} {out : List Byte} {n : Nat} {i : Instr} (h : decodeI2c out n = .ok i) :
    i.wf = true ∧ encode fill i = .bus ⟨.i2c, out, n⟩ := by
  unfold decodeI2c at h
  split at h
  next hn =>
    subst hn
    split at h
    next p ps hp => cases h; exact ⟨rfl, by rw [encode, writeOut_of_pairUp _ _ hp]⟩
    next => cases h
  next hn =>
    split at h
    next a =>
      split at h
      next hr => cases h; exact ⟨hr, rfl⟩
      next => cases h
    next => cases h

theorem encode_of_decodeSpi {fill : Byte} {out : List Byte} {n : Nat} {i : Instr}
    (h : decodeSpi fill out n = .ok i) : i.wf = true ∧ encode fill i = .bus ⟨.spi, out, n⟩ := by
  unfold decodeSpi at h
  split at h
  next => cases h
  next b r =>
    split at h
    next hb =>
      split at h
      next hr =>
        obtain ⟨hfill, rfl, hr⟩ := hr
        cases h
        exact ⟨hr, by rw [encode, spiReadOut, spi_read_of_low b hb, ← hfill]⟩
      next => cases h
    next hb =>
      split at h
      next hn =>
        subst hn
        split at h
        next p ps hp =>
          cases h
          obtain ⟨l, hl, hp⟩ := Option.bind_eq_some_iff.mp hp
          exact ⟨rfl, by rw [encode, writeOut_of_spiPairs _ _ hp, writeOut_of_pairUp _ _ hl]⟩
        next => cases h
      next => cases h

theorem encode_of_decodeCons {fill b : Byte} {i : Instr} (h : decodeCons b = .ok i) :
    i.wf = true ∧ encode fill i = .cons b := by
  unfold decodeCons at h
  split at h
  next hb => cases h; exact ⟨rfl, congrArg Packet.cons hb.symm⟩
  next => cases h

/-- Settles O1: the commands by their words, TAKE by its byte, a frame by its framing. -/
theorem decodeOfEncodeIsIdentity : Obligations.DecodeOfEncodeIsIdentity := by
  intro fill i hwf
  cases i with
  | take => rfl
  | busRdI2c a n => exact decodeI2c_read hwf
  | busRdSpi a n => exact decodeSpi_read hwf
  | busWrI2c ps => exact decodeI2c_write (by simpa [Instr.wf] using hwf)
  | busWrSpi ps => exact decodeSpi_write (by simpa [Instr.wf] using hwf)
  | _ => exact decodeCmd_of_encode (fill := fill) hwf rfl

/-- Settles O2: whichever port the packet is for, an accepted one is put together again of the fields read. -/
theorem encodeOfDecodeIsIdentity : Obligations.EncodeOfDecodeIsIdentity := by
  intro fill p i h
  cases p with
  | cmd w => exact encode_of_decodeCmd h
  | cons b => exact encode_of_decodeCons h
  | bus f =>
    obtain ⟨k, out, n⟩ := f
    cases k with
    | i2c => exact encode_of_decodeI2c h
    | spi => exact encode_of_decodeSpi h

/-! ## How a command word is assembled (R100) -/

theorem or_shiftLeft_toNat {lo x : Word} {k : Nat} (hx : x.toNat * 2 ^ k < 2 ^ 32) (hlo : lo.toNat < 2 ^ k) :
    (lo ||| x <<< k).toNat = x.toNat * 2 ^ k + lo.toNat := by
  rw [BitVec.or_comm, BitVec.toNat_or, BitVec.toNat_shiftLeft, Nat.shiftLeft_eq, Nat.mod_eq_of_lt hx, Nat.mul_comm,
    Nat.two_pow_add_eq_or_of_lt hlo]

theorem setWidth_toNat {n : Nat} (v : BitVec n) (hn : n ≤ 32) : (v.setWidth 32).toNat = v.toNat := by
  rw [BitVec.toNat_setWidth, Nat.mod_eq_of_lt (v.isLt.trans_le (Nat.pow_le_pow_right (by decide) hn))]

/-- An operand shifted above its opcode, as a number. -/
theorem assembled_toNat {n : Nat} (v : BitVec n) (hn : n ≤ 24) (c : Word) (hc : c.toNat < 2 ^ 8) :
    (v.setWidth 32 <<< 8 ||| c).toNat = v.toNat * 2 ^ 8 + c.toNat := by
  have hv : v.toNat < 2 ^ 24 := v.isLt.trans_le (Nat.pow_le_pow_right (by decide) hn)
  have hw := setWidth_toNat v (hn.trans (by decide))
  rw [BitVec.or_comm, or_shiftLeft_toNat (by omega) hc, hw]

theorem encodeInit_eq_assembled (t p h f : BitVec 3) : encodeInit t p h f =
    ((t.setWidth 32 ||| (p.setWidth 32 <<< 3) ||| (h.setWidth 32 <<< 6) ||| (f.setWidth 32 <<< 9)) <<< 8) |||
      0x01#32 := by
  have ht := setWidth_toNat t (by decide)
  have hp := setWidth_toNat p (by decide)
  have hh := setWidth_toNat h (by decide)
  have hf := setWidth_toNat f (by decide)
  have := t.isLt; have := p.isLt; have := h.isLt; have := f.isLt
  have h3 : (t.setWidth 32 ||| p.setWidth 32 <<< 3).toNat = p.toNat * 2 ^ 3 + t.toNat := by
    rw [or_shiftLeft_toNat, hp, ht] <;> omega
  have h6 : (t.setWidth 32 ||| p.setWidth 32 <<< 3 ||| h.setWidth 32 <<< 6).toNat =
      h.toNat * 2 ^ 6 + (p.toNat * 2 ^ 3 + t.toNat) := by
    rw [or_shiftLeft_toNat, hh, h3] <;> omega
  have h9 : (t.setWidth 32 ||| p.setWidth 32 <<< 3 ||| h.setWidth 32 <<< 6 ||| f.setWidth 32 <<< 9).toNat =
      f.toNat * 2 ^ 9 + (h.toNat * 2 ^ 6 + (p.toNat * 2 ^ 3 + t.toNat)) := by
    rw [or_shiftLeft_toNat, hf, h6] <;> omega
  refine BitVec.eq_of_toNat_eq ?_
  rw [encodeInit_toNat, BitVec.or_comm, or_shiftLeft_toNat (by omega) (by decide), h9]
  change _ = _ + 1
  omega

theorem operandWord_eq_assembled {z n : Nat} (hz : z + n = 24) (v : BitVec n) (c : Byte) :
    (0#z ++ v ++ c).toNat = (v.setWidth 32 <<< 8 ||| c.setWidth 32).toNat := by
  have hc := setWidth_toNat c (by decide)
  rw [operandWord_toNat, assembled_toNat v (by omega) _ (by rw [hc]; exact c.isLt), hc]

/-- Settles O3: each word as a number is its operand times 256 plus its opcode; the example words decode by
computation. -/
theorem commandWordsAssemble : Obligations.CommandWordsAssemble := by
  refine ⟨fun _ t p h f => congrArg _ (encodeInit_eq_assembled t p h f), fun _ => ⟨rfl, rfl, rfl⟩, fun _ ms => ?start,
    fun _ r => ⟨?compT, ?compP⟩, fun _ r => ?compH, ?examples⟩
  case start =>
    have hv := toNat_append_eq ms 0x03#8
    exact congrArg _ (BitVec.eq_of_toNat_eq (hv.trans (assembled_toNat ms (by decide) 0x03#32 (by decide)).symm))
  case compT => exact congrArg _ (BitVec.eq_of_toNat_eq (operandWord_eq_assembled (z := 4) rfl r 0x10#8))
  case compP => exact congrArg _ (BitVec.eq_of_toNat_eq (operandWord_eq_assembled (z := 4) rfl r 0x11#8))
  case compH => exact congrArg _ (BitVec.eq_of_toNat_eq (operandWord_eq_assembled (z := 8) rfl r 0x12#8))
  case examples => decide

/-- Settles O4: the decoder computes on each of the words. -/
theorem specWordsDecode : Obligations.SpecWordsDecode := by
  unfold Obligations.SpecWordsDecode
  decide

/-! ## Illegal words -/

/-- R82 as numbers: a word is refused for its opcode, for a must-be-zero bit, or for a reserved code of INIT. -/
theorem decodeCmd_error_iff (w : Word) : (∃ e, decodeCmd w = .error e) ↔
    (w.toNat % 256 ∉ opcodes ∨
     (w.toNat % 256 = 0x01 ∧ w.toNat / 2 ^ 20 ≠ 0) ∨
     (w.toNat % 256 ∈ [0x02, 0x04, 0x05] ∧ w.toNat / 2 ^ 8 ≠ 0) ∨
     (w.toNat % 256 ∈ [0x10, 0x11] ∧ w.toNat / 2 ^ 28 ≠ 0) ∨
     (w.toNat % 256 = 0x12 ∧ w.toNat / 2 ^ 24 ≠ 0) ∨
     (w.toNat % 256 = 0x01 ∧ ¬ codesOk w)) := by
  by_cases hop : w.toNat % 256 ∈ opcodes
  case neg => exact iff_of_true ⟨_, decodeCmd_unknown hop⟩ (.inl hop)
  simp only [opcodes, List.mem_cons, List.not_mem_nil, or_false] at hop ⊢
  rcases hop with hop | hop | hop | hop | hop | hop | hop | hop
  case _ => rw [decodeCmd_init hop, decodeInit_error_iff]; simp [hop]
  case _ => rw [decodeCmd_sense hop, decodePlain_eq_raw, decodeRaw_error_iff]; simp [hop]
  case _ => rw [decodeCmd_start hop]; simp [hop]
  case _ => rw [decodeCmd_stop hop, decodePlain_eq_raw, decodeRaw_error_iff]; simp [hop]
  case _ => rw [decodeCmd_status hop, decodePlain_eq_raw, decodeRaw_error_iff]; simp [hop]
  case _ => rw [decodeCmd_compT hop, decodeRaw_error_iff]; simp [hop]
  case _ => rw [decodeCmd_compP hop, decodeRaw_error_iff]; simp [hop]
  case _ => rw [decodeCmd_compH hop, decodeRaw_error_iff]; simp [hop]

/-- The codes of an INIT word, each refused from 6 on. -/
theorem not_codesOk_iff (w : Word) : ¬ codesOk w ↔
    w.toNat / 2 ^ 8 % 8 ≥ 6 ∨ w.toNat / 2 ^ 11 % 8 ≥ 6 ∨ w.toNat / 2 ^ 14 % 8 ≥ 6 := by
  unfold codesOk
  omega

/-- Settles O5: the refused words row by row, and the host's step on one is its acceptance and its answer. -/
theorem illegalCommandWords : Obligations.IllegalCommandWords := by
  refine ⟨fun w => ?conditions, fun s w rest e hb hc hd => ?answer⟩
  case conditions => rw [← not_codesOk_iff]; exact decodeCmd_error_iff w
  case answer =>
    have hrun : hostRun (acceptCmd w rest s) = .next (respondCode .illegalCommand (acceptCmd w rest s)) := by
      simp only [hostRun, acceptCmd, hd]
    simp only [agentStep, hostStep, hb, hc, Bool.false_eq_true, if_false, hrun]
    rfl

theorem decodeCons_eq_take_iff (b : Byte) : decodeCons b = .ok .take ↔ b = 0x01#8 := by
  unfold decodeCons
  split <;> simp_all

/-- Settles O6: the decoder's one word, and any other is refused by the consumer's step whatever waits. -/
theorem consumerWords : Obligations.ConsumerWords := by
  refine ⟨decodeCons_eq_take_iff, fun s b rest hc hb => ?_⟩
  have hd : decodeCons b = .error .unknownConsumerWord := if_neg hb
  exact consumerStep_illegal s b rest _ hc hd

end Sys2Proof
end

section
/-! PROOF. The invariant of the block (Safety.lean) under every agent's step, command by command, and the safety it
gives: no model fault and no refusal. -/

namespace Sys2Proof.Machine

variable {s t : State}

/-! ## The place of a command -/

/-- A command in progress is the accepted word's, at a place of that word's pseudocode. -/
theorem Inv.placeFits_of_decode (h : Inv s) {i : Instr} (hd : decodeCmd s.cmd = .ok i) : placeFits s.hphase i = true := by
  by_cases he : s.hphase = .entry
  · rw [he]; rfl
  · obtain ⟨-, j, hj, hfit, -⟩ := h.place he
    cases hj.symm.trans hd
    exact hfit

/-- Only SENSE stands in a cycle. -/
theorem Inv.not_senseCycle (h : Inv s) {i : Instr} (hd : decodeCmd s.cmd = .ok i) (hi : i ≠ .sense) :
    s.hphase ≠ .senseCycle := by
  intro hp
  have hfit := h.placeFits_of_decode hd
  rw [hp] at hfit
  exact hi (of_decide_eq_true hfit)

/-- A word that is refused was accepted in this very step. -/
theorem Inv.entry_of_illegal (h : Inv s) {e : DecodeError} (hd : decodeCmd s.cmd = .error e) : s.hphase = .entry := by
  by_contra he
  obtain ⟨-, i, hi, -⟩ := h.place he
  rw [hd] at hi
  cases hi

/-- Inside INIT the configuration is legal: its codes by the decoder (R82), and R181's check has been passed. -/
theorem Inv.cfgOk_of_init (h : Inv s) {c p q f : BitVec 3} (hd : decodeCmd s.cmd = .ok (.init c p q f))
    (hp : s.hphase.inInit = true) : cfgOk (cfgOf c p q f) = true := by
  obtain ⟨-, i, hi, -, hcfg⟩ := h.place (by rintro he; rw [he] at hp; cases hp)
  cases hi.symm.trans hd
  obtain ⟨hwf, -⟩ := encode_of_decodeCmd (fill := 0) hd
  show ((Instr.init c p q f).wf && !cfgInvalid (cfgOf c p q f)) = true
  rw [hwf, hcfg c p q f rfl]
  rfl

/-! ## The commands -/

theorem placeFits_of_inInit {pl : HostPhase} {i : Instr} (hpl : pl.inInit = true) (hi : isInit i = true) :
    placeFits pl i = true := by
  cases pl with
  | initChip => exact hi
  | initVariant => exact hi
  | initCal1 => exact hi
  | initCal2 => exact hi
  | _ => cases hpl

/-- INIT moves on inside its pseudocode, on a block that is not READY. -/
theorem Inv.initPlace (h : Inv s) {c p q f : BitVec 3} (hb : s.cmdBusy = true)
    (hd : decodeCmd s.cmd = .ok (.init c p q f)) (hcfg : cfgInvalid (cfgOf c p q f) = false) (hl : s.life ≠ .ready)
    {pl : HostPhase} (hpl : pl.inInit = true) : Inv { s with hphase := pl } := by
  have hfit : placeFits pl (.init c p q f) = true := placeFits_of_inInit hpl rfl
  refine h.setPlace pl (h.not_senseCycle hd nofun) (by rintro rfl; cases hpl) (fun _ => hl) (by rintro rfl; cases hpl)
    fun _ => ⟨hb, _, hd, hfit, fun t p h f hi => ?_⟩
  cases hi
  exact hcfg

theorem Inv.initFail (h : Inv s) (hl : s.life ≠ .ready) (hs : s.hphase ≠ .senseCycle) (f : Nat → Resp) :
    Inv (initFail f s) :=
  (h.lifeFailed hl).respond f hs

theorem Inv.execInit (h : Inv s) {c p q f : BitVec 3} (hb : s.cmdBusy = true)
    (hd : decodeCmd s.cmd = .ok (.init c p q f)) (hx : execInit c p q f s = .next t) : Inv t := by
  have hs := h.not_senseCycle hd nofun
  have hcfg : s.hphase.inInit = true → cfgInvalid (cfgOf c p q f) = false := fun hp => by
    have := h.cfgOk_of_init hd hp
    simp only [cfgOk, Bool.and_eq_true, Bool.not_eq_true'] at this
    exact this.2
  obtain ⟨-, rfl⟩ | ⟨d, hp, -, rfl⟩ | ⟨d, hp, -, rfl⟩ | ⟨var, d, hp, -, rfl⟩ | ⟨var, w1, d, hp, -, rfl⟩ |
    ⟨txn, a, n, e, hp, -, rfl⟩ := execInit_next _ _ _ _ _ _ hx
  case inl =>
    unfold initEntry
    split
    next => exact h.respond _ hs
    next hl =>
      split
      next => exact h.initFail hl hs _
      next hc => exact h.initPlace hb hd (by simpa using hc) hl rfl
  case inr.inl =>
    have hin : s.hphase.inInit = true := by rw [hp]; rfl
    have hl := h.unready_of_init hin
    unfold initGotChip
    split
    next => exact (h.recordTxn _).initPlace hb hd (hcfg hin) hl rfl
    next => exact (h.recordTxn _).initFail hl hs _
  case inr.inr.inl =>
    have hin : s.hphase.inInit = true := by rw [hp]; rfl
    have hl := h.unready_of_init hin
    unfold initGotVariant
    split
    next => exact (h.recordTxn _).initPlace hb hd (hcfg hin) hl rfl
    next => exact (h.recordTxn _).initFail hl hs _
  case inr.inr.inr.inl =>
    have hin : s.hphase.inInit = true := by rw [hp]; rfl
    exact (h.recordTxn _).initPlace hb hd (hcfg hin) (h.unready_of_init hin) rfl
  case inr.inr.inr.inr.inl =>
    have hin : s.hphase.inInit = true := by rw [hp]; rfl
    exact { h.commit (cfgOf c p q f) (decodeCal w1 (keepOf s.bus d)) var hin (h.cfgOk_of_init hd hin) with }
  case inr.inr.inr.inr.inr =>
    exact (((h.recordTxn _).abortTransport e).lifeFailed (h.unready_of_init hp)).respond _ hs

theorem Inv.execSense (h : Inv s) (hb : s.cmdBusy = true) (hd : decodeCmd s.cmd = .ok .sense)
    (hx : execSense s = .next t) : Inv t := by
  obtain ⟨hp, rfl⟩ | ⟨-, -, hc | ⟨m, v, hc, rfl⟩ | ⟨txn, e, v, hc, rfl⟩⟩ := execSense_next _ _ hx
  case inl =>
    unfold senseEntry
    split
    next => exact h.respond _ hp
    next hl =>
      split
      next => exact h.respond _ hp
      next ha =>
        split
        next hf => exact h.senseAcquire hb hd (not_not.mp hl) (by simpa using ha) hf
        next => exact h
  case inr.inl => exact h.cycleRun .host nofun hc
  case inr.inr.inl => exact h.senseLast _ (.inl ⟨m, hc⟩)
  case inr.inr.inr => exact h.senseLast _ (.inr ⟨txn, e, hc⟩)

/-- A stop request with the place its command then waits at. -/
theorem Inv.requestStop (h : Inv s) {i : Instr} {pl : HostPhase} (hb : s.cmdBusy = true) (hd : decodeCmd s.cmd = .ok i)
    (hi : i ≠ .sense) (hinit : isInit i = false) (hfit : placeFits pl i = true) (hpl : pl ≠ .senseCycle)
    (hin : pl.inInit = false) (hl : pl = .startWait → s.life = .ready) (ha : s.sActive = true) :
    Inv { s with sCancel := true, hphase := pl } :=
  (h.setCancel ha).setPlace pl (h.not_senseCycle hd hi) hpl (fun hp => by rw [hin] at hp; cases hp) hl
    fun _ => ⟨hb, i, hd, hfit, fun t p h f hc => by subst hc; cases hinit⟩

theorem Inv.startLaunch (h : Inv s) (ms : BitVec 24) (hs : s.hphase ≠ .senseCycle) (hl : s.life = .ready) :
    Inv (startLaunch ms s) := by
  unfold Machine.startLaunch
  exact (h.launch ms hs hl).respond _ hs

theorem Inv.execStart (h : Inv s) {ms : BitVec 24} (hb : s.cmdBusy = true) (hd : decodeCmd s.cmd = .ok (.start ms))
    (hx : execStart ms s = .next t) : Inv t := by
  have hs := h.not_senseCycle hd nofun
  unfold Machine.execStart at hx
  split at hx <;> cases hx
  case h_1 hp =>
    split
    next => exact h
    next => exact h.startLaunch ms hs (h.ready_of_start hp)
  case h_2 =>
    unfold startEntry
    split
    next => exact h.respond _ hs
    next hl =>
      split
      next ha => exact h.requestStop hb hd nofun rfl rfl nofun rfl (fun _ => not_not.mp hl) ha
      next => exact h.startLaunch ms hs (not_not.mp hl)

theorem Inv.execStop (h : Inv s) (hb : s.cmdBusy = true) (hd : decodeCmd s.cmd = .ok .stop)
    (hx : execStop s = .next t) : Inv t := by
  have hs := h.not_senseCycle hd nofun
  unfold Machine.execStop at hx
  split at hx <;> cases hx
  case h_1 =>
    split
    next => exact h
    next => exact h.respond _ hs
  case h_2 =>
    unfold stopEntry
    split
    next ha => exact h.requestStop hb hd nofun rfl rfl nofun rfl nofun ha
    next => exact h.respond _ hs

/-- COMP_P and COMP_H answer one of three responses. -/
theorem Inv.withTfine (h : Inv s) (hs : s.hphase ≠ .senseCycle) {f : State → Nat → Resp}
    (hx : withTfine s (fun u => Machine.respond (f u) u) = .next t) : Inv t := by
  unfold Machine.withTfine at hx
  split at hx
  next => cases hx; exact h.respond _ hs
  next => split at hx <;> cases hx <;> exact h.respond _ hs

theorem Inv.execCommand (h : Inv s) {i : Instr} (hb : s.cmdBusy = true) (hd : decodeCmd s.cmd = .ok i)
    (hx : exec i s = .next t) : Inv t := by
  have hi := decodeCmd_isCommand _ _ hd
  cases i with
  | init c p q f => exact h.execInit hb hd hx
  | sense => exact h.execSense hb hd hx
  | start ms => exact h.execStart hb hd hx
  | stop => exact h.execStop hb hd hx
  | status => cases hx; exact h.respond _ (h.not_senseCycle hd nofun)
  | compT raw =>
    have hs := h.not_senseCycle hd nofun
    simp only [exec, execCompT] at hx
    split at hx <;> cases hx
    next => exact h.respond _ hs
    next hl => exact (h.setTfine _ (not_not.mp hl)).respond _ hs
  | compP raw =>
    exact h.withTfine (f := fun u => compPResp (pressOut u.env.fresh u.par raw u.tfine u.cal))
      (h.not_senseCycle hd nofun) hx
  | compH raw =>
    exact h.withTfine (f := fun u => compHResp (humOut u.env.fresh u.par raw u.tfine u.cal))
      (h.not_senseCycle hd nofun) hx
  | take => cases hi
  | busRdI2c => cases hi
  | busRdSpi => cases hi
  | busWrI2c => cases hi
  | busWrSpi => cases hi

/-! ## The agents -/

theorem Inv.hostStep (h : Inv s) (hx : hostStep s = .next t) : Inv t := by
  obtain ⟨-, -, rfl⟩ | ⟨s0, hb, h0, h1⟩ := hostStep_next _ _ hx
  case inl => exact h
  have hs0 : Inv s0 := by
    obtain ⟨-, rfl⟩ | ⟨hfree, w, rest, -, rfl⟩ := h0
    · exact h
    · exact h.acceptCmd hfree w rest
  obtain ⟨e, he, rfl⟩ | ⟨i, hd, -, hx⟩ := h1
  · exact hs0.respond _ (by rw [hs0.entry_of_illegal he]; nofun)
  · exact hs0.execCommand hb hd hx

theorem Inv.active_of_phase (h : Inv s) (hp : s.sPhase ≠ .idle) : s.sActive = true := by
  by_contra ha
  exact hp (h.idle_iff.mpr (by simpa using ha))

/-- The sampler holds LOCK in MEASURING only. -/
theorem Inv.not_sampler_lock (h : Inv s) (hp : s.sPhase ≠ .measuring) : s.lock ≠ .sampler :=
  fun hl => hp (h.measuring_of_lock hl)

/-- With LOCK the sampler's the host is in no cycle. -/
theorem Inv.not_senseCycle_of_sampler (h : Inv s) (hl : s.lock = .sampler) : s.hphase ≠ .senseCycle := by
  intro hp
  rw [h.host_iff.mpr hp] at hl
  cases hl

theorem Inv.samplerPublishing (h : Inv s) (a : Bool) (hp : s.sPhase = .publishing) : Inv (samplerPublishing a s) := by
  unfold Machine.samplerPublishing
  split
  next => exact h.publish hp
  next =>
    split
    next => exact h.terminate none (h.not_sampler_lock (by rw [hp]; nofun))
    next => exact h

theorem Inv.samplerStep (h : Inv s) {a : Bool} (hx : samplerStep a s = .next t) : Inv t := by
  obtain ⟨-, rfl⟩ | ⟨hm, hl, hc | ⟨m, v, hc, rfl⟩ | ⟨txn, e, v, hc, rfl⟩⟩ | ⟨-, hl, -, rfl⟩ | ⟨hm, hf, -, rfl⟩ |
    ⟨-, -, -, rfl⟩ | ⟨hp, rfl⟩ | ⟨hw, -, rfl⟩ | ⟨-, -, rfl⟩ := samplerStep_next _ _ _ hx
  case inl => exact h
  case inr.inl.inl => exact h.cycleRun .sampler nofun hc
  case inr.inl.inr.inl =>
    have hlast := h.cycleLast .sampler (.inl ⟨m, hc⟩) (h.not_senseCycle_of_sampler hl)
    obtain ⟨-, -, -, -, -, -, -, hact, -⟩ := cycleStep_last h .sampler (.inl ⟨m, hc⟩)
    exact hlast.handOver m (hact.trans (h.active_of_phase (by rw [hm]; nofun))) nofun
  case inr.inl.inr.inr =>
    exact (h.cycleLast .sampler (.inr ⟨txn, e, hc⟩) (h.not_senseCycle_of_sampler hl)).terminate _ nofun
  case inr.inr.inl => exact h.terminate none hl
  case inr.inr.inr.inl => exact h.samplerAcquire hm hf
  case inr.inr.inr.inr.inl => exact h
  case inr.inr.inr.inr.inr.inl => exact h.samplerPublishing a hp
  case inr.inr.inr.inr.inr.inr.inl =>
    exact { h.terminate none (h.not_sampler_lock (by rw [hw]; nofun)) with }
  case inr.inr.inr.inr.inr.inr.inr => exact h

theorem Inv.consumerStep (h : Inv s) (hx : consumerStep s = .next t) : Inv t := by
  obtain rfl | ⟨rest, rfl⟩ | ⟨s0, h0, h1⟩ := consumerStep_next _ _ hx
  case inl => exact h
  case inr.inl => exact h.refuseCons rest
  have hs0 : Inv s0 := by
    obtain rfl | ⟨b, rest, rfl⟩ := h0
    · exact h
    · exact h.acceptCons b rest
  obtain rfl | hx := h1
  · exact hs0.respondCons _
  · unfold execTake at hx
    split at hx
    next m _ =>
      cases hx
      have hempty : Inv { s0 with mbox := none } := { hs0 with }
      exact hempty.respondCons _
    next => split at hx <;> cases hx; exacts [hs0, hs0.respondCons _]

theorem Inv.busStep (h : Inv s) (hx : busStep s = .next t) : Inv t := by
  obtain ⟨-, rfl⟩ | ⟨g, rest, s0, -, rfl, -, f, x, ⟨-, rfl⟩ | ⟨e, -, rfl⟩⟩ := busStep_next _ _ hx
  · exact h
  · exact { (h.acceptFrame rest).recordTxn f with }
  · exact { ((h.acceptFrame rest).recordTxn f).abortTransport e with }

theorem Inv.agentStep (h : Inv s) {ev : Event} (hx : agentStep ev s = .next t) : Inv t := by
  cases ev with
  | host => exact h.hostStep hx
  | sampler a => exact h.samplerStep hx
  | consumer => exact h.consumerStep hx
  | pollTimer =>
    cases hx
    unfold pollTimerStep
    split
    exacts [h.endPollDelay, h]
  | intervalTimer =>
    cases hx
    unfold intervalTimerStep
    split
    next hw => exact h.nextCycle hw.1
    next => exact h
  | busPort => exact h.busStep hx

theorem Inv.step (h : Inv s) (hx : step s = .next t) : Inv t := h.advance.agentStep hx

/-- Settles O57: the scheduler's choice touches no field of the invariant, and each agent's step keeps it. -/
theorem everyStepKeepsTheInvariant : Obligations.EveryStepKeepsTheInvariant := fun _ _ h hx => h.step hx

end Sys2Proof.Machine
end

section
/-! PROOF. What a step changes, agent by agent: the frame of the sampler's step, the sequencer and the offered frames under
every step; and from them the claims about all agents' steps: who emits, what never changes, how SEQ moves, how MBOX is
filled and emptied, how a run ends, and that no fault is reached. -/

namespace Sys2Proof.Machine

variable {s t : State}

/-! ## The frame of the sampler's step -/

/-- What a step of the sampler can do to the registers it shares with the host and the consumer, to the history and
to SEQ. -/
def SamplerEffect (s t : State) : Prop :=
  t.bus = s.bus ∧ t.par = s.par ∧ t.cresp = s.cresp ∧
  (t.life = s.life ∧ t.cfg = s.cfg ∧ t.cal = s.cal ∧ t.variant = s.variant) ∧
  (t.mbox = s.mbox ∨ (s.mbox = none ∧ s.sPhase = .publishing ∧ t.mbox = s.sPending ∧ t.sPhase = .waiting)) ∧
  (t.env.hist = s.env.hist ∨ ((∃ f ans, t.env.hist = ⟨f, ans⟩ :: s.env.hist) ∧ s.lock = .sampler)) ∧
  SeqMoves s t

/-- The step of a cycle under the sampler, with what its last step adds. -/
theorem samplerEffect_of_cycle {v : State} (hl : s.lock = .sampler) (hc : CycleStepIs .sampler s v)
    (hv : t = v ∨ (∃ m, t = handOver m { v with lock := .free }) ∨
      ∃ err, t = terminate err { v with lock := .free }) : SamplerEffect s t := by
  obtain ⟨⟨-, hlife, hcfg, hcal, hvar, hbus, hpar, hmbox, -, -, -, -, -, -, hcresp, -⟩, hhist, hseq⟩ :=
    cycleStep_frame _ hc
  have hfacts : SamplerEffect s v :=
    ⟨hbus, hpar, hcresp, ⟨hlife, hcfg, hcal, hvar⟩, .inl hmbox, hhist.imp_right fun h => ⟨h, hl⟩, hseq⟩
  obtain rfl | ⟨m, rfl⟩ | ⟨err, rfl⟩ := hv
  · exact hfacts
  · exact ⟨hbus, hpar, hcresp, ⟨hlife, hcfg, hcal, hvar⟩, .inl hmbox, hhist.imp_right fun h => ⟨h, hl⟩, hseq⟩
  · exact ⟨hbus, hpar, hcresp, ⟨hlife, hcfg, hcal, hvar⟩, .inl hmbox, hhist.imp_right fun h => ⟨h, hl⟩, hseq⟩

theorem samplerStep_frame {a : Bool} (hx : samplerStep a s = .next t) : SamplerEffect s t := by
  obtain ⟨-, rfl⟩ | ⟨-, hl, hc | ⟨m, v, hc, rfl⟩ | ⟨txn, e, v, hc, rfl⟩⟩ | ⟨-, -, -, rfl⟩ | ⟨-, -, -, rfl⟩ |
    ⟨-, -, -, rfl⟩ | ⟨hp, rfl⟩ | ⟨-, -, rfl⟩ | ⟨-, -, rfl⟩ := samplerStep_next _ _ _ hx
  case inr.inl.inl => exact samplerEffect_of_cycle hl (.inl hc) (.inl rfl)
  case inr.inl.inr.inl => exact samplerEffect_of_cycle hl (.inr (.inl ⟨m, hc⟩)) (.inr (.inl ⟨m, rfl⟩))
  case inr.inl.inr.inr => exact samplerEffect_of_cycle hl (.inr (.inr ⟨txn, e, hc⟩)) (.inr (.inr ⟨_, rfl⟩))
  case inr.inr.inr.inr.inr.inl =>
    unfold samplerPublishing
    split
    next hpub =>
      have hempty : s.mbox = none := by simpa using (Bool.and_eq_true_iff.mp hpub).1
      simp [SamplerEffect, SeqMoves, hp, hempty]
    next => split <;> simp [SamplerEffect, SeqMoves]
  all_goals simp [SamplerEffect, SeqMoves, terminateWaiting]

/-! ## The sequencer and the frames offered -/

/-- The step is no step of the sequencer: SEQ, PWAIT and the frames offered are as they were. -/
def SequencerKeeps (s t : State) : Prop :=
  t.seq = s.seq ∧ t.pwait = s.pwait ∧ t.env.frameIn = s.env.frameIn

/-- A step leaves the sequencer alone, or does to it what a step of a cycle does. -/
def SequencerStep (s t : State) : Prop :=
  SequencerKeeps s t ∨ ∃ o v, CycleStepIs o s v ∧ SequencerKeeps v t

theorem execCommand_sequencer {i : Instr} (hi : i.isCommand = true) (hx : exec i s = .next t) :
    SequencerKeeps s t ∨ (s.hphase = .senseCycle ∧ ∃ v, CycleStepIs .host s v ∧ SequencerKeeps v t) := by
  cases i with
  | init c p hh f =>
    left
    obtain ⟨_, rfl⟩ | ⟨d, _, _, rfl⟩ | ⟨d, _, _, rfl⟩ | ⟨var, d, _, _, rfl⟩ | ⟨var, w1, d, _, _, rfl⟩ |
      ⟨txn, a, n, e, _, _, rfl⟩ := execInit_next _ _ _ _ _ _ hx
    · unfold initEntry; (repeat' split) <;> exact ⟨rfl, rfl, rfl⟩
    · unfold initGotChip; split <;> exact ⟨rfl, rfl, rfl⟩
    · unfold initGotVariant; split <;> exact ⟨rfl, rfl, rfl⟩
    · exact ⟨rfl, rfl, rfl⟩
    · exact ⟨rfl, rfl, rfl⟩
    · exact ⟨rfl, rfl, rfl⟩
  | sense =>
    obtain ⟨_, rfl⟩ | ⟨hp, _, hc | ⟨m, v, hc, rfl⟩ | ⟨txn, e, v, hc, rfl⟩⟩ := execSense_next _ _ hx
    · left; unfold senseEntry; (repeat' split) <;> exact ⟨rfl, rfl, rfl⟩
    · exact .inr ⟨hp, t, .inl hc, rfl, rfl, rfl⟩
    · exact .inr ⟨hp, v, .inr (.inl ⟨m, hc⟩), rfl, rfl, rfl⟩
    · exact .inr ⟨hp, v, .inr (.inr ⟨txn, e, hc⟩), rfl, rfl, rfl⟩
  | start ms =>
    left
    simp only [exec, execStart] at hx
    split at hx <;> cases hx
    · split <;> exact ⟨rfl, rfl, rfl⟩
    · unfold startEntry; (repeat' split) <;> exact ⟨rfl, rfl, rfl⟩
  | stop =>
    left
    simp only [exec, execStop] at hx
    split at hx <;> cases hx
    · split <;> exact ⟨rfl, rfl, rfl⟩
    · unfold stopEntry; split <;> exact ⟨rfl, rfl, rfl⟩
  | status => cases hx; exact .inl ⟨rfl, rfl, rfl⟩
  | compT r => left; simp only [exec, execCompT] at hx; split at hx <;> cases hx <;> exact ⟨rfl, rfl, rfl⟩
  | compP r =>
    left
    simp only [exec, execCompP, withTfine] at hx
    (repeat' split at hx) <;> cases hx <;> exact ⟨rfl, rfl, rfl⟩
  | compH r =>
    left
    simp only [exec, execCompH, withTfine] at hx
    (repeat' split at hx) <;> cases hx <;> exact ⟨rfl, rfl, rfl⟩
  | take => cases hi
  | busRdI2c => cases hi
  | busRdSpi => cases hi
  | busWrI2c => cases hi
  | busWrSpi => cases hi

theorem hostStep_sequencer (hx : hostStep s = .next t) : SequencerStep s t := by
  obtain ⟨-, -, rfl⟩ | ⟨s0, -, h0, h1⟩ := hostStep_next _ _ hx
  case inl => exact .inl ⟨rfl, rfl, rfl⟩
  have key : SequencerKeeps s0 t ∨ (s0.hphase = .senseCycle ∧ ∃ v, CycleStepIs .host s0 v ∧ SequencerKeeps v t) := by
    obtain ⟨e, -, rfl⟩ | ⟨i, -, hi, hx⟩ := h1
    · exact .inl ⟨rfl, rfl, rfl⟩
    · exact execCommand_sequencer hi hx
  obtain ⟨-, rfl⟩ | ⟨-, w, rest, -, rfl⟩ := h0
  · exact key.imp_right fun ⟨_, v, hc, hv⟩ => ⟨.host, v, hc, hv⟩
  · obtain hk | ⟨hp, -⟩ := key
    · exact .inl hk
    · cases hp

theorem samplerStep_sequencer {a : Bool} (hx : samplerStep a s = .next t) : SequencerStep s t := by
  obtain ⟨-, rfl⟩ | ⟨-, -, hc | ⟨m, v, hc, rfl⟩ | ⟨txn, e, v, hc, rfl⟩⟩ | ⟨-, -, -, rfl⟩ | ⟨-, -, -, rfl⟩ |
    ⟨-, -, -, rfl⟩ | ⟨-, rfl⟩ | ⟨-, -, rfl⟩ | ⟨-, -, rfl⟩ := samplerStep_next _ _ _ hx
  case inr.inl.inl => exact .inr ⟨.sampler, t, .inl hc, rfl, rfl, rfl⟩
  case inr.inl.inr.inl => exact .inr ⟨.sampler, v, .inr (.inl ⟨m, hc⟩), rfl, rfl, rfl⟩
  case inr.inl.inr.inr => exact .inr ⟨.sampler, v, .inr (.inr ⟨txn, e, hc⟩), rfl, rfl, rfl⟩
  case inr.inr.inr.inr.inr.inl => left; unfold samplerPublishing; (repeat' split) <;> exact ⟨rfl, rfl, rfl⟩
  all_goals exact .inl ⟨rfl, rfl, rfl⟩

theorem consumerStep_sequencer (hx : consumerStep s = .next t) : SequencerKeeps s t := by
  obtain rfl | ⟨rest, rfl⟩ | ⟨s0, h0, h1⟩ := consumerStep_next _ _ hx
  · exact ⟨rfl, rfl, rfl⟩
  · exact ⟨rfl, rfl, rfl⟩
  · have hk : SequencerKeeps s0 t := by
      obtain rfl | hx := h1
      · exact ⟨rfl, rfl, rfl⟩
      · unfold execTake at hx
        (repeat' split at hx) <;> cases hx <;> exact ⟨rfl, rfl, rfl⟩
    obtain rfl | ⟨b, rest, rfl⟩ := h0 <;> exact hk

theorem intervalTimerStep_sequencer : SequencerKeeps s (intervalTimerStep s) := by
  unfold intervalTimerStep
  split <;> exact ⟨rfl, rfl, rfl⟩

/-- A step of a cycle takes no offered frame. -/
theorem cycleStep_frameIn {o : Owner} (hc : CycleStepIs o s t) : t.env.frameIn = s.env.frameIn := by
  obtain hc | ⟨m, hc⟩ | ⟨txn, e, hc⟩ := hc
  · obtain ⟨-, ⟨-, -, rfl⟩ | ⟨-, rfl⟩ | ⟨-, -, rfl⟩ | ⟨-, -, d, -, rfl⟩⟩ := cycleStep_run _ _ _ hc
    · rfl
    · rfl
    · rfl
    · unfold polled; split <;> rfl
  · obtain ⟨-, -, d, -, -, rfl⟩ := cycleStep_done _ _ _ _ hc
    rfl
  · obtain ⟨-, -, -, rfl⟩ := cycleStep_abort _ _ _ _ _ hc
    rfl

theorem SequencerStep.frameIn (h : SequencerStep s t) : t.env.frameIn = s.env.frameIn := by
  obtain ⟨-, -, hf⟩ | ⟨o, v, hc, -, -, hf⟩ := h
  · exact hf
  · exact hf.trans (cycleStep_frameIn hc)

theorem agentStep_frameIn {ev : Event} (hx : agentStep ev s = .next t) (hf : s.env.frameIn = []) :
    t.env.frameIn = [] := by
  cases ev with
  | host => exact (hostStep_sequencer hx).frameIn.trans hf
  | sampler a => exact (samplerStep_sequencer hx).frameIn.trans hf
  | consumer =>
    obtain ⟨-, -, hk⟩ := consumerStep_sequencer hx
    exact hk.trans hf
  | pollTimer => cases hx; unfold pollTimerStep; split <;> exact hf
  | intervalTimer =>
    cases hx
    obtain ⟨-, -, hk⟩ := intervalTimerStep_sequencer (s := s)
    exact hk.trans hf
  | busPort =>
    obtain ⟨-, rfl⟩ | ⟨g, rest, -, hg, -⟩ := busStep_next _ _ hx
    · exact hf
    · rw [hf] at hg; cases hg

/-! ## The frame of the other agents -/

/-- A step of a timer: of the registers of the rules only SEQ's PWAIT and S_PHASE. -/
theorem pollTimerStep_frame : (pollTimerStep s).seq = s.seq ∧ (pollTimerStep s).mbox = s.mbox ∧
    (pollTimerStep s).sPhase = s.sPhase ∧ (pollTimerStep s).sActive = s.sActive ∧
    (pollTimerStep s).sCancel = s.sCancel ∧ (pollTimerStep s).env.hist = s.env.hist ∧
    (pollTimerStep s).bus = s.bus ∧ (pollTimerStep s).par = s.par ∧ (pollTimerStep s).life = s.life ∧
    (pollTimerStep s).cfg = s.cfg ∧ (pollTimerStep s).cal = s.cal ∧ (pollTimerStep s).variant = s.variant := by
  unfold pollTimerStep
  split <;> exact ⟨rfl, rfl, rfl, rfl, rfl, rfl, rfl, rfl, rfl, rfl, rfl, rfl⟩

theorem intervalTimerStep_frame : (intervalTimerStep s).seq = s.seq ∧ (intervalTimerStep s).mbox = s.mbox ∧
    (intervalTimerStep s).sActive = s.sActive ∧ (intervalTimerStep s).sCancel = s.sCancel ∧
    (intervalTimerStep s).env.hist = s.env.hist ∧ (intervalTimerStep s).bus = s.bus ∧
    (intervalTimerStep s).par = s.par ∧ (intervalTimerStep s).life = s.life ∧ (intervalTimerStep s).cfg = s.cfg ∧
    (intervalTimerStep s).cal = s.cal ∧ (intervalTimerStep s).variant = s.variant := by
  unfold intervalTimerStep
  split <;> exact ⟨rfl, rfl, rfl, rfl, rfl, rfl, rfl, rfl, rfl, rfl, rfl⟩

/-- A transaction on its own: one more event in the history, by an agent that may emit, and nothing else but its
result and BUSERR. -/
theorem busStep_frame (hx : busStep s = .next t) : t.seq = s.seq ∧ t.pwait = s.pwait ∧ t.mbox = s.mbox ∧
    t.sPhase = s.sPhase ∧ t.sActive = s.sActive ∧ t.sCancel = s.sCancel ∧ t.bus = s.bus ∧ t.par = s.par ∧
    (t.life = s.life ∧ t.cfg = s.cfg ∧ t.cal = s.cal ∧ t.variant = s.variant) ∧
    (t.env.hist = s.env.hist ∨ ((∃ f ans, t.env.hist = ⟨f, ans⟩ :: s.env.hist) ∧ mayEmit s = true)) := by
  obtain ⟨-, rfl⟩ | ⟨g, rest, s0, -, rfl, hm, f, x, ⟨-, rfl⟩ | ⟨e, -, rfl⟩⟩ := busStep_next _ _ hx
  · exact ⟨rfl, rfl, rfl, rfl, rfl, rfl, rfl, rfl, ⟨rfl, rfl, rfl, rfl⟩, .inl rfl⟩
  · exact ⟨rfl, rfl, rfl, rfl, rfl, rfl, rfl, rfl, ⟨rfl, rfl, rfl, rfl⟩, .inr ⟨⟨f, _, rfl⟩, hm⟩⟩
  · exact ⟨rfl, rfl, rfl, rfl, rfl, rfl, rfl, rfl, ⟨rfl, rfl, rfl, rfl⟩, .inr ⟨⟨f, _, rfl⟩, hm⟩⟩

/-! ## What never changes -/

theorem agentStep_bus_par {ev : Event} (hx : agentStep ev s = .next t) : t.bus = s.bus ∧ t.par = s.par := by
  cases ev with
  | host => obtain ⟨hb, hp, -⟩ := hostStep_frame hx; exact ⟨hb, hp⟩
  | sampler a => obtain ⟨hb, hp, -⟩ := samplerStep_frame hx; exact ⟨hb, hp⟩
  | consumer => obtain ⟨-, -, -, -, -, -, -, hb, hp, -⟩ := consumerStep_frame hx; exact ⟨hb, hp⟩
  | pollTimer => cases hx; obtain ⟨-, -, -, -, -, -, hb, hp, -⟩ := pollTimerStep_frame (s := s); exact ⟨hb, hp⟩
  | intervalTimer => cases hx; obtain ⟨-, -, -, -, -, hb, hp, -⟩ := intervalTimerStep_frame (s := s); exact ⟨hb, hp⟩
  | busPort => obtain ⟨-, -, -, -, -, -, hb, hp, -⟩ := busStep_frame hx; exact ⟨hb, hp⟩

/-- A READY block keeps what INIT committed: INIT is not in progress on it (R185). -/
theorem Inv.agentStep_committed (h : Inv s) (hl : s.life = .ready) {ev : Event} (hx : Machine.agentStep ev s = .next t) :
    t.life = s.life ∧ t.cfg = s.cfg ∧ t.cal = s.cal ∧ t.variant = s.variant := by
  cases ev with
  | host =>
    obtain ⟨-, -, -, -, -, -, -, hk | hu | hi, -⟩ := hostStep_frame hx
    · exact hk
    · exact absurd hl hu
    · exact absurd hl (h.unready_of_init hi)
  | sampler a => obtain ⟨-, -, -, hk, -⟩ := samplerStep_frame hx; exact hk
  | consumer => obtain ⟨-, -, -, h1, h2, h3, h4, -⟩ := consumerStep_frame hx; exact ⟨h1, h2, h3, h4⟩
  | pollTimer => cases hx; obtain ⟨-, -, -, -, -, -, -, -, hk⟩ := pollTimerStep_frame (s := s); exact hk
  | intervalTimer => cases hx; obtain ⟨-, -, -, -, -, -, -, hk⟩ := intervalTimerStep_frame (s := s); exact hk
  | busPort => obtain ⟨-, -, -, -, -, -, -, -, hk, -⟩ := busStep_frame hx; exact hk

/-- Settles O60: BUS and the parameters by the frame of each agent, the committed registers under the invariant. -/
theorem configurationIsImmutable : Obligations.ConfigurationIsImmutable := by
  intro s t hx
  obtain ⟨hb, hp⟩ := agentStep_bus_par hx
  refine ⟨hb, hp, fun h hl => ?_⟩
  obtain ⟨h1, hk⟩ := h.advance.agentStep_committed hl hx
  exact ⟨h1.trans hl, hk⟩

/-! ## Who emits -/

theorem mayEmit_iff : mayEmit s = true ↔ s.lock ≠ .free ∨ s.hphase.inInit = true := by
  simp [mayEmit]

/-- Settles O59: the history under each agent's frame. -/
theorem oneOwnerOfTheBus : Obligations.OneOwnerOfTheBus := by
  intro s t hx
  unfold step at hx
  cases hev : nextEvent s with
  | host =>
    rw [hev] at hx
    obtain ⟨-, -, -, -, -, -, hh, -⟩ := hostStep_frame hx
    exact hh.imp_right fun ⟨he, ho⟩ => ⟨he, .inl ⟨rfl, ho⟩⟩
  | sampler a =>
    rw [hev] at hx
    obtain ⟨-, -, -, -, -, hh, -⟩ := samplerStep_frame hx
    exact hh.imp_right fun ⟨he, ho⟩ => ⟨he, .inr (.inl ⟨a, rfl, ho⟩)⟩
  | consumer =>
    rw [hev] at hx
    obtain ⟨hh, -⟩ := consumerStep_frame hx
    exact .inl hh
  | pollTimer =>
    rw [hev] at hx
    cases hx
    obtain ⟨-, -, -, -, -, hh, -⟩ := pollTimerStep_frame (s := advance s)
    exact .inl hh
  | intervalTimer =>
    rw [hev] at hx
    cases hx
    obtain ⟨-, -, -, -, hh, -⟩ := intervalTimerStep_frame (s := advance s)
    exact .inl hh
  | busPort =>
    rw [hev] at hx
    obtain ⟨-, -, -, -, -, -, -, -, -, hh⟩ := busStep_frame hx
    exact hh.imp_right fun ⟨he, ho⟩ => ⟨he, .inr (.inr ⟨rfl, mayEmit_iff.mp ho⟩)⟩

/-! ## How SEQ moves -/

theorem agentStep_seqMoves {ev : Event} (hx : agentStep ev s = .next t) : SeqMoves s t := by
  cases ev with
  | host => obtain ⟨-, -, -, -, -, -, -, -, hm⟩ := hostStep_frame hx; exact hm
  | sampler a => obtain ⟨-, -, -, -, -, -, hm⟩ := samplerStep_frame hx; exact hm
  | consumer => obtain ⟨hs, -⟩ := consumerStep_sequencer hx; exact .inl hs
  | pollTimer => cases hx; obtain ⟨hs, -⟩ := pollTimerStep_frame (s := s); exact .inl hs
  | intervalTimer => cases hx; obtain ⟨hs, -⟩ := intervalTimerStep_frame (s := s); exact .inl hs
  | busPort => obtain ⟨hs, -⟩ := busStep_frame hx; exact .inl hs

/-- Settles O38: only a step of a cycle moves SEQ, by its five transitions or by its abort. -/
theorem sequencerTransitions : Obligations.SequencerTransitions := fun s _ hx =>
  agentStep_seqMoves (s := advance s) hx

/-! ## The mailbox -/

/-- MBOX under a step: as it was, delivered to the consumer, or filled by the publish of S_PENDING. -/
theorem agentStep_mbox {ev : Event} (hx : agentStep ev s = .next t) :
    t.mbox = s.mbox ∨ (∃ m, s.mbox = some m ∧ t.mbox = none ∧ ∃ k, t.cresp = Resp.measured k m) ∨
    (s.mbox = none ∧ s.sPhase = .publishing ∧ t.mbox = s.sPending ∧ t.sPhase = .waiting) := by
  cases ev with
  | host => obtain ⟨-, -, hm, -⟩ := hostStep_frame hx; exact .inl hm
  | sampler a => obtain ⟨-, -, -, -, hm, -⟩ := samplerStep_frame hx; exact hm.imp_right .inr
  | consumer =>
    obtain ⟨-, -, -, -, -, -, -, -, -, -, -, -, -, -, -, hm⟩ := consumerStep_frame hx
    exact hm.imp_right .inl
  | pollTimer => cases hx; obtain ⟨-, hm, -⟩ := pollTimerStep_frame (s := s); exact .inl hm
  | intervalTimer => cases hx; obtain ⟨-, hm, -⟩ := intervalTimerStep_frame (s := s); exact .inl hm
  | busPort => obtain ⟨-, -, hm, -⟩ := busStep_frame hx; exact .inl hm

/-- Settles O48: a full MBOX has the first two ways only, an empty one the first and the third. -/
theorem mailboxHandsOverInOrder : Obligations.MailboxHandsOverInOrder := by
  intro s t hx
  have hm := agentStep_mbox (s := advance s) hx
  simp only [advance_mbox, advance_sPhase, advance_sPending] at hm
  refine ⟨fun m hfull => ?full, fun hempty => ?empty⟩
  case full =>
    obtain hk | ⟨m', hm', ht, k, hr⟩ | ⟨he, -⟩ := hm
    · exact .inl (hk.trans hfull)
    · cases hfull.symm.trans hm'
      refine .inr ⟨ht, ?_⟩
      rw [hr]
      exact ⟨rfl, rfl, rfl, rfl, fun x hxh => by simp [Resp.measured, hxh]⟩
    · rw [hfull] at he; cases he
  case empty =>
    obtain hk | ⟨m', hm', -⟩ | ⟨-, hpub⟩ := hm
    · exact .inl (hk.trans hempty)
    · rw [hempty] at hm'; cases hm'
    · exact .inr hpub

/-! ## The end of a run -/

/-- What the end of a run leaves (R228): the run's registers cleared, MBOX and S_INTERVAL kept, the sequencer asleep
and not the sampler's, and S_ERR as it was or the error of the transaction that failed in this step. -/
def RunEnded (s t : State) : Prop :=
  t.sPhase = .idle ∧ t.sCancel = false ∧ t.sPending = none ∧ t.mbox = s.mbox ∧ t.lock ≠ .sampler ∧
  t.seq = .sleep ∧ t.sInterval = s.sInterval ∧
  (t.sErr = s.sErr ∨
    ∃ f txn, t.env.hist = ⟨f, .err t.buserr⟩ :: s.env.hist ∧
      t.sErr = some ⟨.transportError, txn, t.buserr⟩ ∧
      ((s.seq = .sleep ∧ txn = txnTrigger ∧ f = memWriteFrame (triggerPairs s.par s.cfg) s) ∨
       (s.seq = .polling ∧ txn = txnStatus ∧ f = memReadFrame s.par.regStatus 1 s) ∨
       (s.seq = .dataReady ∧ txn = txnData ∧ f = memReadFrame s.par.regData s.par.lenData s)))

/-- With a run active the host is in no cycle, so a LOCK that is not the sampler's is free and SEQ asleep. -/
theorem Inv.sleep_of_active (h : Inv s) (ha : s.sActive = true) (hl : s.lock ≠ .sampler) : s.seq = .sleep := by
  refine h.sleep_of_free ?_
  cases ho : s.lock with
  | free => rfl
  | host =>
    have := h.inactive_of_sense (h.host_iff.mp ho)
    rw [ha] at this
    cases this
  | sampler => exact absurd ho hl

/-- Only a step of the sampler ends a run. -/
theorem sActive_of_other_agent {ev : Event} (hev : ev.agent ≠ .sampler) (hx : agentStep ev s = .next t)
    (ha : s.sActive = true) : t.sActive = true := by
  cases ev with
  | host =>
    obtain ⟨-, -, -, -, -, ⟨-, hk, -⟩ | ⟨-, hk, -⟩, -⟩ := hostStep_frame hx
    · exact hk.trans ha
    · exact hk
  | sampler a => exact absurd rfl hev
  | consumer => obtain ⟨-, -, -, -, -, -, -, -, -, -, hk, -⟩ := consumerStep_frame hx; exact hk.trans ha
  | pollTimer => cases hx; obtain ⟨-, -, -, hk, -⟩ := pollTimerStep_frame (s := s); exact hk.trans ha
  | intervalTimer => cases hx; obtain ⟨-, -, hk, -⟩ := intervalTimerStep_frame (s := s); exact hk.trans ha
  | busPort => obtain ⟨-, -, -, -, hk, -⟩ := busStep_frame hx; exact hk.trans ha

theorem recordTxn_hist {f : BusFrame} {ans : BusAnswer} (ha : answerOf f s = ans) :
    (recordTxn f s).env.hist = ⟨f, ans⟩ :: s.env.hist := by
  simp [ha]

/-- What the end of a run without an error leaves (R228, R229). -/
theorem Inv.terminate_none_clean (h : Inv s) (ha : s.sActive = true) (hl : s.lock ≠ .sampler) :
    RunEnded s (Machine.terminate none s) :=
  ⟨rfl, rfl, rfl, rfl, hl, h.sleep_of_active ha hl, rfl, .inl rfl⟩

theorem Inv.samplerStep_ends (h : Inv s) {a : Bool} (ha : s.sActive = true) (hx : Machine.samplerStep a s = .next t)
    (ht : t.sActive = false) : RunEnded s t := by
  have contra : t.sActive = s.sActive → RunEnded s t := fun hk => by rw [hk, ha] at ht; cases ht
  obtain ⟨-, rfl⟩ | ⟨-, -, hc | ⟨m, v, hc, rfl⟩ | ⟨txn, e, v, hc, rfl⟩⟩ | ⟨-, hl, -, rfl⟩ | ⟨-, -, -, rfl⟩ |
    ⟨-, -, -, rfl⟩ | ⟨hp, rfl⟩ | ⟨hw, -, rfl⟩ | ⟨-, -, rfl⟩ := samplerStep_next _ _ _ hx
  case inr.inl.inl =>
    obtain ⟨⟨-, -, -, -, -, -, -, -, -, -, hk, -⟩, -⟩ := cycleStep_frame .sampler (.inl hc)
    exact contra hk
  case inr.inl.inr.inl =>
    obtain ⟨⟨-, -, -, -, -, -, -, -, -, -, hk, -⟩, -⟩ := cycleStep_frame .sampler (.inr (.inl ⟨m, hc⟩))
    exact contra hk
  case inr.inl.inr.inr =>
    obtain ⟨-, hwhich, ha, rfl⟩ := cycleStep_abort _ _ _ _ _ hc
    refine ⟨rfl, rfl, rfl, rfl, nofun, rfl, rfl, .inr ⟨cycleFrame s, txn, recordTxn_hist ha, rfl, ?_⟩⟩
    obtain ⟨hs, rfl⟩ | ⟨hs, -, rfl⟩ | ⟨hs, rfl⟩ := hwhich
    · exact .inl ⟨hs, rfl, by simp only [cycleFrame, hs]⟩
    · exact .inr (.inl ⟨hs, rfl, by simp only [cycleFrame, hs]⟩)
    · exact .inr (.inr ⟨hs, rfl, by simp only [cycleFrame, hs]⟩)
  case inr.inr.inl => exact h.terminate_none_clean ha hl
  case inr.inr.inr.inr.inr.inl =>
    unfold Machine.samplerPublishing at ht contra ⊢
    split at ht
    next hpub => rw [if_pos hpub] at contra ⊢; exact contra rfl
    next hpub =>
      rw [if_neg hpub] at contra ⊢
      split at ht
      next hcan =>
        rw [if_pos hcan]
        exact h.terminate_none_clean ha (h.not_sampler_lock (by rw [hp]; nofun))
      next hcan => rw [if_neg hcan] at contra ⊢; exact contra rfl
  case inr.inr.inr.inr.inr.inr.inl =>
    exact h.terminate_none_clean ha (h.not_sampler_lock (by rw [hw]; nofun))
  all_goals exact contra rfl

/-- Settles O40: only the sampler's step ends a run, by TERMINATE alone or by an abort with its error. -/
theorem runEndsCleanly : Obligations.RunEndsCleanly := by
  intro s t h hx ha ht
  unfold step at hx
  by_cases hev : (nextEvent s).agent = .sampler
  · cases hn : nextEvent s with
    | sampler a =>
      rw [hn] at hx
      exact h.advance.samplerStep_ends ha hx ht
    | _ => rw [hn] at hev; cases hev
  · have := sActive_of_other_agent hev hx ha
    rw [ht] at this
    cases this

/-! ## No fault is reached -/

/-- A step of a cycle goes on or ends, for the owner of LOCK with its reads in range (R264). -/
theorem cycleStep_completes {o : Owner} (hl : s.lock = o) (hr : s.par.readsInRange = true) :
    ∃ v, CycleStepIs o s v := by
  simp only [Params.readsInRange, Bool.and_eq_true] at hr
  obtain ⟨⟨-, hstatus⟩, hdata⟩ := hr
  cases hc : cycleStep o s with
  | run v => exact ⟨v, .inl hc⟩
  | done m v => exact ⟨v, .inr (.inl ⟨m, hc⟩)⟩
  | abort txn e v => exact ⟨v, .inr (.inr ⟨txn, e, hc⟩)⟩
  | stop f =>
    obtain hn | hn | hn := cycleStep_stop _ _ _ hc
    · exact absurd hl hn
    · rw [hstatus] at hn; cases hn
    · rw [hdata] at hn; cases hn

theorem release_of_owner {o : Owner} (hl : s.lock = o) (k : State → Out) :
    release o s k = k { s with lock := .free } := if_pos hl

theorem senseCycle_abort {v : State} {txn : Byte} {e : BusErr} (hc : cycleStep .host s = .abort txn e v)
    (hl : v.lock = .host) :
    senseCycle s = .next (respond (fun k => .transport k v.par txn e) { v with lock := .free }) := by
  simp only [senseCycle, hc, release_of_owner hl]

theorem senseCycle_completes (hl : s.lock = .host) (hr : s.par.readsInRange = true) :
    ∃ t, senseCycle s = .next t := by
  obtain ⟨v, hv⟩ := cycleStep_completes hl hr
  obtain ⟨⟨hkeep, -⟩, -⟩ := cycleStep_frame _ hv
  obtain hc | ⟨m, hc⟩ | ⟨txn, e, hc⟩ := hv
  · exact ⟨_, senseCycle_run s hc⟩
  · exact ⟨_, senseCycle_done s hc (hkeep.trans hl)⟩
  · exact ⟨_, senseCycle_abort hc (hkeep.trans hl)⟩

theorem samplerCycle_run {v : State} (hc : cycleStep .sampler s = .run v) : samplerCycle s = .next v := by
  simp only [samplerCycle, hc]

theorem samplerCycle_done {v : State} {m : Measurement} (hc : cycleStep .sampler s = .done m v)
    (hl : v.lock = .sampler) : samplerCycle s = .next (handOver m { v with lock := .free }) := by
  simp only [samplerCycle, hc, release_of_owner hl]

theorem samplerCycle_abort {v : State} {txn : Byte} {e : BusErr} (hc : cycleStep .sampler s = .abort txn e v)
    (hl : v.lock = .sampler) :
    samplerCycle s = .next (terminate (some ⟨.transportError, txn, e⟩) { v with lock := .free }) := by
  simp only [samplerCycle, hc, release_of_owner hl]

theorem samplerCycle_completes (hl : s.lock = .sampler) (hr : s.par.readsInRange = true) :
    ∃ t, samplerCycle s = .next t := by
  obtain ⟨v, hv⟩ := cycleStep_completes hl hr
  obtain ⟨⟨hkeep, -⟩, -⟩ := cycleStep_frame _ hv
  obtain hc | ⟨m, hc⟩ | ⟨txn, e, hc⟩ := hv
  · exact ⟨_, samplerCycle_run hc⟩
  · exact ⟨_, samplerCycle_done hc (hkeep.trans hl)⟩
  · exact ⟨_, samplerCycle_abort hc (hkeep.trans hl)⟩

theorem samplerStep_completes (a : Bool) (hr : s.par.readsInRange = true) : ∃ t, samplerStep a s = .next t := by
  unfold samplerStep
  split
  next => exact ⟨_, rfl⟩
  next =>
    unfold samplerMeasuring
    split
    next hl => exact samplerCycle_completes hl hr
    next => (repeat' split) <;> exact ⟨_, rfl⟩
  next => exact ⟨_, rfl⟩
  next => split <;> exact ⟨_, rfl⟩

theorem withTfine_completes (k : State → State) : ∃ t, withTfine s k = .next t := by
  unfold withTfine
  (repeat' split) <;> exact ⟨_, rfl⟩

theorem Inv.execCommand_completes (h : Inv s) (hr : s.par.readsInRange = true) {i : Instr}
    (hi : i.isCommand = true) : ∃ t, exec i s = .next t := by
  cases i with
  | init c p q f => exact execInit_completes c p q f s hr
  | sense =>
    simp only [exec, Machine.execSense]
    split
    next hp => exact senseCycle_completes (h.host_iff.mpr hp) hr
    next => exact ⟨_, rfl⟩
  | start ms => simp only [exec, Machine.execStart]; split <;> exact ⟨_, rfl⟩
  | stop => simp only [exec, Machine.execStop]; split <;> exact ⟨_, rfl⟩
  | status => exact ⟨_, rfl⟩
  | compT raw => simp only [exec, execCompT]; split <;> exact ⟨_, rfl⟩
  | compP raw => simp only [exec, execCompP]; exact withTfine_completes _
  | compH raw => simp only [exec, execCompH]; exact withTfine_completes _
  | take => cases hi
  | busRdI2c => cases hi
  | busRdSpi => cases hi
  | busWrI2c => cases hi
  | busWrSpi => cases hi

theorem Inv.hostRun_completes (h : Inv s) (hr : s.par.readsInRange = true) : ∃ t, hostRun s = .next t := by
  unfold hostRun
  split
  next i hd => exact h.execCommand_completes hr (decodeCmd_isCommand _ _ hd)
  next => exact ⟨_, rfl⟩

theorem consumerRun_completes (b : Byte) : ∃ t, consumerRun b s = .next t := by
  unfold consumerRun
  split
  next i hd =>
    rw [decodeCons_take b i hd]
    simp only [exec, execTake]
    (repeat' split) <;> exact ⟨_, rfl⟩
  next => exact ⟨_, rfl⟩

theorem Inv.agentStep_completes (h : Inv s) (hr : s.par.readsInRange = true) (hf : s.env.frameIn = []) (ev : Event) :
    ∃ t, Machine.agentStep ev s = .next t := by
  cases ev with
  | host =>
    simp only [Machine.agentStep, Machine.hostStep]
    split
    next => exact h.hostRun_completes hr
    next hb =>
      split
      next => exact ⟨_, rfl⟩
      next w rest _ => exact (h.acceptCmd (by simpa using hb) w rest).hostRun_completes hr
  | sampler a => exact samplerStep_completes a hr
  | consumer =>
    simp only [Machine.agentStep, Machine.consumerStep]
    split
    next => exact ⟨_, rfl⟩
    next => exact consumerRun_completes _
    next => split; exacts [⟨_, rfl⟩, consumerRun_completes _, consumerRun_completes _]
  | pollTimer => exact ⟨_, rfl⟩
  | intervalTimer => exact ⟨_, rfl⟩
  | busPort => exact ⟨s, by simp only [Machine.agentStep, Machine.busStep, hf]⟩

/-- Settles O58: every agent's step answers a next state, and the premises on the inputs are kept. -/
theorem noFaultIsReached : Obligations.NoFaultIsReached := by
  intro s h hr hf
  obtain ⟨t, ht⟩ := h.advance.agentStep_completes hr hf (nextEvent s)
  obtain ⟨-, hpar⟩ := agentStep_bus_par ht
  exact ⟨t, ht, agentStep_frameIn ht hf, hpar⟩

/-! ## Reset -/

/-- Settles O55: the reset state gives each register its value. -/
theorem resetRegisters : Obligations.ResetRegisters :=
  ⟨rfl, rfl, rfl, rfl, rfl, rfl, rfl, rfl, rfl, rfl, rfl, rfl, rfl, rfl, rfl, rfl, rfl⟩

/-- Settles O56: at reset LOCK is free, no run is active, no command is in progress and the block is not READY. -/
theorem resetMeetsTheInvariant : Obligations.ResetMeetsTheInvariant where
  idle_iff := iff_of_true rfl rfl
  sleep_of_free _ := rfl
  polling_of_wait := nofun
  measuring_of_lock := nofun
  host_iff := iff_of_false nofun nofun
  inactive_of_sense := nofun
  ready_of_lock hl := absurd rfl hl
  ready_of_active := nofun
  active_of_cancel := nofun
  pending_iff := iff_of_false nofun nofun
  ready_of_tfine := nofun
  cfg_of_ready := nofun
  unready_of_init := nofun
  ready_of_start := nofun
  place hp := absurd rfl hp
  polled_of_data := nofun

end Sys2Proof.Machine
end

section
/-! PROOF. Infinite runs (R76, R311, R313, I20): the scheduler gives every agent its turn again and again, and with the
frames of the agents' steps a delay that is awaited ends, and so does a run that is asked to stop after its cycle. -/

namespace Sys2Proof.Machine

variable {s t : State} {r : Nat → State}

/-! ## The scheduler along a run -/

/-- Along a run the scheduler's fields follow `Env.advance`: no agent writes them. -/
theorem IsRun.sched (hr : IsRun r) (n : Nat) : SchedKeeps (advance (r n)) (r (n + 1)) := agentStep_sched _ (hr n)

theorem IsRun.sched_nil (hr : IsRun r) {n : Nat} (h : (r n).env.sched = []) : (r (n + 1)).env.sched = [] := by
  obtain ⟨hs, -⟩ := hr.sched n
  rw [hs]
  show (r n).env.sched.tail = []
  rw [h]
  rfl

/-- The choices that stand in `sched` are used up. -/
theorem IsRun.sched_empties (hr : IsRun r) (n : Nat) : ∃ m, n ≤ m ∧ (r m).env.sched = [] := by
  induction hk : (r n).env.sched.length generalizing n with
  | zero => exact ⟨n, le_rfl, List.length_eq_zero_iff.mp hk⟩
  | succ k ih =>
    have hlen : (r (n + 1)).env.sched.length = k := by
      obtain ⟨hs, -⟩ := hr.sched n
      rw [hs]
      show (r n).env.sched.tail.length = k
      rw [List.length_tail, hk]
      rfl
    obtain ⟨m, hm, hnil⟩ := ih (n + 1) hlen
    exact ⟨m, (Nat.le_succ n).trans hm, hnil⟩

theorem atTurn_iff {e : Env} : e.atTurn = true ↔ e.sched = [] ∧ e.patience = 0 := by
  simp [Env.atTurn]

/-- The free choices before a turn come to an end. -/
theorem IsRun.turn_comes (hr : IsRun r) {n : Nat} (h : (r n).env.sched = []) :
    ∃ m, n ≤ m ∧ (r m).env.atTurn = true ∧ (r m).env.turn = (r n).env.turn := by
  induction hk : (r n).env.patience generalizing n with
  | zero => exact ⟨n, le_rfl, atTurn_iff.mpr ⟨h, hk⟩, rfl⟩
  | succ k ih =>
    have hno : (r n).env.atTurn = false := by
      rw [Bool.eq_false_iff, ne_eq, atTurn_iff, hk]
      exact fun ⟨_, h0⟩ => nomatch h0
    obtain ⟨-, -, hturn, hpat⟩ := hr.sched n
    have hturn' : (r (n + 1)).env.turn = (r n).env.turn := by
      rw [hturn]
      show (if (r n).env.atTurn then _ else _) = _
      rw [hno]
      rfl
    have hpat' : (r (n + 1)).env.patience = k := by
      rw [hpat]
      show (if (r n).env.atTurn then _ else _) = _
      rw [hno, if_neg Bool.false_ne_true, hk]
      rfl
    obtain ⟨m, hm, ht, htm⟩ := ih (hr.sched_nil h) hpat'
    exact ⟨m, (Nat.le_succ n).trans hm, ht, htm.trans hturn'⟩

/-- Every later turn comes. -/
theorem IsRun.turn_comes_add (hr : IsRun r) {n : Nat} (h : (r n).env.sched = []) (j : Nat) :
    ∃ m, n ≤ m ∧ (r m).env.atTurn = true ∧ (r m).env.turn = (r n).env.turn + j := by
  induction j with
  | zero => exact hr.turn_comes h
  | succ j ih =>
    obtain ⟨m, hm, hat, htm⟩ := ih
    obtain ⟨-, -, hturn, -⟩ := hr.sched m
    have hturn' : (r (m + 1)).env.turn = (r n).env.turn + (j + 1) := by
      rw [hturn]
      show (if (r m).env.atTurn then _ else _) = _
      rw [if_pos hat, htm]
      rfl
    obtain ⟨l, hl, hatl, htl⟩ := hr.turn_comes (hr.sched_nil (atTurn_iff.mp hat).1)
    exact ⟨l, hm.trans ((Nat.le_succ m).trans hl), hatl, htl.trans hturn'⟩

/-- The turns go round: after any turn comes one of the agent's. -/
theorem exists_turnOf (g : Agent) (n : Nat) : ∃ j, turnOf (n + j) = g := by
  obtain ⟨i, hi⟩ : ∃ i, turnOf i = g := by
    cases g
    exacts [⟨0, rfl⟩, ⟨1, rfl⟩, ⟨2, rfl⟩, ⟨3, rfl⟩, ⟨4, rfl⟩, ⟨5, rfl⟩]
  refine ⟨i + 5 * n, ?_⟩
  rw [← hi, turnOf, turnOf, show (n + (i + 5 * n)) % 6 = i % 6 by omega]

theorem nextEvent_agent_of_turn (h : s.env.atTurn = true) : (nextEvent s).agent = turnOf s.env.turn := by
  simp only [nextEvent, (atTurn_iff.mp h).1, h, if_true, Agent.event_agent]

/-- A step of each agent comes after every point of a run. -/
theorem IsRun.agent_steps (hr : IsRun r) (g : Agent) (n : Nat) : ∃ m, n ≤ m ∧ (nextEvent (r m)).agent = g := by
  obtain ⟨k, hk, hnil⟩ := hr.sched_empties n
  obtain ⟨j, hj⟩ := exists_turnOf g (r k).env.turn
  obtain ⟨m, hm, hat, hturn⟩ := hr.turn_comes_add hnil j
  exact ⟨m, hk.trans hm, by rw [nextEvent_agent_of_turn hat, hturn, hj]⟩

/-- Settles O53: every agent's step recurs, whether or not it is enabled. -/
theorem runsAreWeaklyFair : Obligations.RunsAreWeaklyFair :=
  fun _ hr => ⟨fun g n _ => hr.agent_steps g n, hr.agent_steps⟩

/-- What a step keeps until q holds is still there at the first state in which q holds, and q not before. -/
theorem exists_first {p q : Nat → Prop} {n m : Nat} (hnm : n ≤ m) (hq : q m) (h0 : p n)
    (hstep : ∀ k, n ≤ k → p k → ¬ q k → p (k + 1)) :
    ∃ j, n ≤ j ∧ q j ∧ p j ∧ ∀ k, n ≤ k → k < j → p k ∧ ¬ q k := by
  classical
  have hex : ∃ j, n ≤ j ∧ q j := ⟨m, hnm, hq⟩
  have hno : ∀ k, n ≤ k → k < Nat.find hex → ¬ q k := fun k hk hlt hqk => Nat.find_min hex hlt ⟨hk, hqk⟩
  have hp : ∀ k, n ≤ k → k ≤ Nat.find hex → p k := by
    intro k hk
    induction k, hk using Nat.le_induction with
    | base => exact fun _ => h0
    | succ k hk ih => exact fun hle => hstep k hk (ih (by omega)) (hno k hk (by omega))
  obtain ⟨hn, hqj⟩ := Nat.find_spec hex
  exact ⟨_, hn, hqj, hp _ hn le_rfl, fun k hk hlt => ⟨hp k hk hlt.le, hno k hk hlt⟩⟩

/-! ## The inter-poll delay -/

/-- An agent in the inter-poll delay has no step of the cycle (R194). -/
theorem cycleStep_in_delay {o : Owner} (hs : s.seq = .polling) (hp : s.pwait = true) (hc : CycleStepIs o s t) :
    t = s := by
  obtain hc | ⟨m, hc⟩ | ⟨txn, e, hc⟩ := hc
  · obtain ⟨-, ⟨hn, -⟩ | ⟨hn, -⟩ | ⟨-, -, rfl⟩ | ⟨-, hn, -⟩⟩ := cycleStep_run _ _ _ hc
    · rw [hs] at hn; cases hn
    · rw [hs] at hn; cases hn
    · rfl
    · rw [hp] at hn; cases hn
  · obtain ⟨-, hn, -⟩ := cycleStep_done _ _ _ _ hc
    rw [hs] at hn; cases hn
  · obtain ⟨-, ⟨hn, -⟩ | ⟨-, hn, -⟩ | ⟨hn, -⟩, -⟩ := cycleStep_abort _ _ _ _ _ hc
    · rw [hs] at hn; cases hn
    · rw [hp] at hn; cases hn
    · rw [hs] at hn; cases hn

/-- Only the timer ends an inter-poll delay. -/
theorem delay_kept_of_other_event {ev : Event} (hev : ev ≠ .pollTimer) (hx : agentStep ev s = .next t)
    (hs : s.seq = .polling) (hp : s.pwait = true) : t.seq = .polling ∧ t.pwait = true := by
  have key : SequencerStep s t → t.seq = .polling ∧ t.pwait = true := by
    rintro (⟨h1, h2, -⟩ | ⟨o, v, hc, h1, h2, -⟩)
    · exact ⟨h1.trans hs, h2.trans hp⟩
    · cases cycleStep_in_delay hs hp hc
      exact ⟨h1.trans hs, h2.trans hp⟩
  cases ev with
  | host => exact key (hostStep_sequencer hx)
  | sampler a => exact key (samplerStep_sequencer hx)
  | consumer => exact key (.inl (consumerStep_sequencer hx))
  | pollTimer => exact absurd rfl hev
  | intervalTimer => cases hx; exact key (.inl intervalTimerStep_sequencer)
  | busPort => obtain ⟨h1, h2, -⟩ := busStep_frame hx; exact ⟨h1.trans hs, h2.trans hp⟩

theorem eq_pollTimer_of_agent {ev : Event} (h : ev.agent = .pollTimer) : ev = .pollTimer := by
  cases ev with
  | pollTimer => rfl
  | _ => cases h

theorem eq_intervalTimer_of_agent {ev : Event} (h : ev.agent = .intervalTimer) : ev = .intervalTimer := by
  cases ev with
  | intervalTimer => rfl
  | _ => cases h

theorem eq_sampler_of_agent {ev : Event} (h : ev.agent = .sampler) : ∃ a, ev = .sampler a := by
  cases ev with
  | sampler a => exact ⟨a, rfl⟩
  | _ => cases h

/-- Every inter-poll delay ends by the timer's step T4. -/
theorem IsRun.pollDelay_ends (hr : IsRun r) {n : Nat} (hs : (r n).seq = .polling) (hp : (r n).pwait = true) :
    ∃ m, n ≤ m ∧ nextEvent (r m) = .pollTimer ∧ (r m).pwait = true ∧
      (r (m + 1)).seq = .polling ∧ (r (m + 1)).pwait = false := by
  obtain ⟨l, hl, hturn⟩ := hr.agent_steps .pollTimer n
  obtain ⟨m, hm, hev, ⟨hsm, hpm⟩, -⟩ := exists_first (p := fun k => (r k).seq = .polling ∧ (r k).pwait = true)
    (q := fun k => nextEvent (r k) = .pollTimer) hl (eq_pollTimer_of_agent hturn) ⟨hs, hp⟩
    fun k _ ⟨h1, h2⟩ hno => delay_kept_of_other_event hno (hr k) h1 h2
  have hx := hr m
  unfold step at hx
  rw [hev] at hx
  have hnext : endPollDelay (advance (r m)) = r (m + 1) := by
    simpa only [agentStep, pollTimerStep, advance_seq, advance_pwait, hsm, hpm, and_self, if_true,
      Host.Outcome.next.injEq] using hx
  exact ⟨m, hm, hev, hpm, by rw [← hnext]; exact hsm, by rw [← hnext]; rfl⟩

/-! ## A run that waits, and a run that is asked to stop -/

/-- Agents other than the sampler and its timer leave the phase of a run alone, and a stop request stands; the host may
launch a run where none is active. -/
theorem phase_of_other_agent {ev : Event} (h1 : ev.agent ≠ .sampler) (h2 : ev.agent ≠ .intervalTimer)
    (hx : agentStep ev s = .next t) :
    (t.sPhase = s.sPhase ∧ (s.sCancel = true → t.sCancel = true)) ∨ (s.sActive = false ∧ t.sPhase = .measuring) := by
  cases ev with
  | host =>
    obtain ⟨-, -, -, -, -, ⟨hp, -, -, -, -, hc⟩ | ⟨ha, -, hp, -⟩, -⟩ := hostStep_frame hx
    · exact .inl ⟨hp, fun h => hc.elim (·.trans h) id⟩
    · exact .inr ⟨ha, hp⟩
  | sampler a => exact absurd rfl h1
  | consumer =>
    obtain ⟨-, -, -, -, -, -, -, -, -, hp, -, hc, -⟩ := consumerStep_frame hx
    exact .inl ⟨hp, hc.trans⟩
  | pollTimer =>
    cases hx
    obtain ⟨-, -, hp, -, hc, -⟩ := pollTimerStep_frame (s := s)
    exact .inl ⟨hp, hc.trans⟩
  | intervalTimer => exact absurd rfl h2
  | busPort =>
    obtain ⟨-, -, -, hp, -, hc, -⟩ := busStep_frame hx
    exact .inl ⟨hp, hc.trans⟩

/-- W1: in WAITING a stop request is taken at the sampler's next step. -/
theorem samplerStep_waiting_cancel {a : Bool} (hw : s.sPhase = .waiting) (hc : s.sCancel = true) :
    samplerStep a s = .next (terminateWaiting s) := by
  simp only [samplerStep, hw, hc, if_true]

/-- A stop request in PUBLISHING: the sampler's step publishes or ends the run (R226). -/
theorem samplerStep_publishing_cancel {a : Bool} (hp : s.sPhase = .publishing) (hc : s.sCancel = true) :
    samplerStep a s = .next (publish s) ∨ samplerStep a s = .next (terminate none s) := by
  simp only [samplerStep, hp, samplerPublishing, hc, Bool.true_and, if_true]
  split
  exacts [.inl rfl, .inr rfl]

theorem intervalTimerStep_cancel (hc : s.sCancel = true) : intervalTimerStep s = s := by
  simp [intervalTimerStep, hc]

theorem intervalTimerStep_waiting (hw : s.sPhase = .waiting) (hc : s.sCancel = false) :
    intervalTimerStep s = nextCycle s := by
  simp [intervalTimerStep, hw, hc]

/-- A run that is past its cycle and is asked to stop. -/
def Stopping (s : State) : Prop :=
  s.sCancel = true ∧ (s.sPhase = .publishing ∨ s.sPhase = .waiting)

theorem Stopping.phase_ne_idle (h : Stopping s) : s.sPhase ≠ .idle := by
  obtain ⟨-, hp | hp⟩ := h <;> rw [hp] <;> nofun

/-- A step of the run that is asked to stop: the sampler publishes or ends it, and any other agent leaves its phase
and the request alone. -/
theorem Stopping.step (h : Stopping s) (hi : Inv s) {ev : Event} (hx : agentStep ev s = .next t) :
    (ev.agent = .sampler ∧ t.sPhase = .idle) ∨
    (ev.agent = .sampler ∧ s.sPhase = .publishing ∧ t.sPhase = .waiting ∧ t.sCancel = true) ∨
    (ev.agent ≠ .sampler ∧ t.sPhase = s.sPhase ∧ t.sCancel = true) := by
  obtain ⟨hc, hp⟩ := h
  by_cases hs : ev.agent = .sampler
  · obtain ⟨a, rfl⟩ := eq_sampler_of_agent hs
    obtain hp | hp := hp
    · obtain hy | hy := samplerStep_publishing_cancel (a := a) hp hc <;> cases hy.symm.trans hx
      · exact .inr (.inl ⟨rfl, hp, rfl, hc⟩)
      · exact .inl ⟨rfl, rfl⟩
    · cases (samplerStep_waiting_cancel (a := a) hp hc).symm.trans hx
      exact .inl ⟨rfl, rfl⟩
  · refine .inr (.inr ⟨hs, ?_⟩)
    by_cases ht : ev.agent = .intervalTimer
    · cases eq_intervalTimer_of_agent ht
      have hy : intervalTimerStep s = t := Host.Outcome.next.inj hx
      rw [intervalTimerStep_cancel hc] at hy
      subst hy
      exact ⟨rfl, hc⟩
    · obtain ⟨hk, hkc⟩ | ⟨ha, -⟩ := phase_of_other_agent hs ht hx
      · exact ⟨hk, hkc hc⟩
      · have := hi.active_of_cancel hc
        rw [ha] at this
        cases this

theorem Stopping.step_or_idle (h : Stopping s) (hi : Inv s) {ev : Event} (hx : agentStep ev s = .next t) :
    Stopping t ∨ t.sPhase = .idle := by
  obtain ⟨-, hidle⟩ | ⟨-, -, hw, hc⟩ | ⟨-, hk, hc⟩ := h.step hi hx
  · exact .inr hidle
  · exact .inl ⟨hc, .inr hw⟩
  · exact .inl ⟨hc, hk ▸ h.2⟩

/-- The run ends: its first turn of the sampler publishes at most, and the next one ends it. -/
theorem IsRun.stopping_ends (hr : IsRun r) {n : Nat} (hi : Inv (r n)) (h : Stopping (r n)) :
    ∃ m, n ≤ m ∧ (r m).sPhase = .idle := by
  by_contra hno
  have hne : ∀ m, n ≤ m → (r m).sPhase ≠ .idle := fun m hm he => hno ⟨m, hm, he⟩
  have hall : ∀ m, n ≤ m → Inv (r m) ∧ Stopping (r m) := by
    intro m hm
    induction m, hm using Nat.le_induction with
    | base => exact ⟨hi, h⟩
    | succ m hm ih =>
      obtain ⟨him, hsm⟩ := ih
      have hx : agentStep (nextEvent (r m)) (advance (r m)) = .next (r (m + 1)) := hr m
      have hsm' : Stopping (advance (r m)) := hsm
      exact ⟨him.step (hr m), (hsm'.step_or_idle him.advance hx).resolve_right (hne _ (by omega))⟩
  have hwait : ∀ m, n ≤ m → (r m).sPhase = .waiting ∨ (nextEvent (r m)).agent = .sampler →
      (r (m + 1)).sPhase = .waiting := by
    intro m hm hcase
    obtain ⟨him, hsm⟩ := hall m hm
    have hx : agentStep (nextEvent (r m)) (advance (r m)) = .next (r (m + 1)) := hr m
    have hsm' : Stopping (advance (r m)) := hsm
    obtain ⟨-, hidle⟩ | ⟨-, -, hw, -⟩ | ⟨hs, hk, -⟩ := hsm'.step him.advance hx
    · exact absurd hidle (hne _ (by omega))
    · exact hw
    · exact hk.trans (hcase.resolve_right hs)
  obtain ⟨m, hm, hturn⟩ := hr.agent_steps .sampler n
  have hfrom : ∀ k, m + 1 ≤ k → (r k).sPhase = .waiting := by
    intro k hk
    induction k, hk using Nat.le_induction with
    | base => exact hwait m hm (.inr hturn)
    | succ k hk ih => exact hwait k (by omega) (.inl ih)
  obtain ⟨k, hk, hturn⟩ := hr.agent_steps .sampler (m + 1)
  obtain ⟨a, ha⟩ := eq_sampler_of_agent hturn
  obtain ⟨-, hcan, -⟩ := hall k (by omega)
  have hx : agentStep (nextEvent (r k)) (advance (r k)) = .next (r (k + 1)) := hr k
  rw [ha] at hx
  have hend := (samplerStep_waiting_cancel (s := advance (r k)) (a := a) (hfrom k hk) hcan).symm.trans hx
  refine hne (k + 1) (by omega) ?_
  rw [← Host.Outcome.next.inj hend]
  rfl

/-- Settles O45: step by step, in WAITING at once, and in a whole run up to the first state without a run. -/
theorem stopNeverWaitsForACycle : Obligations.StopNeverWaitsForACycle := by
  refine ⟨fun s t hi hc hp hx => ?step, fun s t a hc hw hx => ?waiting, fun r n hr hi hc hp => ?run⟩
  case step =>
    have h : Stopping (advance s) := ⟨hc, hp⟩
    exact (h.step_or_idle hi.advance hx).imp_left And.symm
  case waiting =>
    cases (samplerStep_waiting_cancel (a := a) hw hc).symm.trans hx
    exact ⟨rfl, rfl⟩
  case run =>
    have h : Stopping (r n) := ⟨hc, hp⟩
    obtain ⟨l, hl, hidle⟩ := hr.stopping_ends hi h
    obtain ⟨m, hm, hq, ⟨him, -⟩, hbefore⟩ := exists_first
      (p := fun k => Inv (r k) ∧ (Stopping (r k) ∨ (r k).sPhase = .idle)) (q := fun k => (r k).sPhase = .idle)
      hl hidle ⟨hi, .inl h⟩ fun k _ ⟨hik, hk⟩ hne =>
        have hk' : Stopping (advance (r k)) := hk.resolve_right hne
        ⟨hik.step (hr k), hk'.step_or_idle hik.advance (hr k)⟩
    refine ⟨m, hm, him.idle_iff.mp hq, hq, fun k hk hlt => ?_⟩
    obtain ⟨⟨-, hk⟩, hne⟩ := hbefore k hk hlt
    obtain ⟨-, hphase⟩ := hk.resolve_right hne
    exact hphase

/-- A step in WAITING that stays there: a stop request stands, the sampler's step has found none, and the interval
timer's step has found one. -/
theorem waiting_step {ev : Event} (hw : s.sPhase = .waiting) (hx : agentStep ev s = .next t)
    (ht : t.sPhase = .waiting) : (s.sCancel = true → t.sCancel = true) ∧
      (ev.agent = .sampler → s.sCancel = false) ∧ (ev.agent = .intervalTimer → s.sCancel = true) := by
  by_cases hs : ev.agent = .sampler
  · obtain ⟨a, rfl⟩ := eq_sampler_of_agent hs
    have hc : s.sCancel = false := by
      by_contra hc
      cases (samplerStep_waiting_cancel (a := a) hw (by simpa using hc)).symm.trans hx
      cases ht
    exact ⟨fun h => by rw [hc] at h; (cases h), fun _ => hc, nofun⟩
  · by_cases hi : ev.agent = .intervalTimer
    · cases eq_intervalTimer_of_agent hi
      have hy : intervalTimerStep s = t := Host.Outcome.next.inj hx
      have hc : s.sCancel = true := by
        by_contra hc
        rw [intervalTimerStep_waiting hw (by simpa using hc)] at hy
        rw [← hy] at ht
        cases ht
      rw [intervalTimerStep_cancel hc] at hy
      exact ⟨fun h => hy ▸ h, nofun, fun _ => hc⟩
    · refine ⟨?_, fun h => absurd h hs, fun h => absurd h hi⟩
      obtain ⟨-, hc⟩ | ⟨-, hm⟩ := phase_of_other_agent hs hi hx
      · exact hc
      · rw [ht] at hm; cases hm

/-- A run does not wait for ever: with a stop request the sampler's turn ends it, without one the interval timer's
turn ends the interval. -/
theorem IsRun.waiting_ends (hr : IsRun r) (n : Nat) : ∃ m, n ≤ m ∧ (r m).sPhase ≠ .waiting := by
  by_contra hno
  have hw : ∀ m, n ≤ m → (r m).sPhase = .waiting := fun m hm => by_contra fun h => hno ⟨m, hm, h⟩
  have hstep := fun m (hm : n ≤ m) => waiting_step (s := advance (r m)) (hw m hm) (hr m) (hw (m + 1) (by omega))
  obtain ⟨k, hk, hturn⟩ := hr.agent_steps .intervalTimer n
  obtain ⟨-, -, hcan⟩ := hstep k hk
  have hcancel : ∀ m, k ≤ m → (r m).sCancel = true := by
    intro m hm
    induction m, hm using Nat.le_induction with
    | base => exact hcan hturn
    | succ m hm ih =>
      obtain ⟨hkeep, -⟩ := hstep m (by omega)
      exact hkeep ih
  obtain ⟨m, hm, hturn⟩ := hr.agent_steps .sampler k
  obtain ⟨-, hnone, -⟩ := hstep m (by omega)
  exact absurd (hcancel m hm) (by rw [show (r m).sCancel = false from hnone hturn]; nofun)

/-- Settles O54: the inter-poll delay by the timer's turn, the interval by the timer's or the sampler's. -/
theorem everyDelayEnds : Obligations.EveryDelayEnds :=
  fun _ n hr => ⟨fun hs hp => hr.pollDelay_ends hs hp, fun _ => hr.waiting_ends n⟩

end Sys2Proof.Machine
end

section
/-! PROOF. The ports and the step (R9, R10, R39, R73, R88): which instruction a step runs, and on which state, for a word or
frame that waits and for one put at its port. -/

namespace Sys2Proof.Machine

variable {s : State} {i : Instr}

theorem step_of_event {ev : Event} (h : nextEvent s = ev) : step s = agentStep ev (advance s) := by
  rw [step, h]

theorem hostRun_of_decode (hd : decodeCmd s.cmd = .ok i) : hostRun s = exec i s := by
  simp only [hostRun, hd]

/-- The free command port accepts the word that waits and runs its command (R39). -/
theorem hostStep_accept {w : Word} {rest : List Word} (hb : s.cmdBusy = false) (hc : s.env.cmdIn = w :: rest)
    (hd : decodeCmd w = .ok i) : hostStep s = exec i (acceptCmd w rest s) := by
  simp only [hostStep, hb, hc, Bool.false_eq_true, if_false]
  exact hostRun_of_decode hd

theorem hostStep_busy (hb : s.cmdBusy = true) (hd : decodeCmd s.cmd = .ok i) : hostStep s = exec i s := by
  rw [hostStep, if_pos hb, hostRun_of_decode hd]

theorem busStep_accept {f : BusFrame} {rest : List BusFrame} (hf : s.env.frameIn = f :: rest)
    (hd : decodeFrame s.par.spiFill f = .ok i) : busStep s = exec i (acceptFrame rest s) := by
  simp only [busStep, hf, hd]

/-- Settles O7: the chosen agent's step finds the word or the frame at its port. -/
theorem stepRunsTheDecodedInstruction : Obligations.StepRunsTheDecodedInstruction := by
  refine ⟨fun s w rest i hev hb hc hd => ?accept, fun s i hev hb hd => ?busy, fun s b rest i hev hq hc hd => ?consumer,
    fun s b i hev hq hc hd => ?waiting, fun s f rest i hev hf hd => ?frame⟩
  case accept => exact (step_of_event hev).trans (hostStep_accept hb hc hd)
  case busy => exact (step_of_event hev).trans (hostStep_busy hb hd)
  case consumer => exact (step_of_event hev).trans (consumerStep_accept _ b rest i hq hc hd)
  case waiting =>
    have hlegal : ∀ c rest, s.env.consIn = c :: rest → ∃ j, decodeCons c = .ok j := by
      intro c rest hcons
      rw [hc c rest hcons]
      exact ⟨.take, rfl⟩
    exact (step_of_event hev).trans (consumerStep_waiting _ b i hq hlegal hd)
  case frame => exact (step_of_event hev).trans (busStep_accept hf hd)

/-- Settles O8: at its port the packet is the first that waits, its agent is the next choice, and the decoder gives
the instruction back (O1). -/
theorem placedInstructionRunsNext : Obligations.PlacedInstructionRunsNext := by
  intro s i hwf env
  have hd : decode s.par.spiFill (encode s.par.spiFill i) = .ok i := decodeOfEncodeIsIdentity _ i hwf
  revert hd
  cases encode s.par.spiFill i with
  | cmd w => exact fun hd => hostStep_accept (s := advance (placePacket (.cmd w) s)) rfl rfl hd
  | cons b => exact fun hd => consumerStep_accept (advance (placePacket (.cons b) s)) b _ i rfl rfl hd
  | bus f => exact fun hd => busStep_accept (s := advance (placePacket (.bus f) s)) rfl hd

end Sys2Proof.Machine
end

section
/-! PROOF. The bytes of the trigger write (R92, R93, R191), the response codes (R260) and the reach of DECODE_CAL (R138). -/

namespace Sys2Proof.Machine

/-! ## The trigger write -/

theorem ctrlMeasByte_eq (c : AcqCfg) (mode : BitVec 2) :
    ctrlMeasByte c mode = BitVec.ofNat 8 (c.osrsT.toNat * 32 + c.osrsP.toNat * 4 + mode.toNat) := by
  have ht := c.osrsT.isLt
  have hp := c.osrsP.isLt
  have hm := mode.isLt
  refine BitVec.eq_of_toNat_eq ?_
  rw [ctrlMeasByte, toNat_append_eq, toNat_append_eq, BitVec.toNat_ofNat]
  omega

theorem ctrlHumByte_eq (c : AcqCfg) : ctrlHumByte c = BitVec.ofNat 8 c.osrsH.toNat := by
  have hh := c.osrsH.isLt
  refine BitVec.eq_of_toNat_eq ?_
  rw [ctrlHumByte, toNat_append_eq, BitVec.toNat_zero, BitVec.toNat_ofNat]
  omega

theorem configByte_eq (c : AcqCfg) : configByte c = BitVec.ofNat 8 (c.filter.toNat * 4) := by
  have hf := c.filter.isLt
  refine BitVec.eq_of_toNat_eq ?_
  rw [configByte, toNat_append_eq, toNat_append_eq, BitVec.toNat_zero, BitVec.toNat_zero, BitVec.toNat_ofNat]
  omega

/-- Settles O10: the pairs in R191's order, with each byte as its number. -/
theorem triggerPairBytes : Obligations.TriggerPairBytes := by
  intro par c
  rw [triggerPairs, ctrlHumByte_eq, configByte_eq, ctrlMeasByte_eq, ctrlMeasByte_eq]
  rfl

/-! ## The response codes -/

/-- Settles O12: the table of R260 by its ten rows. -/
theorem responseCodesAreDistinct : Obligations.ResponseCodesAreDistinct := by
  refine ⟨⟨rfl, rfl, rfl, rfl, rfl, rfl, rfl, rfl, rfl, rfl⟩, fun c => ?bound, fun c c' => ?injective⟩
  case bound => cases c <;> decide
  case injective => cases c <;> cases c' <;> decide

/-! ## The reach of DECODE_CAL -/

/-- The low byte of a 16-bit coefficient (R131). -/
def lowByte (v : BitVec 16) : Byte := v.extractLsb 7 0

/-- The high byte of a 16-bit coefficient (R131). -/
def highByte (v : BitVec 16) : Byte := v.extractLsb 15 8

theorem le16_bytes (v : BitVec 16) : le16 (lowByte v) (highByte v) = v := by
  have hv := v.isLt
  refine BitVec.eq_of_toNat_eq ?_
  rw [le16_toNat, lowByte, highByte, toNat_extract_eq, toNat_extract_eq]
  omega

/-- The byte that carries the low nibbles of h2 (above) and h1 (R134). -/
def nibbles (h2 h1 : BitVec 12) : Byte := (h2.extractLsb 3 0 ++ h1.extractLsb 3 0 : BitVec (3 - 0 + 1 + (3 - 0 + 1)))

theorem nibbles_toNat (h2 h1 : BitVec 12) : (nibbles h2 h1).toNat = h2.toNat % 16 * 16 + h1.toNat % 16 := by
  rw [nibbles, toNat_append_eq, toNat_extract_eq, toNat_extract_eq]
  simp

theorem nibble12_h2 (h2 h1 : BitVec 12) :
    nibble12 (h2.extractLsb 11 4) ((nibbles h2 h1).extractLsb 7 4) = h2 := by
  have hv := h2.isLt
  refine BitVec.eq_of_toNat_eq ?_
  rw [nibble12_high_toNat, nibbles_toNat, toNat_extract_eq]
  omega

theorem nibble12_h1 (h2 h1 : BitVec 12) :
    nibble12 (h1.extractLsb 11 4) ((nibbles h2 h1).extractLsb 3 0) = h1 := by
  have hv := h1.isLt
  refine BitVec.eq_of_toNat_eq ?_
  rw [nibble12_low_toNat, nibbles_toNat, toNat_extract_eq]
  omega

/-- A first window that carries the coefficients, with zeros at the unused offsets (R133). -/
def window1 (c : Cal) : List Byte :=
  [lowByte c.t2, highByte c.t2, c.t3, 0, lowByte c.p1, highByte c.p1, lowByte c.p2, highByte c.p2, c.p3, 0,
    lowByte c.p4, highByte c.p4, lowByte c.p5, highByte c.p5, c.p7, c.p6, 0, 0, lowByte c.p8, highByte c.p8,
    lowByte c.p9, highByte c.p9, c.p10]

/-- The second window. -/
def window2 (c : Cal) : List Byte :=
  [c.h2.extractLsb 11 4, nibbles c.h2 c.h1, c.h1.extractLsb 11 4, c.h3, c.h4, c.h5, c.h6, c.h7, lowByte c.t1,
    highByte c.t1, lowByte c.gh2, highByte c.gh2, c.gh1, c.gh3]

theorem decodeCal_windows (c : Cal) : decodeCal (window1 c) (window2 c) = c := by
  obtain ⟨t1, t2, t3, p1, p2, p3, p4, p5, p6, p7, p8, p9, p10, h1, h2, h3, h4, h5, h6, h7, gh1, gh2, gh3⟩ := c
  simp only [decodeCal, window1, window2, byteAt, List.getD_cons_zero, List.getD_cons_succ, le16_bytes, nibble12_h1,
    nibble12_h2]

/-- Settles O14: the windows that carry a calibration decode to it, and DECODE_CAL reads no unused offset. -/
theorem calibrationReachesEveryValue : Obligations.CalibrationReachesEveryValue := by
  refine ⟨fun c => ⟨window1 c, window2 c, rfl, rfl, decodeCal_windows c⟩, fun w1 w1' w2 h => ?unused⟩
  case unused => simp (disch := decide) only [decodeCal, h]

end Sys2Proof.Machine
end

section
/-! PROOF. The arithmetic and the compensation (R16, R150 to R168): rounding to nearest, the exact operations of TEMP and its
zeros, the guard of PRESS, and the worked examples. -/

namespace Sys2Proof.Machine

/-- Settles O16: each operation packs its exact result with one rounding. -/
theorem arithmeticRoundsToNearestEven : Obligations.ArithmeticRoundsToNearestEven := by
  rintro x y r exact hx hy hr (⟨rfl, rfl⟩ | ⟨rfl, rfl⟩ | ⟨rfl, rfl⟩ | ⟨rfl, h0, rfl⟩) z -
  · exact fAdd_nearest x y hx hy hr z
  · exact fSub_nearest x y hx hy hr z
  · exact fMul_nearest x y hx hy hr z
  · exact fDiv_nearest x y hx hy h0 hr z

/-! ## TEMP -/

/-- A finite binary64 that holds a value exactly. -/
def Holds (x : F64) (v : ℚ) : Prop := isFinite x = true ∧ fVal x = v

theorem holds_fU {w : Nat} (v : BitVec w) (hw : w ≤ 53) : Holds (fU v) v.toNat := by
  have hv : v.toNat < 2 ^ 53 := v.isLt.trans_le (Nat.pow_le_pow_right (by decide) hw)
  have := fOfInt_exact (v.toNat : Int) (by rw [abs_of_nonneg (by positivity)]; exact_mod_cast hv)
  exact ⟨this.1, by rw [fU, this.2]; push_cast; rfl⟩

theorem abs_toInt_le {w : Nat} (v : BitVec (w + 1)) : |v.toInt| ≤ 2 ^ w := by
  have hlo := BitVec.le_toInt v
  have hhi := BitVec.toInt_lt (x := v)
  rw [Nat.add_sub_cancel] at hlo hhi
  exact abs_le.mpr ⟨hlo, hhi.le⟩

theorem holds_fS {w : Nat} (v : BitVec (w + 1)) (hw : w < 53) : Holds (fS v) v.toInt :=
  fOfInt_exact v.toInt ((abs_toInt_le v).trans_lt (pow_lt_pow_right₀ (by decide) hw))

section Temp
variable (rawT : BitVec 20) (c : Cal)

/-- rawT - 16·t1, in units of which TEMP's intermediates are dyadic fractions (R153). -/
def tempD : Int := rawT.toNat - 16 * c.t1.toNat

theorem abs_tempD_lt : |tempD rawT c| < 2 ^ 20 := by
  have h1 := rawT.isLt
  have h2 := c.t1.isLt
  rw [tempD, abs_lt]
  omega

theorem abs_tempD_mul_t2_le : |tempD rawT c * c.t2.toInt| ≤ 2 ^ 35 := by
  rw [abs_mul]
  exact mul_le_mul (abs_tempD_lt rawT c).le (abs_toInt_le c.t2) (abs_nonneg _) (by norm_num)

theorem abs_tempD_sq_le : |tempD rawT c ^ 2| ≤ 2 ^ 40 := by
  rw [abs_pow]
  calc |tempD rawT c| ^ 2 ≤ (2 ^ 20) ^ 2 := by gcongr; exact (abs_tempD_lt rawT c).le
    _ = 2 ^ 40 := by norm_num

theorem abs_tempD_sq_mul_t3_le : |tempD rawT c ^ 2 * c.t3.toInt| ≤ 2 ^ 47 := by
  rw [abs_mul]
  exact mul_le_mul (abs_tempD_sq_le rawT c) (abs_toInt_le c.t3) (abs_nonneg _) (by norm_num)

/-- A raw value or coefficient divided by a power of two. -/
theorem holds_div {w : Nat} (v : BitVec w) (hw : w ≤ 20) {d k : Nat} (hd : d = 2 ^ k) (hk : k ≤ 17) :
    Holds (fDiv (fU v) (lit d)) ((v.toNat : ℚ) / (d : ℚ)) := by
  have hv : v.toNat < 2 ^ 53 := v.isLt.trans_le (Nat.pow_le_pow_right (by decide) (by omega))
  refine fDiv_dyadic (holds_fU v (by omega)) d ?_ (by rw [hd]; positivity) v.toNat k (by omega) ?_ (by rw [hd]; push_cast; rfl)
  · rw [hd]; exact Nat.pow_lt_pow_right (by decide) (by omega)
  · rw [abs_of_nonneg (by positivity)]; exact_mod_cast hv

/-- The difference of which `a` is a multiple. -/
theorem holds_tempDiff : Holds (fSub (fDiv (fU rawT) (lit 16384)) (fDiv (fU c.t1) (lit 1024)))
    ((rawT.toNat : ℚ) / 16384 - c.t1.toNat / 1024) := by
  have hx := holds_div rawT le_rfl (show 16384 = 2 ^ 14 by decide) (by decide)
  have ht := holds_div c.t1 (by decide) (show 1024 = 2 ^ 10 by decide) (by decide)
  push_cast at hx ht
  refine fSub_dyadic hx ht (tempD rawT c) 14 (by decide) ((abs_tempD_lt rawT c).trans (by norm_num)) ?_
  rw [tempD]; push_cast; ring

theorem holds_tempA : Holds (tempA rawT c) (((rawT.toNat : ℚ) / 16384 - c.t1.toNat / 1024) * c.t2.toInt) := by
  refine fMul_dyadic (holds_tempDiff rawT c) (holds_fS c.t2 (by decide)) (tempD rawT c * c.t2.toInt) 14 (by decide)
    ((abs_tempD_mul_t2_le rawT c).trans_lt (by norm_num)) ?_
  rw [tempD]; push_cast; ring

theorem holds_tempQ : Holds (tempQ rawT c) ((rawT.toNat : ℚ) / 131072 - c.t1.toNat / 8192) := by
  have hx := holds_div rawT le_rfl (show 131072 = 2 ^ 17 by decide) (by decide)
  have ht := holds_div c.t1 (by decide) (show 8192 = 2 ^ 13 by decide) (by decide)
  push_cast at hx ht
  refine fSub_dyadic hx ht (tempD rawT c) 17 (by decide) ((abs_tempD_lt rawT c).trans (by norm_num)) ?_
  rw [tempD]; push_cast; ring

theorem holds_tempQ_sq :
    Holds (fMul (tempQ rawT c) (tempQ rawT c)) (((rawT.toNat : ℚ) / 131072 - c.t1.toNat / 8192) ^ 2) := by
  rw [sq]
  refine fMul_dyadic (holds_tempQ rawT c) (holds_tempQ rawT c) (tempD rawT c ^ 2) 34 (by decide)
    ((abs_tempD_sq_le rawT c).trans_lt (by norm_num)) ?_
  rw [tempD]; push_cast; ring

theorem holds_tempQ_sq_mul_t3 : Holds (fMul (fMul (tempQ rawT c) (tempQ rawT c)) (fS c.t3))
    (((rawT.toNat : ℚ) / 131072 - c.t1.toNat / 8192) ^ 2 * c.t3.toInt) := by
  refine fMul_dyadic (holds_tempQ_sq rawT c) (holds_fS c.t3 (by decide)) (tempD rawT c ^ 2 * c.t3.toInt) 34 (by decide)
    ((abs_tempD_sq_mul_t3_le rawT c).trans_lt (by norm_num)) ?_
  rw [tempD]; push_cast; ring

theorem holds_lit (n : Nat) (h : n < 2 ^ 53) : Holds (lit n) n := ⟨lit_finite n h, lit_val n h⟩

theorem holds_tempB : Holds (tempB rawT c)
    (((rawT.toNat : ℚ) / 131072 - c.t1.toNat / 8192) ^ 2 * c.t3.toInt * 16) := by
  refine fMul_dyadic (holds_tempQ_sq_mul_t3 rawT c) (holds_lit 16 (by decide)) (tempD rawT c ^ 2 * c.t3.toInt) 30
    (by decide) ((abs_tempD_sq_mul_t3_le rawT c).trans_lt (by norm_num)) ?_
  rw [tempD]; push_cast; ring

/-- R153: temp_fine as a multiple of 2^-30. -/
theorem holds_tempFine : Holds (tempFine rawT c)
    (((rawT.toNat - 16 * c.t1.toNat : ℚ) * c.t2.toInt * 2 ^ 16 + (rawT.toNat - 16 * c.t1.toNat : ℚ) ^ 2 * c.t3.toInt) /
      2 ^ 30) := by
  have hbound : |tempD rawT c * c.t2.toInt * 2 ^ 16 + tempD rawT c ^ 2 * c.t3.toInt| < 2 ^ 53 := by
    have h1 := abs_le.mp (abs_tempD_mul_t2_le rawT c)
    have h2 := abs_le.mp (abs_tempD_sq_mul_t3_le rawT c)
    rw [abs_lt]
    constructor <;> linarith
  have hsum := fAdd_dyadic (holds_tempA rawT c) (holds_tempB rawT c) _ 30 (by decide) hbound
    (by rw [tempD]; push_cast; ring)
  have hval : ((rawT.toNat : ℚ) / 16384 - c.t1.toNat / 1024) * c.t2.toInt +
      ((rawT.toNat : ℚ) / 131072 - c.t1.toNat / 8192) ^ 2 * c.t3.toInt * 16 =
      ((rawT.toNat - 16 * c.t1.toNat : ℚ) * c.t2.toInt * 2 ^ 16 +
        (rawT.toNat - 16 * c.t1.toNat : ℚ) ^ 2 * c.t3.toInt) / 2 ^ 30 := by ring
  rw [hval] at hsum
  exact hsum

/-- `b` computed as (q·q)·(t3·16): both are exact, and their signs agree. -/
theorem tempB_other_order :
    fMul (fMul (tempQ rawT c) (tempQ rawT c)) (fMul (fS c.t3) (lit 16)) = tempB rawT c := by
  have hq := holds_tempQ_sq rawT c
  have ht := holds_fS c.t3 (by decide)
  have h16 := holds_lit 16 (by decide)
  have hqt := holds_tempQ_sq_mul_t3 rawT c
  have hb := holds_tempB rawT c
  have ht16 : Holds (fMul (fS c.t3) (lit 16)) (c.t3.toInt * (16 : ℕ)) := by
    refine fMul_dyadic ht h16 (c.t3.toInt * 16) 0 (by decide) ?_ (by push_cast; ring)
    rw [abs_mul]
    calc |c.t3.toInt| * |16| ≤ 2 ^ 7 * 16 := mul_le_mul (abs_toInt_le c.t3) (by norm_num) (by norm_num) (by norm_num)
      _ < 2 ^ 53 := by norm_num
  have hother : Holds (fMul (fMul (tempQ rawT c) (tempQ rawT c)) (fMul (fS c.t3) (lit 16)))
      (((rawT.toNat : ℚ) / 131072 - c.t1.toNat / 8192) ^ 2 * (c.t3.toInt * (16 : ℕ))) := by
    refine fMul_dyadic hq ht16 (tempD rawT c ^ 2 * c.t3.toInt) 30 (by decide)
      ((abs_tempD_sq_mul_t3_le rawT c).trans_lt (by norm_num)) ?_
    rw [tempD]; push_cast; ring
  refine fVal_injective hother.1 hb.1 ?_ (by rw [hother.2, hb.2]; push_cast; ring)
  rw [tempB, fMul_sign _ _ hq.1 ht16.1, fMul_sign _ _ ht.1 h16.1, fMul_sign _ _ hqt.1 h16.1, fMul_sign _ _ hq.1 ht.1,
    Bool.bne_assoc]

end Temp

/-- Settles O17: the intermediates in the order of TEMP, each a dyadic fraction that binary64 can hold. -/
theorem tempFineIsExact : Obligations.TempFineIsExact := by
  intro rawT c x t1 t2 t3 d
  have hd : (tempD rawT c : ℚ) = d := by simp only [tempD, d, x, t1]; push_cast; rfl
  have hdlt : |d| < 2 ^ 20 := by
    rw [← hd]
    exact_mod_cast abs_tempD_lt rawT c
  have hx14 := holds_div rawT le_rfl (show 16384 = 2 ^ 14 by decide) (by decide)
  have ht10 := holds_div c.t1 (by decide) (show 1024 = 2 ^ 10 by decide) (by decide)
  have hx17 := holds_div rawT le_rfl (show 131072 = 2 ^ 17 by decide) (by decide)
  have ht13 := holds_div c.t1 (by decide) (show 8192 = 2 ^ 13 by decide) (by decide)
  push_cast at hx14 ht10 hx17 ht13
  exact ⟨(holds_fU rawT (by decide)).2, (holds_fU c.t1 (by decide)).2, (holds_fS c.t2 (by decide)).2,
    (holds_fS c.t3 (by decide)).2, hx14.2, ht10.2, (holds_tempDiff rawT c).2, (holds_tempA rawT c).2, hx17.2, ht13.2,
    (holds_tempQ rawT c).2, (holds_tempQ_sq rawT c).2, (holds_tempQ_sq_mul_t3 rawT c).2, (holds_tempB rawT c).2,
    (holds_tempFine rawT c).1, hdlt, (holds_tempFine rawT c).2, tempB_other_order rawT c⟩

/-! ## The zeros of TEMP -/

theorem eq_fZero {x : F64} {b : Bool} (hx : Holds x 0) (hs : fSign x = b) : x = fZero b :=
  fVal_injective hx.1 (fZero_finite b) (hs.trans (fZero_sign b).symm) (hx.2.trans (fZero_val b).symm)

theorem holds_fZero (b : Bool) : Holds (fZero b) 0 := ⟨fZero_finite b, fZero_val b⟩

/-- A sum that is zero is −0 only where both operands are negative (R16). -/
theorem fAdd_eq_fZero {x y : F64} (hx : isFinite x = true) (hy : isFinite y = true) (h : fVal x + fVal y = 0) :
    fAdd x y = fZero (fSign x && fSign y) := by
  have hxu := fAligned_val x (min (fUlp x) (fUlp y)) (min_le_left _ _)
  have hyu := fAligned_val y (min (fUlp x) (fUlp y)) (min_le_right _ _)
  have hsum : fAligned x (min (fUlp x) (fUlp y)) + fAligned y (min (fUlp x) (fUlp y)) = 0 := by
    rw [← hxu, ← hyu, ← add_mul, mul_eq_zero_iff_right (two_zpow_pos _).ne'] at h
    exact_mod_cast h
  unfold fAdd
  rw [not_nan_of_finite hx, not_nan_of_finite hy, not_inf_of_finite hx, not_inf_of_finite hy]
  simp [hsum]

theorem fSub_eq_fZero {x y : F64} (hx : isFinite x = true) (hy : isFinite y = true) (h : fVal x = fVal y)
    (hs : fSign x = false) : fSub x y = fZero false := by
  rw [fSub, fAdd_eq_fZero hx (by rw [fNeg_finite]; exact hy) (by rw [fNeg_val, h]; ring), hs, Bool.false_and]

theorem fMul_fZero {b : Bool} {y : F64} (hy : isFinite y = true) : fMul (fZero b) y = fZero (b != fSign y) := by
  obtain ⟨heq, -⟩ := fMul_eq (fZero b) y (fZero_finite b) hy
  have hm : fMant (fZero b) = 0 := by cases b <;> decide
  rw [heq, hm, zero_mul, packRound_zero, fZero_sign]

theorem fDiv_fZero {b : Bool} {y : F64} (hy : isFinite y = true) (h0 : isZero y = false) :
    fDiv (fZero b) y = fZero (b != fSign y) := by
  have hm : fMant (fZero b) = 0 := by cases b <;> decide
  rw [fDiv_eq (fZero b) y (fZero_finite b) hy h0, hm, divMant_zero, packRound_zero, fZero_sign]

theorem lit_sign (n : Nat) : fSign (lit n) = false := by
  simp [lit, fOfInt_sign]

theorem lit_not_zero {n : Nat} (h : n < 2 ^ 53) (h0 : n ≠ 0) : isZero (lit n) = false :=
  isZero_of_val (by rw [lit_val n h]; exact_mod_cast h0)

theorem fU_div_sign {w : Nat} (v : BitVec w) (hw : w ≤ 53) {d : Nat} (hd : d < 2 ^ 53) (h0 : d ≠ 0) :
    fSign (fDiv (fU v) (lit d)) = false := by
  rw [fDiv_sign _ _ (holds_fU v hw).1 (lit_finite d hd) (lit_not_zero hd h0), lit_sign, fU, fOfInt_sign]
  simp

theorem fS_sign {w : Nat} (v : BitVec w) : fSign (fS v) = decide (v.toInt < 0) := fOfInt_sign _

/-- The two differences of TEMP are +0.0 where rawT = 16·t1, so `a` and `b` are zeros with the signs of t2 and t3. -/
theorem tempDiff_eq_fZero {rawT : BitVec 20} {c : Cal} (h : rawT.toNat = 16 * c.t1.toNat) :
    fSub (fDiv (fU rawT) (lit 16384)) (fDiv (fU c.t1) (lit 1024)) = fZero false := by
  have hx := holds_div rawT le_rfl (show 16384 = 2 ^ 14 by decide) (by decide)
  have ht := holds_div c.t1 (by decide) (show 1024 = 2 ^ 10 by decide) (by decide)
  refine fSub_eq_fZero hx.1 ht.1 ?_ (fU_div_sign rawT (by decide) (by decide) (by decide))
  rw [hx.2, ht.2, h]; push_cast; ring

theorem tempQ_eq_fZero {rawT : BitVec 20} {c : Cal} (h : rawT.toNat = 16 * c.t1.toNat) :
    tempQ rawT c = fZero false := by
  have hx := holds_div rawT le_rfl (show 131072 = 2 ^ 17 by decide) (by decide)
  have ht := holds_div c.t1 (by decide) (show 8192 = 2 ^ 13 by decide) (by decide)
  refine fSub_eq_fZero hx.1 ht.1 ?_ (fU_div_sign rawT (by decide) (by decide) (by decide))
  rw [hx.2, ht.2, h]; push_cast; ring

theorem tempA_eq_fZero {rawT : BitVec 20} {c : Cal} (h : rawT.toNat = 16 * c.t1.toNat) :
    tempA rawT c = fZero (decide (c.t2.toInt < 0)) := by
  rw [tempA, tempDiff_eq_fZero h, fMul_fZero (holds_fS c.t2 (by decide)).1, fS_sign, Bool.false_bne]

theorem tempB_eq_fZero {rawT : BitVec 20} {c : Cal} (h : rawT.toNat = 16 * c.t1.toNat) :
    tempB rawT c = fZero (decide (c.t3.toInt < 0)) := by
  rw [tempB, tempQ_eq_fZero h, fMul_fZero (fZero_finite false), fZero_sign, fMul_fZero (holds_fS c.t3 (by decide)).1,
    fS_sign, fMul_fZero (lit_finite 16 (by decide)), lit_sign]
  simp

/-- Settles O18: `a` and `b` are zeros with the signs of t2 and t3, their sum is −0 only of two negative ones, and the
division by 5120 keeps the sign. -/
theorem tempZeroSigns : Obligations.TempZeroSigns := by
  intro rawT c h
  have hfine : tempFine rawT c = fZero (decide (c.t2.toInt < 0 ∧ c.t3.toInt < 0)) := by
    rw [tempFine, tempA_eq_fZero h, tempB_eq_fZero h,
      fAdd_eq_fZero (fZero_finite _) (fZero_finite _) (by simp [fZero_val]), fZero_sign, fZero_sign, Bool.decide_and]
  refine ⟨hfine, ?_⟩
  rw [hfine, celsius, fDiv_fZero (lit_finite 5120 (by decide)) (lit_not_zero (by decide) (by decide)), lit_sign,
    Bool.bne_false]

/-! ## The guard of PRESS -/

/-- A whole number that is not zero is at least 1 as a binary64, where it does not overflow. -/
theorem lit_ne_zero {n : Nat} (h0 : n ≠ 0) (hf : isFinite (lit n) = true) : fVal (lit n) ≠ 0 := by
  obtain ⟨hnear, -⟩ := packRound_nearest (decide ((n : Int) < 0)) (n : Int).natAbs 0 hf (lit 1)
  have hexact : sgn (decide ((n : Int) < 0)) * (((n : Int).natAbs : ℚ) * 2 ^ (0 : ℤ)) = n := by
    rw [zpow_zero, mul_one, sgn_natAbs]; push_cast; rfl
  rw [hexact, lit_val 1 (by decide)] at hnear
  change |fVal (lit n) - n| ≤ |((1 : ℕ) : ℚ) - n| at hnear
  intro hz
  have hn : (1 : ℚ) ≤ n := by exact_mod_cast Nat.one_le_iff_ne_zero.mpr h0
  rw [hz, zero_sub, abs_neg, abs_of_nonneg (by linarith), abs_sub_comm, abs_of_nonneg (by push_cast; linarith)] at hnear
  push_cast at hnear
  linarith

/-- +0.0 divided by a whole number that is not zero is +0.0, also where that number overflows. -/
theorem fDiv_fZero_lit {n : Nat} (h0 : n ≠ 0) : fDiv (fZero false) (lit n) = fZero false := by
  cases hf : isFinite (lit n) with
  | true => rw [fDiv_fZero hf (isZero_of_val (lit_ne_zero h0 hf)), lit_sign, Bool.bne_false]
  | false =>
    have hinf : lit n = fInf false := by
      have hs : decide ((n : Int) < 0) = false := by simp
      obtain ⟨-, h, -⟩ | ⟨h, -⟩ := packRound_cases (decide ((n : Int) < 0)) (n : Int).natAbs 0 (by simpa using h0)
      · rw [lit, fOfInt, h, hs]
      · cases h.symm.trans hf
    rw [hinf]
    decide

theorem settleNaN_fZero (k j : Nat) (b : Bool) : settleNaN k j (fZero b) = fZero b := by
  rw [settleNaN, not_nan_of_finite (fZero_finite b), if_neg Bool.false_ne_true]

/-- What P_PDIV makes of the formula's value as it leaves the engine (R162). -/
def scaled (k : Nat) (par : Params) (x : F64) : F64 :=
  settleNaN k 0 (if par.pdiv = 1 then x else fDiv x (lit par.pdiv))

theorem scaled_fZero {k : Nat} {par : Params} (h0 : par.pdiv ≠ 0) : scaled k par (fZero false) = fZero false := by
  rw [scaled, fDiv_fZero_lit h0, ite_self, settleNaN_fZero]

theorem scaled_not_finite {k : Nat} {par : Params} {x : F64} (h : isFinite x = false) :
    isFinite (scaled k par x) = false := by
  refine settleNaN_not_finite k 0 _ ?_
  split
  exacts [h, fDiv_not_finite x _ (.inl h)]

section Press
variable {par : Params} {k : Nat} {rawP : BitVec 20} {tf : F64} {c : Cal}

theorem pressOut_bosch (h : par.pform = .boschF64) :
    pressOut k par rawP tf c = scaled k par (boschPress par.pguard rawP tf c) := by
  simp only [pressOut, press, pressForm, h, scaled]

theorem boschPress_guarded (h : truncIsZero (pressDenom tf c) = true) : boschPress true rawP tf c = fZero false := by
  rw [boschPress, h, Bool.and_self, if_pos rfl]

theorem boschPress_formula {guard : Bool} (h : guard = false ∨ truncIsZero (pressDenom tf c) = false) :
    boschPress guard rawP tf c = pressTail rawP (pressDenom tf c) (pressOffset tf c) c := by
  rw [boschPress, Bool.and_eq_false_iff.mpr h, if_neg Bool.false_ne_true]

/-- Past the guard a zero denominator gives an infinity or a NaN (R161). -/
theorem pressTail_not_finite {v1 v2 : F64} (h : isZero v1 = true) : isFinite (pressTail rawP v1 v2 c) = false :=
  fAdd_not_finite _ _ (fDiv_not_finite _ _ (.inr h))

end Press

/-- Settles O20: the guard's test is |v1| < 1, and on each side of it PRESS is the scaled value of one branch. -/
theorem pressureGuard : Obligations.PressureGuard := by
  intro par k rawP tf c hform v1 below scaledOf
  rw [pressOut_bosch hform]
  refine ⟨fun hg hb => ?guarded, fun hn => ?formula, fun hg hz => ?unguarded⟩
  case guarded =>
    rw [hg, boschPress_guarded ((truncIsZero_iff _).mpr hb)]
    exact ⟨rfl, scaled_fZero⟩
  case formula =>
    have hn' : par.pguard = false ∨ truncIsZero (pressDenom tf c) = false :=
      hn.imp_right fun hb => Bool.eq_false_iff.mpr fun h => hb ((truncIsZero_iff _).mp h)
    rw [boschPress_formula hn']
    rfl
  case unguarded =>
    rw [boschPress_formula (.inl hg)]
    exact scaled_not_finite (pressTail_not_finite hz)

/-! ## The worked examples -/

/-- Settles O21: the engine computes. -/
theorem exampleReading : Obligations.ExampleReading := by
  refine ⟨?temp, ?press1, ?press2, ?hum1, ?hum2, ?hum3⟩
  case temp => decide +kernel
  case press1 => decide +kernel
  case press2 => decide +kernel
  case hum1 => decide +kernel
  case hum2 => decide +kernel
  case hum3 => decide +kernel

end Sys2Proof.Machine
end

section
/-! PROOF. The commands of one step: COMP_T, COMP_P and COMP_H (R155, R163, R168), STATUS (R236) and TAKE (R238), each by the
branch its checks take. -/

namespace Sys2Proof.Machine

/-! ## COMP_T, COMP_P and COMP_H -/

/-- Settles O22: with the block READY COMP_T writes and answers, else it answers only. -/
theorem compTWritesTfine : Obligations.CompTWritesTfine := by
  intro raw s
  refine ⟨fun hl => ?ready, fun hl => ?unready⟩
  case ready => simp only [exec, execCompT, hl, ne_eq, not_true, if_false]; rfl
  case unready => simp only [exec, execCompT, hl, ne_eq, not_false_iff, if_true, respondCode_eq_ended]

section Checks
variable {s : State} {k : State → State}

theorem withTfine_ready (hl : s.life = .ready) (hv : s.tfineV = true) : withTfine s k = .next (k s) := by
  simp [withTfine, hl, hv]

theorem withTfine_unset (hl : s.life = .ready) (hv : s.tfineV = false) :
    withTfine s k = .next (ended (Resp.blank s.env.fresh .tfineUnset) s) := by
  simp [withTfine, hl, hv, respondCode_eq_ended]

theorem withTfine_unready (hl : s.life ≠ .ready) :
    withTfine s k = .next (ended (Resp.blank s.env.fresh .notInitialized) s) := by
  simp [withTfine, hl, respondCode_eq_ended]

end Checks

/-- Settles O23: the shared checks in R262's order. -/
theorem compPReadsTfine : Obligations.CompPReadsTfine := by
  intro raw s
  simp only [exec, execCompP]
  exact ⟨fun hl hv => (withTfine_ready hl hv).trans (congrArg _ (respond_eq_ended s _)), withTfine_unset,
    withTfine_unready⟩

/-- Settles O24: the shared checks in R262's order. -/
theorem compHReadsTfine : Obligations.CompHReadsTfine := by
  intro raw s
  simp only [exec, execCompH]
  exact ⟨fun hl hv => (withTfine_ready hl hv).trans (congrArg _ (respond_eq_ended s _)), withTfine_unset,
    withTfine_unready⟩

/-! ## STATUS and TAKE -/

/-- Settles O46: STATUS answers from the state it is given; at reset every field of the word is 0. -/
theorem statusIsASnapshot : Obligations.StatusIsASnapshot := by
  refine ⟨fun s => ?answer, by decide, rfl, rfl⟩
  case answer =>
    simp only [exec, execStatus, respond_eq_ended, statusResp]
    cases s.sErr <;> rfl

/-- Settles O47: case (a) by the full mailbox, (b) by the active run, (c) by S_ERR. -/
theorem takeCases : Obligations.TakeCases := by
  intro s
  refine ⟨fun m hm => ?full, fun hm ha => ?waits, fun x hm ha he => ?error, fun hm ha he => ?cancelled⟩
  case full => simp only [exec, execTake, hm]; rfl
  case waits => simp only [exec, execTake, hm, ha, if_true]
  case error => simp only [exec, execTake, hm, ha, Bool.false_eq_true, if_false, respondCons, takeEnded, he]
  case cancelled => simp only [exec, execTake, hm, ha, Bool.false_eq_true, if_false, respondCons, takeEnded, he]

end Sys2Proof.Machine
end

section
/-! PROOF. INIT (R180 to R185): its step at each place of its pseudocode, and the reads it ends with, aborts at or commits
after. -/

namespace Sys2Proof.Machine

variable {s : State} {t p h f : BitVec 3}

/-! ## INIT at each of its places -/

theorem execInit_entry (hp : s.hphase = .entry) :
    exec (.init t p h f) s = .next (initEntry (cfgOf t p h f) s) := by
  simp only [exec, execInit, hp]

theorem execInit_initChip (hp : s.hphase = .initChip) :
    exec (.init t p h f) s = initRead txnChipId s.par.regChipId 1 s initGotChip := by
  simp only [exec, execInit, hp]

theorem execInit_initVariant (hp : s.hphase = .initVariant) :
    exec (.init t p h f) s = initRead txnVariant s.par.regVariant 1 s initGotVariant := by
  simp only [exec, execInit, hp]

theorem execInit_initCal1 {var : Byte} (hp : s.hphase = .initCal1 var) : exec (.init t p h f) s =
    initRead txnCal1 s.par.regCal1 s.par.lenCal1 s fun w1 s1 => { s1 with hphase := .initCal2 var w1 } := by
  simp only [exec, execInit, hp]

theorem execInit_initCal2 {var : Byte} {w1 : List Byte} (hp : s.hphase = .initCal2 var w1) :
    exec (.init t p h f) s = initRead txnCal2 s.par.regCal2 s.par.lenCal2 s
      fun w2 s1 => initCommit (cfgOf t p h f) var w1 w2 s1 := by
  simp only [exec, execInit, hp]

/-! ## The configuration check -/

theorem cfgInvalid_iff (c : AcqCfg) : cfgInvalid c = true ↔ c.osrsT = 0 ∧ (c.osrsP ≠ 0 ∨ c.osrsH ≠ 0) := by
  simp [cfgInvalid]

theorem initEntry_ready {c : AcqCfg} (hl : s.life = .ready) :
    initEntry c s = ended (Resp.blank s.env.fresh .alreadyInitialized) s := by
  rw [initEntry, if_pos hl, respondCode_eq_ended]

theorem initEntry_invalid {c : AcqCfg} (hl : s.life ≠ .ready) (hc : cfgInvalid c = true) :
    initEntry c s = ended (Resp.blank s.env.fresh .invalidConfig) { s with life := .failed } := by
  rw [initEntry, if_neg hl, if_pos hc, initFail, respond_eq_ended]

theorem initEntry_valid {c : AcqCfg} (hl : s.life ≠ .ready) (hc : cfgInvalid c = false) :
    initEntry c s = { s with hphase := .initChip } := by
  rw [initEntry, if_neg hl, hc, if_neg Bool.false_ne_true]

/-- Settles O28: INIT's first step on a block that is not READY, by R181's condition. -/
theorem initRefusesInvalidConfig : Obligations.InitRefusesInvalidConfig := by
  intro t p h f s hl hp
  rw [execInit_entry hp]
  refine ⟨fun ht hph => ?refused, fun hok => ?accepted⟩
  case refused => rw [initEntry_invalid hl ((cfgInvalid_iff _).mpr ⟨ht, hph⟩)]
  case accepted =>
    have hc : cfgInvalid (cfgOf t p h f) = false := by
      rw [Bool.eq_false_iff, ne_eq, cfgInvalid_iff]
      rintro ⟨ht, hph⟩
      obtain hne | ⟨hp0, hh0⟩ := hok
      · exact hne ht
      · exact hph.elim (· hp0) (· hh0)
    rw [initEntry_valid hl hc]

/-- Settles O31: INIT's first step on a READY block and on a FAILED one. -/
theorem initOnlyOnce : Obligations.InitOnlyOnce := by
  intro t p h f s hp
  rw [execInit_entry hp]
  refine ⟨fun hl => ?ready, fun hl hc => ?failed⟩
  case ready => rw [initEntry_ready hl]
  case failed => exact congrArg _ (initEntry_valid (by rw [hl]; nofun) hc)

/-! ## The reads -/

/-- Settles O29: the byte of the read and the comparison decide whether INIT goes on. -/
theorem initRefusesUnsupportedDevice : Obligations.InitRefusesUnsupportedDevice := by
  refine ⟨rfl, rfl, fun t p h f s d => ⟨fun hp hr ha => ?chip, fun hp hr ha => ?variant⟩⟩
  case chip =>
    rw [execInit_initChip hp, initRead_ok s _ _ _ _ d hr ha, ← keepOf_eq_match]
    exact ⟨fun hne => congrArg _ (if_neg hne), fun heq => congrArg _ (if_pos heq)⟩
  case variant =>
    rw [execInit_initVariant hp, initRead_ok s _ _ _ _ d hr ha, ← keepOf_eq_match]
    exact ⟨fun hne => congrArg _ (if_neg hne), fun heq => congrArg _ (if_pos heq)⟩

/-- Settles O30: at each place the failing read is that place's, and the abort is the same. -/
theorem initAborts : Obligations.InitAborts := by
  intro t p h f s e txn a n hplace hr ha
  have habort : ∀ k, initRead txn a n s k = .next (ended
      { Resp.blank s.env.fresh .transportError with detail := txn, buserr := e, dev := s.par.deviceName }
      { recordTxn (memReadFrame a n s) s with life := .failed, buserr := e }) :=
    fun k => initRead_err s txn a n k e hr ha
  obtain ⟨hp, rfl, rfl, rfl⟩ | ⟨hp, rfl, rfl, rfl⟩ | ⟨⟨v, hp⟩, rfl, rfl, rfl⟩ | ⟨⟨v, w, hp⟩, rfl, rfl, rfl⟩ := hplace
  · rw [execInit_initChip hp]; exact habort _
  · rw [execInit_initVariant hp]; exact habort _
  · rw [execInit_initCal1 hp]; exact habort _
  · rw [execInit_initCal2 hp]; exact habort _

/-- Settles O27: the second window is answered, and the commit answers OK. -/
theorem initCommits : Obligations.InitCommits := by
  intro t p h f s var w1 d hp hr ha
  rw [execInit_initCal2 hp, initRead_ok s _ _ _ _ d hr ha, ← keepOf_eq_match]
  rfl

/-! ## A whole INIT -/

/-- The state after a transaction whose answer waited: the answer used up, the transaction in the history. -/
def answered (f : BusFrame) (ans : BusAnswer) (rest : List BusAnswer) (s : State) : State :=
  { s with env := { s.env with busIn := rest, hist := ⟨f, ans⟩ :: s.env.hist } }

theorem recordTxn_eq_answered {fr : BusFrame} {ans a : BusAnswer} {rest : List BusAnswer} (ha : answerOf fr s = ans)
    (hb : s.env.busIn = a :: rest) : recordTxn fr s = answered fr ans rest s := by
  rw [recordTxn, answered, ha, hb, List.tail_cons]

/-- A read of INIT whose answer waits. -/
theorem initRead_answered {txn a x : Byte} {n : Nat} {d : List Byte} {rest : List BusAnswer}
    {k : List Byte → State → State} (hr : readInRange a.toNat n = true) (hd : d.length = n)
    (hb : s.env.busIn = .ok (inFrame s.bus x d) :: rest) : initRead txn a n s k =
      .next (k d (answered (memReadFrame a n s) (.ok (inFrame s.bus x d)) rest s)) := by
  have ha := answerOf_read_scripted s a x n d rest hd hb
  rw [initRead_ok s txn a n k _ hr ha, keepOf_inFrame, recordTxn_eq_answered ha hb]

theorem execSteps_succ {i : Instr} {n : Nat} {u : State} (hx : exec i s = .next u) :
    execSteps i (n + 1) s = execSteps i n u := by
  simp only [execSteps, hx]

theorem initGotChip_match {d : List Byte} (h : byteAt d 0 = s.par.chipId) :
    initGotChip d s = { s with hphase := .initVariant } := if_pos h

theorem initGotVariant_match {d : List Byte} (h : byteAt d 0 ∈ s.par.variants) :
    initGotVariant d s = { s with hphase := .initCal1 (byteAt d 0) } := if_pos h

/-- Settles O26: the check, the two identifications and the two windows, one step each. -/
theorem initSucceeds : Obligations.InitSucceeds := by
  intro t p h f s x1 x2 x3 x4 id var w1 w2 rest hl hp hcfg hpar hw1 hw2 hid hvar hb
  simp only [Params.readsInRange, Bool.and_eq_true] at hpar
  obtain ⟨⟨⟨⟨⟨hchip, hvariant⟩, hcal1⟩, hcal2⟩, -⟩, -⟩ := hpar
  refine Eq.trans (execSteps_succ (Eq.trans (execInit_entry hp) (congrArg _ (initEntry_valid hl hcfg)))) ?_
  refine Eq.trans (execSteps_succ (Eq.trans (execInit_initChip rfl) (Eq.trans (initRead_answered hchip rfl hb)
    (congrArg _ (initGotChip_match hid))))) ?_
  refine Eq.trans (execSteps_succ (Eq.trans (execInit_initVariant rfl) (Eq.trans (initRead_answered hvariant rfl rfl)
    (congrArg _ (initGotVariant_match hvar))))) ?_
  refine Eq.trans (execSteps_succ (Eq.trans (execInit_initCal1 rfl) (initRead_answered hcal1 hw1 rfl))) ?_
  refine Eq.trans (execSteps_succ (Eq.trans (execInit_initCal2 rfl) (initRead_answered hcal2 hw2 rfl))) ?_
  simp only [execSteps, initCommit, respondCode_eq_ended, answered, cfgOf, memReadFrame]
  rfl

end Sys2Proof.Machine
end

section
/-! PROOF. SENSE and the cycle (R186 to R199): the entry step, the steps T1 to T5 and the abort read forwards, a whole SENSE
with any number of polls, and the independence of TFINE. -/

namespace Sys2Proof.Machine

variable {s : State}

/-! ## SENSE's entry -/

theorem senseEntry_unready (hl : s.life ≠ .ready) : senseEntry s = respondCode .notInitialized s := if_pos hl

theorem senseEntry_acquires (hl : s.life = .ready) (ha : s.sActive = false) (hf : s.lock = .free) :
    senseEntry s = { acquire .host s with hphase := .senseCycle } := by
  rw [senseEntry, if_neg (not_not.mpr hl), if_neg (by simp [ha]), if_pos hf]

theorem senseEntry_waits (hl : s.life = .ready) (ha : s.sActive = false) (hf : s.lock ≠ .free) :
    senseEntry s = s := by
  rw [senseEntry, if_neg (not_not.mpr hl), if_neg (by simp [ha]), if_neg hf]

/-- Settles O33: the tests of LIFE, S_ACTIVE and LOCK in SENSE's first step. -/
theorem senseTakesTheLock : Obligations.SenseTakesTheLock := by
  intro s hp
  rw [exec_sense_of_entry hp]
  refine ⟨fun hl => ?unready, fun hl ha hf => ?free, fun hl ha hf => ?held⟩
  case unready => rw [senseEntry_unready hl, respondCode_eq_ended]
  case free => rw [senseEntry_acquires hl ha hf, acquire]
  case held => rw [senseEntry_waits hl ha hf]

theorem exec_sense_of_cycle (hp : s.hphase = .senseCycle) : exec .sense s = senseCycle s := by
  simp only [exec, execSense, hp]

theorem samplerStep_of_lock {a : Bool} (hm : s.sPhase = .measuring) (hl : s.lock = .sampler) :
    samplerStep a s = samplerCycle s := by
  simp only [samplerStep, hm, samplerMeasuring, if_pos hl]

/-! ## The last step -/

/-- The Measurement of a data block, its humidity present where CFG asks for it (R196, R170). -/
theorem measure_snd (d : List Byte) (s : State) : (measure d s).2 =
    { t := celsius (tempFine (rawTOf d) s.cal)
      p := pressOut s.env.fresh s.par (rawPOf d) (tempFine (rawTOf d) s.cal) s.cal
      h := if s.cfg.osrsH = 0 then none
        else some (humOut s.env.fresh s.par (rawHOf d) (tempFine (rawTOf d) s.cal) s.cal) } := by
  simp only [measure, compensate, ne_eq, ite_not]

/-- Settles O34: the cycle is done with the block's Measurement, and SENSE releases LOCK and answers it. -/
theorem senseReturnsTheMeasurement : Obligations.SenseReturnsTheMeasurement := by
  intro s d hp hl hs hr ha b tf k pr hu hr'
  have hc := cycleStep_data_ok .host s d hl hs hr ha
  rw [exec_sense_of_cycle hp, senseCycle_done s hc hl]
  have hb : keepOf s.bus d = b := (keepOf_eq_match s.bus d).symm
  rw [hb, recordTxn, ha]
  simp only [measured, measuredRegs, measure_snd, respond, Resp.measured]
  rfl

/-! ## The other steps, and the abort -/

theorem polled_done {st : Byte} (h : pollDone s.par st = true) :
    polled st s = { s with cyc := { s.cyc with status := some st }, seq := .dataReady } := if_pos h

theorem polled_again {st : Byte} (h : pollDone s.par st = false) : polled st s =
    { s with cyc := { s.cyc with status := some st }, pwait := true, timer := some s.par.pollDelayMs } :=
  if_neg (by rw [h]; exact Bool.false_ne_true)

theorem pollTimerStep_in_delay (hs : s.seq = .polling) (hp : s.pwait = true) : pollTimerStep s = endPollDelay s :=
  if_pos ⟨hs, hp⟩

/-- Settles O36: T1, T2 and T3 by the state of SEQ, T3 with either end, and the delay. -/
theorem cycleGoesOn : Obligations.CycleGoesOn := by
  intro o s hl
  refine ⟨cycleStep_trigger_ok o s hl, cycleStep_begin o s hl, fun d hs hp hr ha => ?poll, fun hs hp => ?delay⟩
  case poll =>
    rw [cycleStep_poll_ok o s d hl hs hp hr ha, ← keepOf_eq_match]
    exact ⟨fun h => congrArg _ (polled_done h), fun h => congrArg _ (polled_again h)⟩
  case delay => exact ⟨cycleStep_wait o s hl hs hp, congrArg _ (pollTimerStep_in_delay hs hp)⟩

/-- Settles O37: the cycle's step aborts, and its owner releases LOCK and reports the error. -/
theorem cycleAborts : Obligations.CycleAborts := by
  intro s txn e f hwhich ha s1
  refine ⟨fun hp hl => ?sense, fun a hm hl => ?sampler⟩
  case sense =>
    rw [exec_sense_of_cycle hp, senseCycle_abort (cycleStep_err .host s txn e f hl hwhich ha) hl]
    rfl
  case sampler =>
    rw [samplerStep_of_lock hm hl, samplerCycle_abort (cycleStep_err .sampler s txn e f hl hwhich ha) hl]
    rfl

/-! ## TFINE and the cycle -/

/-- TFINE and TFINE_V replaced. -/
def withTfineAs (x : F64) (v : Bool) (s : State) : State := { s with tfine := x, tfineV := v }

section Ignores
variable {x : F64} {v : Bool}

@[simp] theorem withTfineAs_life : (withTfineAs x v s).life = s.life := rfl
@[simp] theorem withTfineAs_par : (withTfineAs x v s).par = s.par := rfl
@[simp] theorem withTfineAs_cfg : (withTfineAs x v s).cfg = s.cfg := rfl
@[simp] theorem withTfineAs_lock : (withTfineAs x v s).lock = s.lock := rfl
@[simp] theorem withTfineAs_seq : (withTfineAs x v s).seq = s.seq := rfl
@[simp] theorem withTfineAs_pwait : (withTfineAs x v s).pwait = s.pwait := rfl
@[simp] theorem withTfineAs_hphase : (withTfineAs x v s).hphase = s.hphase := rfl
@[simp] theorem withTfineAs_sActive : (withTfineAs x v s).sActive = s.sActive := rfl
@[simp] theorem withTfineAs_sCancel : (withTfineAs x v s).sCancel = s.sCancel := rfl
@[simp] theorem withTfineAs_sPhase : (withTfineAs x v s).sPhase = s.sPhase := rfl
@[simp] theorem withTfineAs_mbox : (withTfineAs x v s).mbox = s.mbox := rfl

theorem transact_withTfineAs (f : BusFrame) (keep : List Byte → List Byte) : transact f keep (withTfineAs x v s) =
    ((transact f keep s).1, withTfineAs x v (transact f keep s).2) := by
  have ha : answerOf f (withTfineAs x v s) = answerOf f s := rfl
  unfold transact
  rw [ha]
  cases answerOf f s <;> rfl

theorem memRead_withTfineAs (a : Byte) (n : Nat) : memRead a n (withTfineAs x v s) =
    ((memRead a n s).1, withTfineAs x v (memRead a n s).2) := by
  rw [memRead_eq, memRead_eq, ← transact_withTfineAs]
  rfl

theorem memWrite_withTfineAs (ps : List (Byte × Byte)) : memWrite ps (withTfineAs x v s) =
    ((memWrite ps s).1, withTfineAs x v (memWrite ps s).2) := by
  rw [memWrite_eq, memWrite_eq, ← transact_withTfineAs]
  rfl

theorem polled_withTfineAs (st : Byte) : polled st (withTfineAs x v s) = withTfineAs x v (polled st s) := by
  cases h : pollDone s.par st with
  | true => rw [polled_done h, polled_done (s := withTfineAs x v s) h]; rfl
  | false => rw [polled_again h, polled_again (s := withTfineAs x v s) h]; rfl

/-- What the state of a cycle's outcome is put through. -/
def CycleOut.map (g : State → State) : CycleOut → CycleOut
  | .run s         => .run (g s)
  | .done m s      => .done m (g s)
  | .abort txn e s => .abort txn e (g s)
  | .stop f        => .stop f

theorem cycleTrigger_withTfineAs : cycleTrigger (withTfineAs x v s) = (cycleTrigger s).map (withTfineAs x v) := by
  simp only [cycleTrigger, withTfineAs_par, withTfineAs_cfg, memWrite_withTfineAs]
  obtain ⟨r, s1⟩ := memWrite (triggerPairs s.par s.cfg) s
  cases r <;> rfl

theorem cyclePoll_withTfineAs : cyclePoll (withTfineAs x v s) = (cyclePoll s).map (withTfineAs x v) := by
  simp only [cyclePoll, withTfineAs_par, memRead_withTfineAs]
  split
  next =>
    obtain ⟨r, s1⟩ := memRead s.par.regStatus 1 s
    cases r with
    | ok d => exact congrArg CycleOut.run (polled_withTfineAs _)
    | err e => rfl
  next => rfl

theorem cycleData_withTfineAs : cycleData (withTfineAs x v s) = (cycleData s).map (withTfineAs x v) := by
  simp only [cycleData, withTfineAs_par, memRead_withTfineAs]
  split
  next =>
    obtain ⟨r, s1⟩ := memRead s.par.regData s.par.lenData s
    cases r <;> rfl
  next => rfl

theorem cycleStep_withTfineAs (o : Owner) :
    cycleStep o (withTfineAs x v s) = (cycleStep o s).map (withTfineAs x v) := by
  by_cases hl : s.lock = o
  case neg => rw [cycleStep, cycleStep, if_pos hl, if_pos (show (withTfineAs x v s).lock ≠ o from hl)]; rfl
  case pos =>
    rw [cycleStep, cycleStep, if_neg (not_not.mpr hl), if_neg (not_not.mpr (show (withTfineAs x v s).lock = o from hl)),
      withTfineAs_seq]
    cases s.seq with
    | sleep => exact cycleTrigger_withTfineAs
    | triggered => rfl
    | polling =>
      rw [withTfineAs_pwait]
      cases s.pwait
      exacts [cyclePoll_withTfineAs, rfl]
    | dataReady => exact cycleData_withTfineAs

/-- The release reads LOCK only. -/
theorem release_withTfineAs {o : Owner} {k k' : State → Out}
    (hk : ∀ u, k' (withTfineAs x v u) = mapNext (withTfineAs x v) (k u)) :
    release o (withTfineAs x v s) k' = mapNext (withTfineAs x v) (release o s k) := by
  show (if s.lock = o then k' (withTfineAs x v { s with lock := .free }) else .fault .releaseUnheld) =
    mapNext (withTfineAs x v) (if s.lock = o then k { s with lock := .free } else .fault .releaseUnheld)
  split
  exacts [hk _, rfl]

theorem senseCycle_withTfineAs :
    senseCycle (withTfineAs x v s) = mapNext (withTfineAs x v) (senseCycle s) := by
  simp only [senseCycle, cycleStep_withTfineAs]
  cases cycleStep .host s with
  | run u => rfl
  | done m u => exact release_withTfineAs fun _ => rfl
  | abort txn e u => exact release_withTfineAs fun _ => rfl
  | stop f => rfl

theorem samplerCycle_withTfineAs :
    samplerCycle (withTfineAs x v s) = mapNext (withTfineAs x v) (samplerCycle s) := by
  simp only [samplerCycle, cycleStep_withTfineAs]
  cases cycleStep .sampler s with
  | run u => rfl
  | done m u => exact release_withTfineAs fun _ => rfl
  | abort txn e u => exact release_withTfineAs fun _ => rfl
  | stop f => rfl

theorem senseEntry_withTfineAs : senseEntry (withTfineAs x v s) = withTfineAs x v (senseEntry s) := by
  by_cases hl : s.life = .ready
  case neg => rw [senseEntry_unready hl, senseEntry_unready (s := withTfineAs x v s) hl]; rfl
  cases ha : s.sActive with
  | true => rw [senseEntry_of_active hl ha, senseEntry_of_active (s := withTfineAs x v s) hl ha]; rfl
  | false =>
    by_cases hf : s.lock = .free
    · rw [senseEntry_acquires hl ha hf, senseEntry_acquires (s := withTfineAs x v s) hl ha hf]; rfl
    · rw [senseEntry_waits hl ha hf, senseEntry_waits (s := withTfineAs x v s) hl ha hf]

theorem execSense_withTfineAs : exec .sense (withTfineAs x v s) = mapNext (withTfineAs x v) (exec .sense s) := by
  simp only [exec, execSense, withTfineAs_hphase]
  split
  exacts [senseCycle_withTfineAs, congrArg _ senseEntry_withTfineAs]

theorem samplerMeasuring_withTfineAs :
    samplerMeasuring (withTfineAs x v s) = mapNext (withTfineAs x v) (samplerMeasuring s) := by
  show (if s.lock = .sampler then samplerCycle (withTfineAs x v s)
    else if s.sCancel then .next (withTfineAs x v (terminate none s))
    else if s.lock = .free then .next (withTfineAs x v (acquire .sampler s))
    else .next (withTfineAs x v s)) = mapNext (withTfineAs x v) (samplerMeasuring s)
  unfold samplerMeasuring
  split
  next => exact samplerCycle_withTfineAs
  next => (repeat' split) <;> rfl

theorem samplerPublishing_withTfineAs (a : Bool) :
    samplerPublishing a (withTfineAs x v s) = withTfineAs x v (samplerPublishing a s) := by
  show (if s.mbox.isNone && !(s.sCancel && a) then withTfineAs x v (publish s)
    else if s.sCancel then withTfineAs x v (terminate none s)
    else withTfineAs x v s) = withTfineAs x v (samplerPublishing a s)
  unfold samplerPublishing
  (repeat' split) <;> rfl

theorem samplerStep_withTfineAs (a : Bool) :
    samplerStep a (withTfineAs x v s) = mapNext (withTfineAs x v) (samplerStep a s) := by
  simp only [samplerStep, withTfineAs_sPhase]
  split
  next => rfl
  next => exact samplerMeasuring_withTfineAs
  next => exact congrArg _ (samplerPublishing_withTfineAs a)
  next =>
    show (if s.sCancel then .next (withTfineAs x v (terminateWaiting s)) else .next (withTfineAs x v s)) =
      mapNext (withTfineAs x v) (if s.sCancel then .next (terminateWaiting s) else .next s)
    split <;> rfl

end Ignores

/-- Settles O25: each piece of a cycle and of its owner's step commutes with the replacement. -/
theorem cyclesIgnoreTfine : Obligations.CyclesIgnoreTfine := fun _ _ _ =>
  ⟨samplerStep_withTfineAs, execSense_withTfineAs⟩

/-! ## A whole SENSE -/

/-- The host is inside SENSE's cycle. -/
structure InSense (s : State) : Prop where
  lock   : s.lock = .host
  hphase : s.hphase = .senseCycle
  busy   : s.cmdBusy = true
  word   : decodeCmd s.cmd = .ok .sense

theorem InSense.step_run {u : State} (h : InSense s) (hc : cycleStep .host s = .run u) :
    agentStep .host s = .next u :=
  (hostStep_sense s h.busy h.word h.hphase).trans (senseCycle_run s hc)

theorem agentSteps_cons {ev : Event} {l : List Event} {u : State} (hx : agentStep ev s = .next u) :
    agentSteps (ev :: l) s = agentSteps l u := by
  simp only [agentSteps, hx]

/-- A state between two polls of a cycle: in S_POLLING without a delay, with what the polls have written. -/
def betweenPolls (s : State) (st : Option Byte) (tm : Option Nat) (busIn : List BusAnswer) (hist : List BusEvent) :
    State :=
  { s with
    seq := .polling, pwait := false, timer := tm, cyc := { s.cyc with status := st }
    env := { s.env with busIn := busIn, hist := hist } }

/-- The block with the host in SENSE's cycle, after the trigger write. -/
def sensing (s : State) : State :=
  { s with lock := .host, cyc := .unwritten, hphase := .senseCycle, devmode := .forced }

/-- The transaction of a poll that is answered the status byte `q.2`, after the dummy byte `q.1`. -/
def pollEvent (s : State) (q : Byte × Byte) : BusEvent :=
  ⟨memReadFrame s.par.regStatus 1 s, .ok (inFrame s.bus q.1 [q.2])⟩

section Polls
variable {st : Option Byte} {tm : Option Nat} {rest : List BusAnswer} {hist : List BusEvent} {q : Byte × Byte}

theorem InSense.betweenPolls (h : InSense s) {busIn : List BusAnswer} :
    InSense (betweenPolls s st tm busIn hist) := ⟨h.lock, h.hphase, h.busy, h.word⟩

/-- The trigger write whose answer waits. -/
theorem cycleStep_trigger_answered (hl : s.lock = .host) (hs : s.seq = .sleep) (hb : s.env.busIn = .ok [] :: rest) :
    cycleStep .host s = .run { answered (memWriteFrame (triggerPairs s.par s.cfg) s) (.ok []) rest s with
      devmode := .forced, seq := .triggered } := by
  have ha := answerOf_scripted s (memWriteFrame (triggerPairs s.par s.cfg) s) [] rest hb (memWriteFrame_inLen _ _).symm
  rw [cycleStep_trigger_ok .host s hl hs ha, recordTxn_eq_answered ha hb]

/-- A poll whose answer waits. -/
theorem cycleStep_poll_answered {x b : Byte} (hl : s.lock = .host) (hs : s.seq = .polling) (hp : s.pwait = false)
    (hr : readInRange s.par.regStatus.toNat 1 = true) (hb : s.env.busIn = .ok (inFrame s.bus x [b]) :: rest) :
    cycleStep .host s = .run (polled b (answered (memReadFrame s.par.regStatus 1 s) (.ok (inFrame s.bus x [b])) rest s)) := by
  have ha := answerOf_read_scripted s s.par.regStatus x 1 [b] rest rfl hb
  rw [cycleStep_poll_ok .host s _ hl hs hp hr ha, keepOf_inFrame, recordTxn_eq_answered ha hb]
  rfl

/-- The data read whose answer waits. -/
theorem cycleStep_data_answered {x : Byte} {d : List Byte} (hl : s.lock = .host) (hs : s.seq = .dataReady)
    (hr : readInRange s.par.regData.toNat s.par.lenData = true) (hd : d.length = s.par.lenData)
    (hb : s.env.busIn = .ok (inFrame s.bus x d) :: rest) :
    let u := answered (memReadFrame s.par.regData s.par.lenData s) (.ok (inFrame s.bus x d)) rest s
    cycleStep .host s = .done (measure d u).2 (measured d u) := by
  have ha := answerOf_read_scripted s s.par.regData x s.par.lenData d rest hd hb
  rw [cycleStep_data_ok .host s _ hl hs hr ha, keepOf_inFrame, recordTxn_eq_answered ha hb]

/-- A poll that does not end the polling, and the delay after it. -/
theorem poll_again (h : InSense s) (hr : readInRange s.par.regStatus.toNat 1 = true)
    (hq : pollDone s.par q.2 = false) :
    agentSteps [.host, .pollTimer] (Machine.betweenPolls s st tm (.ok (inFrame s.bus q.1 [q.2]) :: rest) hist) =
      .next (Machine.betweenPolls s (some q.2) none rest (pollEvent s q :: hist)) := by
  have hpoll := cycleStep_poll_answered
    (s := Machine.betweenPolls s st tm (.ok (inFrame s.bus q.1 [q.2]) :: rest) hist) h.lock rfl rfl hr rfl
  rw [polled_again (by exact hq)] at hpoll
  rw [agentSteps_cons (h.betweenPolls.step_run hpoll)]
  rfl

/-- Any number of polls that do not end the polling. -/
theorem polls_again (h : InSense s) (hr : readInRange s.par.regStatus.toNat 1 = true) (polls : List (Byte × Byte))
    (hq : ∀ q ∈ polls, pollDone s.par q.2 = false) (st : Option Byte) (tm : Option Nat) (hist : List BusEvent) :
    ∃ st' tm', agentSteps (polls.flatMap fun _ => [Event.host, Event.pollTimer])
      (Machine.betweenPolls s st tm ((polls.map fun q => BusAnswer.ok (inFrame s.bus q.1 [q.2])) ++ rest) hist) =
        .next (Machine.betweenPolls s st' tm' rest ((polls.reverse.map (pollEvent s)) ++ hist)) := by
  induction polls generalizing st tm hist with
  | nil => exact ⟨st, tm, rfl⟩
  | cons q qs ih =>
    obtain ⟨st', tm', hx⟩ := ih (fun p hp => hq p (List.mem_cons_of_mem q hp)) (some q.2) none (pollEvent s q :: hist)
    refine ⟨st', tm', ?_⟩
    refine Eq.trans (agentSteps_append _ [.host, .pollTimer] _ (poll_again h hr (hq q List.mem_cons_self))) ?_
    rw [List.reverse_cons, List.map_append, List.append_assoc]
    exact hx

end Polls

/-- SENSE's first three steps with the lock free and the trigger write answered: LOCK taken, T1 and T2. -/
theorem sense_begins {busIn : List BusAnswer} (hp : s.hphase = .entry) (hl : s.life = .ready) (ha : s.sActive = false)
    (hf : s.lock = .free) (hs : s.seq = .sleep) (hbusy : s.cmdBusy = true) (hw : decodeCmd s.cmd = .ok .sense)
    (hb : s.env.busIn = .ok [] :: busIn) :
    agentSteps [.host, .host, .host] s = .next (betweenPolls (sensing s) none s.timer busIn
      (⟨memWriteFrame (triggerPairs s.par s.cfg) s, .ok []⟩ :: s.env.hist)) := by
  have hacquired : agentStep .host s = .next { acquire .host s with hphase := .senseCycle } := by
    rw [← senseEntry_acquires hl ha hf, ← exec_sense_of_entry hp]
    exact hostStep_busy hbusy hw
  have htrigger := cycleStep_trigger_answered (s := { acquire .host s with hphase := .senseCycle }) rfl hs hb
  have hin : InSense { acquire .host s with hphase := .senseCycle } := ⟨rfl, rfl, hbusy, hw⟩
  rw [agentSteps_cons hacquired, agentSteps_cons (hin.step_run htrigger)]
  exact agentSteps_cons (InSense.step_run ⟨rfl, rfl, hbusy, hw⟩ (cycleStep_begin .host _ rfl rfl))

/-- The state SENSE ends in, from the state its data read leaves. -/
def sensed (d : List Byte) (s : State) : State :=
  respond (fun k => .measured k (measure d s).2) { measured d s with lock := .free }

theorem sensed_hv {d : List Byte} : (sensed d s).resp.hv = decide (s.cfg.osrsH ≠ 0) := by
  show (measure d s).2.h.isSome = _
  rw [measure_snd]
  by_cases h : s.cfg.osrsH = 0
  · rw [if_pos h, decide_eq_false (not_not.mpr h)]
    rfl
  · rw [if_neg h, decide_eq_true h]
    rfl

theorem sensed_h {d : List Byte} (h : s.cfg.osrsH ≠ 0) :
    (sensed d s).resp.h = humOut s.env.fresh s.par (rawHOf d) (tempFine (rawTOf d) s.cal) s.cal := by
  show (measure d s).2.h.getD _ = _
  rw [measure_snd, if_neg h]
  rfl

/-- The poll that ends the polling and the data read, each with its answer waiting. -/
theorem sense_ends (h : InSense s) (hpar : s.par.readsInRange = true) {x y b : Byte} {d : List Byte}
    {rest : List BusAnswer} {hist : List BusEvent} {st : Option Byte} {tm : Option Nat} (hb : pollDone s.par b = true)
    (hd : d.length = s.par.lenData) :
    agentSteps [.host, .host]
      (betweenPolls s st tm (.ok (inFrame s.bus x [b]) :: .ok (inFrame s.bus y d) :: rest) hist) =
    .next (sensed d { betweenPolls s (some b) tm rest
      (⟨memReadFrame s.par.regData s.par.lenData s, .ok (inFrame s.bus y d)⟩ :: pollEvent s (x, b) :: hist) with
        seq := .dataReady }) := by
  simp only [Params.readsInRange, Bool.and_eq_true] at hpar
  obtain ⟨⟨-, hstatus⟩, hdata⟩ := hpar
  have hpoll := cycleStep_poll_answered
    (s := betweenPolls s st tm (.ok (inFrame s.bus x [b]) :: .ok (inFrame s.bus y d) :: rest) hist)
    h.lock rfl rfl hstatus rfl
  rw [polled_done (by exact hb)] at hpoll
  rw [agentSteps_cons (h.betweenPolls.step_run hpoll)]
  have hread := cycleStep_data_answered
    (s := { betweenPolls s (some b) tm (.ok (inFrame s.bus y d) :: rest) (pollEvent s (x, b) :: hist) with
      seq := .dataReady }) h.lock rfl hdata hd rfl
  have hdone := senseCycle_done _ hread h.lock
  exact agentSteps_cons (Eq.trans (hostStep_sense _ h.busy h.word h.hphase) hdone)

/-- Settles O35: the entry, T1 and T2; the polls that do not end the polling; the one that does, and the data read. -/
theorem senseRunsToItsResponse : Obligations.SenseRunsToItsResponse := by
  intro s x y polls st d rest hp hl ha hf hs hbusy hw hpar hq hst hd hb
  have hin : InSense (sensing s) := ⟨rfl, rfl, hbusy, hw⟩
  have hstatus : readInRange s.par.regStatus.toNat 1 = true := by
    simp only [Params.readsInRange, Bool.and_eq_true] at hpar
    obtain ⟨⟨-, h⟩, -⟩ := hpar
    exact h
  obtain ⟨st', tm', hpolls⟩ := polls_again hin hstatus polls hq none s.timer
    (rest := .ok (inFrame s.bus x [st]) :: .ok (inFrame s.bus y d) :: rest)
    (⟨memWriteFrame (triggerPairs s.par s.cfg) s, .ok []⟩ :: s.env.hist)
  have hends := sense_ends (x := x) (y := y) (rest := rest) (st := st') (tm := tm')
    (hist := polls.reverse.map (pollEvent (sensing s)) ++
      ⟨memWriteFrame (triggerPairs s.par s.cfg) s, .ok []⟩ :: s.env.hist) hin hpar hst hd
  have hsteps := (agentSteps_append _ [.host, .host, .host] _ (sense_begins hp hl ha hf hs hbusy hw hb)).trans
    ((agentSteps_append _ _ [.host, .host] hpolls).trans hends)
  exact ⟨_, hsteps, rfl, rfl, rfl, sensed_hv, sensed_h, rfl, rfl, rfl, rfl, rfl, hl, rfl, rfl, rfl, rfl, ha, rfl, rfl,
    rfl, rfl⟩

end Sys2Proof.Machine
end

section
/-! PROOF. The sampler's steps (R223) read forwards, and START and STOP with a run active (R230, R231, R233). -/

namespace Sys2Proof.Machine

variable {s : State}

/-! ## The sampler's steps, by its phase -/

theorem samplerStep_of_idle {a : Bool} (hp : s.sPhase = .idle) : samplerStep a s = .next s := by
  simp only [samplerStep, hp]

theorem samplerStep_of_measuring {a : Bool} (hp : s.sPhase = .measuring) (hl : s.lock ≠ .sampler) :
    samplerStep a s = if s.sCancel then .next (terminate none s)
      else if s.lock = .free then .next (acquire .sampler s) else .next s := by
  simp only [samplerStep, hp, samplerMeasuring, if_neg hl]

theorem samplerStep_of_publishing {a : Bool} (hp : s.sPhase = .publishing) :
    samplerStep a s = .next (samplerPublishing a s) := by
  simp only [samplerStep, hp]

/-- P1 is enabled by an empty MBOX; a stop request leaves the choice to `a`. -/
theorem samplerPublishing_publishes {a : Bool} (hm : s.mbox = none) (hc : s.sCancel = false ∨ a = false) :
    samplerPublishing a s = publish s :=
  if_pos (by obtain hc | hc := hc <;> simp [hm, hc])

/-- P2 is enabled by a stop request; an empty MBOX leaves the choice to `a`. -/
theorem samplerPublishing_ends {a : Bool} (hc : s.sCancel = true) (hm : s.mbox ≠ none ∨ a = true) :
    samplerPublishing a s = terminate none s := by
  have hno : (s.mbox.isNone && !(s.sCancel && a)) = false := by
    obtain hm | ha := hm
    · rw [Option.isNone_eq_false_iff.mpr (Option.isSome_iff_ne_none.mpr hm), Bool.false_and]
    · rw [hc, ha, Bool.and_true, Bool.not_true, Bool.and_false]
  rw [samplerPublishing, hno, if_neg Bool.false_ne_true, if_pos hc]

theorem samplerPublishing_blocks {a : Bool} (hc : s.sCancel = false) (hm : s.mbox ≠ none) :
    samplerPublishing a s = s := by
  rw [samplerPublishing, Option.isNone_eq_false_iff.mpr (Option.isSome_iff_ne_none.mpr hm), hc, Bool.false_and,
    if_neg Bool.false_ne_true, if_neg Bool.false_ne_true]

theorem intervalTimerStep_disabled (h : s.sPhase ≠ .waiting ∨ s.sCancel = true) : intervalTimerStep s = s := by
  obtain h | h := h
  · exact if_neg fun hw => h hw.1
  · exact intervalTimerStep_cancel h

/-- An abort keeps the LOCK of its agent. -/
theorem cycleStep_abort_lock {o : Owner} {txn : Byte} {e : BusErr} {t : State} (hl : s.lock = o)
    (hc : cycleStep o s = .abort txn e t) : t.lock = o := by
  obtain ⟨⟨hkeep, -⟩, -⟩ := cycleStep_frame _ (.inr (.inr ⟨txn, e, hc⟩))
  exact hkeep.trans hl

/-- Settles O39: the phases' steps, and in MEASURING with LOCK the cycle's three outcomes. -/
theorem samplerSteps : Obligations.SamplerSteps := by
  intro s a fin
  refine ⟨fun hp hl hc => ?m0, fun hp hl hc => ?m1, fun hp hl hc => ?held, fun d hp hl hs hr ha => ?done,
    fun s1 hp hl hc => ?run, fun txn e s1 hp hl hc => ?abort, fun hp hm hc => ?p1, fun hp hc hm => ?p2,
    fun hp hc hm => ?blocked, fun hp hc => ?w1, fun hp hc => ?w2, fun h => ?disabled, samplerStep_of_idle⟩
  case m0 => rw [samplerStep_of_measuring hp hl, if_pos hc]; rfl
  case m1 => rw [samplerStep_of_measuring hp (by simp [hl]), if_neg (by simp [hc]), if_pos hl, acquire]
  case held => rw [samplerStep_of_measuring hp (by simp [hl]), if_neg (by simp [hc]), if_neg (by simp [hl])]
  case done =>
    rw [samplerStep_of_lock hp hl, samplerCycle_done (cycleStep_data_ok .sampler s d hl hs hr ha) hl,
      ← keepOf_eq_match]
    rfl
  case run => rw [samplerStep_of_lock hp hl, samplerCycle_run hc]
  case abort =>
    rw [samplerStep_of_lock hp hl, samplerCycle_abort hc (cycleStep_abort_lock hl hc)]
    rfl
  case p1 => rw [samplerStep_of_publishing hp, samplerPublishing_publishes hm hc, publish]
  case p2 => rw [samplerStep_of_publishing hp, samplerPublishing_ends hc hm]; rfl
  case blocked => rw [samplerStep_of_publishing hp, samplerPublishing_blocks hc hm]
  case w1 => rw [samplerStep_waiting_cancel hp hc]; rfl
  case w2 => exact congrArg _ (intervalTimerStep_waiting hp hc)
  case disabled => exact congrArg _ (intervalTimerStep_disabled h)

/-! ## START and STOP -/

theorem exec_start_of_entry {ms : BitVec 24} (hp : s.hphase = .entry) :
    exec (.start ms) s = .next (startEntry ms s) := by
  simp only [exec, execStart, hp]

theorem exec_start_of_wait {ms : BitVec 24} (hp : s.hphase = .startWait) :
    exec (.start ms) s = .next (if s.sActive then s else startLaunch ms s) := by
  simp only [exec, execStart, hp]

theorem exec_stop_of_wait (hp : s.hphase = .stopWait) :
    exec .stop s = .next (if s.sActive then s else respondCode .ok s) := by
  simp only [exec, execStop, hp]

theorem stopEntry_of_active (ha : s.sActive = true) :
    stopEntry s = { s with sCancel := true, hphase := .stopWait } := if_pos ha

theorem startEntry_of_ready {ms : BitVec 24} (hl : s.life = .ready) :
    startEntry ms s = if s.sActive then { s with sCancel := true, hphase := .startWait } else startLaunch ms s :=
  if_neg (not_not.mpr hl)

/-- A host step that waits for the end of a run, once no run is active. -/
theorem ite_inactive {α : Type} (ha : s.sActive = false) (x y : α) : (if s.sActive then x else y) = y :=
  if_neg (by rw [ha]; exact Bool.false_ne_true)

/-- Settles O41: the tests of LIFE and S_ACTIVE, and the launch. -/
theorem startLaunchesARun : Obligations.StartLaunchesARun := by
  intro ms s hp
  rw [exec_start_of_entry hp]
  refine ⟨fun hl ha => ?launch, fun hl => ?refused⟩
  case launch => rw [startEntry_of_ready hl, ite_inactive ha]; rfl
  case refused => rw [startEntry, if_pos hl, respondCode_eq_ended]

/-- Settles O42: the request, the wait and the launch. -/
theorem startRestartsARun : Obligations.StartRestartsARun := by
  intro ms s
  refine ⟨fun hp hl ha => ?request, fun hp ha => ?wait, fun hp ha => ?launch⟩
  case request => rw [exec_start_of_entry hp, startEntry_of_ready hl, if_pos ha]
  case wait => rw [exec_start_of_wait hp, if_pos ha]
  case launch => rw [exec_start_of_wait hp, ite_inactive ha]; rfl

/-- STOP on a run in WAITING: the request, W1 and the answer. -/
theorem stop_waiting_run {a : Bool} (hp : s.hphase = .entry) (hb : s.cmdBusy = true) (hw : decodeCmd s.cmd = .ok .stop)
    (ha : s.sActive = true) (hs : s.sPhase = .waiting) : agentSteps [.host, .sampler a, .host] s =
      .next (respondCode .ok (terminateWaiting { s with sCancel := true, hphase := .stopWait })) := by
  have hrequest : agentStep .host s = .next { s with sCancel := true, hphase := .stopWait } := by
    rw [← stopEntry_of_active ha, ← exec_stop_of_entry hp]
    exact hostStep_busy hb hw
  have hend := samplerStep_waiting_cancel (s := { s with sCancel := true, hphase := .stopWait }) (a := a) hs rfl
  have hanswer := hostStep_busy (s := terminateWaiting { s with sCancel := true, hphase := .stopWait }) hb hw
  rw [exec_stop_of_wait rfl, ite_inactive rfl] at hanswer
  rw [agentSteps_cons hrequest, agentSteps_cons (ev := .sampler a) hend]
  exact agentSteps_cons (ev := .host) hanswer

/-- Settles O44: the request, the wait and the answer, and the whole way over W1. -/
theorem stopWaitsForTheRun : Obligations.StopWaitsForTheRun := by
  intro s
  refine ⟨fun hp ha => ?request, fun hp ha => ?wait, fun hp ha => ?answer, fun hp hb hw ha hs a => ?path⟩
  case request => rw [exec_stop_of_entry hp, stopEntry_of_active ha]
  case wait => rw [exec_stop_of_wait hp, if_pos ha]
  case answer => rw [exec_stop_of_wait hp, ite_inactive ha, respondCode_eq_ended]
  case path => rw [stop_waiting_run hp hb hw ha hs]; rfl

end Sys2Proof.Machine
end

section
/-! PROOF. The bus transactions as instructions of their own (R110 to R120): their frames, their results and the faults
where the transport stops. -/

namespace Sys2Proof.Machine

variable {s : State}

/-! ## A transaction on its own -/

theorem busOp_ok {kind : BusKind} {f : BusFrame} {keep : List Byte → List Byte} {d : List Byte} (hb : s.bus = kind)
    (hm : mayEmit s = true) (ha : answerOf f s = .ok d) :
    busOp kind (transact f keep) s = .next { recordTxn f s with xfer := .ok (keep d) } := by
  rw [busOp, if_neg (not_not.mpr hb), if_neg (by simp [hm]), transact_ok s f keep d ha]

theorem busOp_err {kind : BusKind} {f : BusFrame} {keep : List Byte → List Byte} {e : BusErr} (hb : s.bus = kind)
    (hm : mayEmit s = true) (ha : answerOf f s = .err e) :
    busOp kind (transact f keep) s = .next { recordTxn f s with buserr := e, xfer := .err e } := by
  rw [busOp, if_neg (not_not.mpr hb), if_neg (by simp [hm]), transact_err s f keep e ha]
  rfl

theorem busOp_wrongFraming {kind : BusKind} {op : State → XferResult × State} (hb : s.bus ≠ kind) :
    busOp kind op s = .fault .wrongFraming := if_pos hb

theorem busOp_withoutLock {kind : BusKind} {op : State → XferResult × State} (hb : s.bus = kind)
    (hm : mayEmit s = false) : busOp kind op s = .fault .busWithoutLock := by
  rw [busOp, if_neg (not_not.mpr hb), if_pos hm]

theorem readInRange_iff {a n : Nat} : readInRange a n = true ↔ 1 ≤ n ∧ a + n ≤ 256 := by
  simp [readInRange]

theorem readInRange_eq_false_iff {a n : Nat} : readInRange a n = false ↔ n = 0 ∨ a + n > 256 := by
  rw [Bool.eq_false_iff, Ne, readInRange_iff]
  omega

theorem exec_busRdI2c {a : Byte} {n : Nat} (hr : readInRange a.toNat n = true) :
    exec (.busRdI2c a n) s = busOp .i2c (transact (i2cReadFrame a n) id) s := if_pos hr

theorem exec_busRdSpi {a : BitVec 7} {n : Nat} (hr : readInRange a.toNat n = true) :
    exec (.busRdSpi a n) s = busOp .spi (transact (spiReadFrame s.par.spiFill a n) (List.drop 1)) s := if_pos hr

theorem exec_busRdI2c_fault {a : Byte} {n : Nat} (hr : readInRange a.toNat n = false) :
    exec (.busRdI2c a n) s = .fault .readOutOfRange := if_neg (by rw [hr]; exact Bool.false_ne_true)

theorem exec_busRdSpi_fault {a : BitVec 7} {n : Nat} (hr : readInRange a.toNat n = false) :
    exec (.busRdSpi a n) s = .fault .readOutOfRange := if_neg (by rw [hr]; exact Bool.false_ne_true)

theorem exec_busWrI2c (ps : List (Byte × Byte)) :
    exec (.busWrI2c ps) s = busOp .i2c (transact (i2cWriteFrame ps) id) s := rfl

theorem exec_busWrSpi (ps : List (BitVec 7 × Byte)) :
    exec (.busWrSpi ps) s = busOp .spi (transact (spiWriteFrame ps) id) s := rfl

/-! ## The frames -/

/-- A SPI read's frame, its address byte as R91 writes it. -/
theorem spiReadFrame_eq (fill : Byte) (a : BitVec 7) (n : Nat) : spiReadFrame fill a n =
    ⟨.spi, (0x80#8 ||| a.setWidth 8) :: List.replicate n fill, n + 1⟩ := by
  rw [spiReadFrame, spiReadOut, spi_read_byte]

theorem spi_write_zero_extends (a : BitVec 7) : (0#1 ++ a : BitVec 8) = a.setWidth 8 := by
  revert a; decide

/-- A SPI write's frame, its address bytes as R91 writes them. -/
theorem spiWriteFrame_eq (ps : List (BitVec 7 × Byte)) :
    spiWriteFrame ps = ⟨.spi, ps.flatMap fun q => [q.1.setWidth 8, q.2], 0⟩ := by
  simp only [spiWriteFrame, spiWriteOut, spi_write_zero_extends]

/-- Bit 7 of an address is no part of a SPI frame. -/
theorem setWidth_xor_bit7 (a : Byte) : (a ^^^ 0x80#8).setWidth 7 = a.setWidth 7 := by
  revert a; decide

theorem memReadFrame_spi (a : Byte) (n : Nat) (hb : s.bus = .spi) :
    memReadFrame a n s = spiReadFrame s.par.spiFill (a.setWidth 7) n := by
  rw [memReadFrame, hb]

/-- `MemWrite`'s SPI frame: bit 7 of each address cleared (R118). -/
theorem memWriteFrame_spi (ps : List (Byte × Byte)) (hb : s.bus = .spi) :
    memWriteFrame ps s = ⟨.spi, ps.flatMap fun q => [q.1 &&& 0x7F#8, q.2], 0⟩ := by
  simp only [memWriteFrame, hb, spiWriteFrame, spiWriteOut, List.flatMap_map, spi_write_byte]

theorem memWriteFrame_i2c (ps : List (Byte × Byte)) (hb : s.bus = .i2c) :
    memWriteFrame ps s = ⟨.i2c, ps.flatMap fun q => [q.1, q.2], 0⟩ := by
  rw [memWriteFrame, hb]
  rfl

theorem low_and_mask {a : Byte} (h : a.toNat < 128) : a &&& 0x7F#8 = a := by
  revert a; decide

/-! ## The obligations -/

/-- Settles O51: both framings' frames, MemWrite's SPI frame, and addresses below 0x80. -/
theorem writeFrames : Obligations.WriteFrames := by
  refine ⟨fun ps s hb hm => ?i2c, fun ps s hb hm => ?spi, fun ps s hb => memWriteFrame_spi ps hb, fun ps s hlow => ?out⟩
  case i2c => exact ⟨fun ha => busOp_ok hb hm ha, fun e ha => busOp_err hb hm ha⟩
  case spi =>
    rw [exec_busWrSpi, spiWriteFrame_eq]
    exact ⟨fun ha => busOp_ok hb hm ha, fun e ha => busOp_err hb hm ha⟩
  case out =>
    rw [memWriteFrame_spi ps rfl, memWriteFrame_i2c ps rfl]
    exact List.flatMap_congr fun q hq => by rw [low_and_mask (hlow q hq)]

/-- SENSE's cycle without LOCK, and with a data read out of range. -/
theorem senseCycle_fault {x : Fault} (hp : s.hphase = .senseCycle) (hc : cycleStep .host s = .stop x) :
    exec .sense s = .fault x := by
  simp only [exec_sense_of_cycle hp, senseCycle, hc]

theorem cycleStep_data_fault {o : Owner} (hl : s.lock = o) (hs : s.seq = .dataReady)
    (hr : readInRange s.par.regData.toNat s.par.lenData = false) : cycleStep o s = .stop .readOutOfRange := by
  simp only [cycleStep, if_neg (not_not.mpr hl), hs, cycleData, hr, Bool.false_eq_true, if_false]

theorem initRead_fault {txn a : Byte} {n : Nat} {k : List Byte → State → State} (hr : readInRange a.toNat n = false) :
    initRead txn a n s k = .fault .readOutOfRange := if_neg (by rw [hr]; exact Bool.false_ne_true)

/-- Settles O52: the range of a read, BUS and LOCK for a transaction on its own, and the reads inside SENSE and INIT. -/
theorem transportFaults : Obligations.TransportFaults := by
  refine ⟨fun a n s h => exec_busRdI2c_fault (readInRange_eq_false_iff.mpr h),
    fun a n s h => exec_busRdSpi_fault (readInRange_eq_false_iff.mpr h), fun a n ps s hn hr => ?i2c,
    fun a n ps s hn hr => ?spi, fun s hp hl => senseCycle_fault hp (if_pos hl),
    fun s hp hl hs h => senseCycle_fault hp (cycleStep_data_fault hl hs (readInRange_eq_false_iff.mpr h)),
    fun t p h f s v w => ?init⟩
  case i2c =>
    rw [exec_busRdI2c (readInRange_iff.mpr ⟨hn, hr⟩), exec_busWrI2c]
    exact ⟨fun hb => ⟨busOp_wrongFraming (by simp [hb]), busOp_wrongFraming (by simp [hb])⟩,
      fun hb hm => ⟨busOp_withoutLock hb hm, busOp_withoutLock hb hm⟩⟩
  case spi =>
    rw [exec_busRdSpi (readInRange_iff.mpr ⟨hn, hr⟩), exec_busWrSpi]
    exact ⟨fun hb => ⟨busOp_wrongFraming (by simp [hb]), busOp_wrongFraming (by simp [hb])⟩,
      fun hb hm => ⟨busOp_withoutLock hb hm, busOp_withoutLock hb hm⟩⟩
  case init =>
    exact ⟨fun hp hx => by rw [execInit_initCal1 hp, initRead_fault (readInRange_eq_false_iff.mpr hx)],
      fun hp hx => by rw [execInit_initCal2 hp, initRead_fault (readInRange_eq_false_iff.mpr hx)]⟩

end Sys2Proof.Machine

/-! The theorems named after the two obligations whose names the model's frames also bear. -/

namespace Sys2Proof
open Machine

/-- Settles O49: the frame is the read's own, and the answer has its length. -/
theorem i2cReadFrame : Obligations.I2cReadFrame := by
  intro a n s hn hr hb hm f
  rw [exec_busRdI2c (readInRange_iff.mpr ⟨hn, hr⟩)]
  exact ⟨fun d ha => ⟨answerOf_length s f d ha, busOp_ok hb hm ha⟩, fun e ha => busOp_err hb hm ha⟩

/-- Settles O50: the frame with R91's address byte, the dummy byte dropped, and bit 7 of an address without effect. -/
theorem spiReadFrame : Obligations.SpiReadFrame := by
  refine ⟨fun a n s hn hr hb hm => ?_, fun a n s hb => ?_⟩
  · rw [exec_busRdSpi (readInRange_iff.mpr ⟨hn, hr⟩), spiReadFrame_eq]
    exact ⟨fun d0 d ha => ⟨Nat.succ.inj (answerOf_length s _ _ ha), busOp_ok hb hm ha⟩, fun e ha => busOp_err hb hm ha⟩
  · rw [memReadFrame_spi a n hb, memReadFrame_spi _ n hb, setWidth_xor_bit7]

end Sys2Proof
end
